-- ==== Sys2Proof/Word.lean ====
section
/-! DEFINITION. The word types of the ports and of the datapath (spec/00_scope.md R9, R11; spec/20_memory.md R70).
Bit 0 is the least-significant bit of every word. -/

namespace Sys2Proof

/-- A `u8` (R11): one wire byte, a type byte, a checksum. -/
abbrev Byte := BitVec 8

/-- A `u16` (R11): the length field and the fields `A` and `B` of a `do` word. -/
abbrev Half := BitVec 16

/-- The four-bit `kind` and `class` fields of a `do` word (R97). -/
abbrev Nibble := BitVec 4

/-- One `fi` beat, `FI_W` = 10 bits (R9, R91). -/
abbrev FiWord := BitVec 10

/-- One `fo` beat, `FO_W` = 9 bits (R9, R93). -/
abbrev FoWord := BitVec 9

/-- One `fe` beat, `FE_W` = 4 bits (R9, R94). -/
abbrev FeWord := BitVec 4

/-- One `di` beat, `DI_W` = 9 bits (R9, R95). -/
abbrev DiWord := BitVec 9

/-- One `do` beat, `DO_W` = 48 bits (R9, R97). -/
abbrev DoWord := BitVec 48

end Sys2Proof
end

