-- ==== Sys2Proof/Config.lean ====
section
/-! DEFINITION. The fixed parameters of the hardware (spec/00_scope.md R9): nothing is configurable (R33).
The one open parameter, `READ_TIMEOUT` (R10), belongs to the environment: the model takes every placement of TIMEOUT
beats that the field `source` of State can hold. -/

namespace Sys2Proof.Config

/-- `START`, the start marker (R9, R81). -/
def start : Byte := 0xAA

/-- `MAX_PAYLOAD` (R9). -/
def maxPayload : Nat := 65535

/-- `HDR_BYTES`, the header bytes after the start marker (R9). -/
def hdrBytes : Nat := 3

/-- `OVERHEAD`, the bytes of a packet beside its payload (R9, R80). -/
def overhead : Nat := 5

/-- `PF_BUF_BYTES` and `PD_BUF_BYTES`: the size of each payload buffer (R9, R60). -/
def bufBytes : Nat := 65535

/-- Message type KeyboardReport (R88). -/
def tyKeyboard : Byte := 0x01

/-- Message type MouseReport (R88). -/
def tyMouse : Byte := 0x02

/-- Message type LedUpdate (R88). -/
def tyLedUpdate : Byte := 0x03

/-- Message type Status (R88). -/
def tyStatus : Byte := 0x04

/-- Message type Ack (R88). -/
def tyAck : Byte := 0x05

/-- The exact payload length of a KeyboardReport (R211). -/
def keyboardLen : Nat := 8

/-- The least payload length of a MouseReport (R213). -/
def mouseMinLen : Nat := 3

end Sys2Proof.Config
end

