-- ==== Sys2Proof/Syntax.lean ====
section
/-! DEFINITION. The operations of the hardware: one constructor of `Instr` for each row of spec/opcode_table.json,
the ports and beats that carry them, and the names of the codes in their fields (spec/30_encoding.md). -/

namespace Sys2Proof

/-- The five stream ports (R21, R24). -/
inductive Port where
  /-- PF's command input. -/
  | fi
  /-- PF's wire byte output. -/
  | fo
  /-- PF's error output. -/
  | fe
  /-- PD's input. -/
  | di
  /-- PD's output `do`. -/
  | dout
  deriving DecidableEq, Repr

/-- One word on the port that carries it: the same bits mean different operations on different ports (R105). -/
inductive Beat where
  | fi (w : FiWord)
  | fo (w : FoWord)
  | fe (w : FeWord)
  | di (w : DiWord)
  | dout (w : DoWord)
  deriving DecidableEq, Repr

/-- The codes PF emits on `fe` (R94). -/
inductive FeCode where
  | payloadTooLarge
  | dataWhileIdle
  | eopWhileIdle
  | sopWhileOpen
  | reservedOp
  deriving DecidableEq, Repr

/-- The kinds of a `do` word that PD emits (R98). -/
inductive DoKind where
  | decoded
  | hdrFail
  | bodyFail
  | csumErr
  | payload
  deriving DecidableEq, Repr

/-- The classes of a DECODED word (R99). -/
inductive PacketClass where
  | keyboard
  | mouse
  | ledUpdate
  | statusText
  | statusRaw
  | ack
  | unrecognized
  | malformed
  deriving DecidableEq, Repr

/-- One operation of a port: the first six are input beats a block takes, the rest are output beats a consumer takes
from a block. A field named `ignored` is the data field the spec says is ignored (R92, R96); it is kept so that each
word has one instruction and each instruction one word. -/
inductive Instr where
  /-- SOP: open a packet of type `ty` (R121, R122). -/
  | sop (ty : Byte)
  /-- DATA: one payload byte (R123 to R126). -/
  | data (b : Byte)
  /-- EOP: close and emit the packet (R127 to R129). -/
  | eop (ignored : Byte)
  /-- RSVD: the reserved operation (R130). -/
  | rsvd (ignored : Byte)
  /-- BYTE: one received byte (R160). -/
  | byte (b : Byte)
  /-- TIMEOUT: a short read (R163, R170, R171). -/
  | timeout (ignored : Byte)
  /-- FO_BYTE: the byte sink takes one wire byte (R93). -/
  | foByte (last : Bool) (b : Byte)
  /-- FE_PAYLOAD_TOO_LARGE: the error consumer takes code 0x1 (R94). -/
  | fePayloadTooLarge
  /-- FE_DATA_WHILE_IDLE: the error consumer takes code 0x2 (R94). -/
  | feDataWhileIdle
  /-- FE_EOP_WHILE_IDLE: the error consumer takes code 0x3 (R94). -/
  | feEopWhileIdle
  /-- FE_SOP_WHILE_OPEN: the error consumer takes code 0x4 (R94). -/
  | feSopWhileOpen
  /-- FE_RESERVED_OP: the error consumer takes code 0x5 (R94). -/
  | feReservedOp
  /-- DO_DECODED: the event consumer takes a DECODED word (R100). -/
  | doDecoded (cls : Nibble) (ty : Byte) (a b : Half)
  /-- DO_HDR_FAIL: the event consumer takes an HDR_FAIL word (R100). -/
  | doHdrFail (cls : Nibble) (ty : Byte) (a b : Half)
  /-- DO_BODY_FAIL: the event consumer takes a BODY_FAIL word (R100). -/
  | doBodyFail (cls : Nibble) (ty : Byte) (a b : Half)
  /-- DO_CSUM_ERR: the event consumer takes a CSUM_ERR word (R100). -/
  | doCsumErr (cls : Nibble) (ty : Byte) (a b : Half)
  /-- DO_PAYLOAD: the event consumer takes a PAYLOAD word (R100). -/
  | doPayload (cls : Nibble) (ty : Byte) (a b : Half)
  deriving DecidableEq, Repr

/-- Why a word has no instruction. -/
inductive DecodeError where
  /-- An `fe` code that R94 says is never emitted. -/
  | feCodeNeverEmitted (code : FeWord)
  /-- A `do` kind that R98 says is never emitted. -/
  | doKindNeverEmitted (kind : Nibble)
  /-- Bits that are set above the width of the port's word (R70). -/
  | widerThanPort (port : Port) (bits : Nat)
  /-- A size in bits that no row of the opcode table has. -/
  | noSuchWidth (nbits : Nat)
  deriving DecidableEq, Repr

end Sys2Proof
end

