-- ==== Sys2Proof/Decode.lean ====
section
/-! DEFINITION. The decoder of every port, total on every word and rejecting by name, and after it the encoder, both
written from spec/30_encoding.md R91 to R100 and spec/opcode_table.json. -/

namespace Sys2Proof

/-! ## Codes -/

/-- The `fe` codes (R94). -/
def FeCode.code : FeCode → FeWord
  | .payloadTooLarge => 0x1
  | .dataWhileIdle => 0x2
  | .eopWhileIdle => 0x3
  | .sopWhileOpen => 0x4
  | .reservedOp => 0x5

/-- The code an `fe` word carries; none for 0x0 and 0x6 to 0xF, which are never emitted (R94). -/
def FeCode.ofCode (w : FeWord) : Option FeCode :=
  if w = 0x1 then some .payloadTooLarge
  else if w = 0x2 then some .dataWhileIdle
  else if w = 0x3 then some .eopWhileIdle
  else if w = 0x4 then some .sopWhileOpen
  else if w = 0x5 then some .reservedOp
  else none

/-- The `kind` values (R98). -/
def DoKind.code : DoKind → Nibble
  | .decoded => 0x1
  | .hdrFail => 0x2
  | .bodyFail => 0x3
  | .csumErr => 0x4
  | .payload => 0x8

/-- The kind a `kind` field names; none for 0x0, 0x5 to 0x7 and 0x9 to 0xF, which are never emitted (R98). -/
def DoKind.ofCode (w : Nibble) : Option DoKind :=
  if w = 0x1 then some .decoded
  else if w = 0x2 then some .hdrFail
  else if w = 0x3 then some .bodyFail
  else if w = 0x4 then some .csumErr
  else if w = 0x8 then some .payload
  else none

/-- The `class` values of a DECODED word (R99). -/
def PacketClass.code : PacketClass → Nibble
  | .keyboard => 0x1
  | .mouse => 0x2
  | .ledUpdate => 0x3
  | .statusText => 0x4
  | .statusRaw => 0x5
  | .ack => 0x6
  | .unrecognized => 0x7
  | .malformed => 0x8

/-- The class a `class` field names; none for 0x0 and 0x9 to 0xF, which no DECODED word carries (R99). -/
def PacketClass.ofCode (w : Nibble) : Option PacketClass :=
  if w = 0x1 then some .keyboard
  else if w = 0x2 then some .mouse
  else if w = 0x3 then some .ledUpdate
  else if w = 0x4 then some .statusText
  else if w = 0x5 then some .statusRaw
  else if w = 0x6 then some .ack
  else if w = 0x7 then some .unrecognized
  else if w = 0x8 then some .malformed
  else none

/-! ## Fields -/

/-- `fi[9:8]`, the operation (R91). -/
def fiOp (w : FiWord) : BitVec 2 := w.extractLsb' 8 2

/-- `fi[7:0]`, the data (R91). -/
def fiData (w : FiWord) : Byte := w.extractLsb' 0 8

/-- `di[8]`, the kind (R95). -/
def diKind (w : DiWord) : BitVec 1 := w.extractLsb' 8 1

/-- `di[7:0]`, the data (R95). -/
def diData (w : DiWord) : Byte := w.extractLsb' 0 8

/-- `fo[8]`, `last` (R93). -/
def foLast (w : FoWord) : Bool := w.getLsbD 8

/-- `fo[7:0]`, the wire byte (R93). -/
def foData (w : FoWord) : Byte := w.extractLsb' 0 8

/-- `do[47:44]`, `kind` (R97). -/
def doKindField (w : DoWord) : Nibble := w.extractLsb' 44 4

/-- `do[43:40]`, `class` (R97). -/
def doClassField (w : DoWord) : Nibble := w.extractLsb' 40 4

/-- `do[39:32]`, `type` (R97). -/
def doTypeField (w : DoWord) : Byte := w.extractLsb' 32 8

/-- `do[31:16]`, `A` (R97). -/
def doA (w : DoWord) : Half := w.extractLsb' 16 16

/-- `do[15:0]`, `B` (R97). -/
def doB (w : DoWord) : Half := w.extractLsb' 0 16

/-! ## The decoder -/

/-- The `fi` decoder: every one of the 1024 words spells one of the four operations (R91, R92). -/
def decodeFi (w : FiWord) : Instr :=
  if fiOp w = 0b00 then .sop (fiData w)
  else if fiOp w = 0b01 then .data (fiData w)
  else if fiOp w = 0b10 then .eop (fiData w)
  else .rsvd (fiData w)

/-- The `di` decoder: every one of the 512 words spells one of the two operations (R95, R96). -/
def decodeDi (w : DiWord) : Instr :=
  if diKind w = 0 then .byte (diData w) else .timeout (diData w)

/-- The `fo` decoder: every one of the 512 words is a wire byte (R93). -/
def decodeFo (w : FoWord) : Instr := .foByte (foLast w) (foData w)

/-- The `fe` decoder (R94). -/
def decodeFe (w : FeWord) : Except DecodeError Instr :=
  match FeCode.ofCode w with
  | some .payloadTooLarge => .ok .fePayloadTooLarge
  | some .dataWhileIdle => .ok .feDataWhileIdle
  | some .eopWhileIdle => .ok .feEopWhileIdle
  | some .sopWhileOpen => .ok .feSopWhileOpen
  | some .reservedOp => .ok .feReservedOp
  | none => .error (.feCodeNeverEmitted w)

/-- The `do` decoder: the kind alone selects the row (R98, spec/opcode_table.json). -/
def decodeDo (w : DoWord) : Except DecodeError Instr :=
  match DoKind.ofCode (doKindField w) with
  | some .decoded => .ok (.doDecoded (doClassField w) (doTypeField w) (doA w) (doB w))
  | some .hdrFail => .ok (.doHdrFail (doClassField w) (doTypeField w) (doA w) (doB w))
  | some .bodyFail => .ok (.doBodyFail (doClassField w) (doTypeField w) (doA w) (doB w))
  | some .csumErr => .ok (.doCsumErr (doClassField w) (doTypeField w) (doA w) (doB w))
  | some .payload => .ok (.doPayload (doClassField w) (doTypeField w) (doA w) (doB w))
  | none => .error (.doKindNeverEmitted (doKindField w))

/-- The decoder of any beat (R105). -/
def decode : Beat → Except DecodeError Instr
  | .fi w => .ok (decodeFi w)
  | .di w => .ok (decodeDi w)
  | .fo w => .ok (decodeFo w)
  | .fe w => decodeFe w
  | .dout w => decodeDo w

/-! ## Words from plain bits -/

/-- The width of a port's word in bits (R70). -/
def Port.width : Port → Nat
  | .fi => 10
  | .fo => 9
  | .fe => 4
  | .di => 9
  | .dout => 48

/-- The beat with the given bits on a port; a set bit above the port's width is rejected. -/
def beatOfBits (p : Port) (bits : Nat) : Except DecodeError Beat :=
  if bits < 2 ^ p.width then
    match p with
    | .fi => .ok (.fi (BitVec.ofNat 10 bits))
    | .fo => .ok (.fo (BitVec.ofNat 9 bits))
    | .fe => .ok (.fe (BitVec.ofNat 4 bits))
    | .di => .ok (.di (BitVec.ofNat 9 bits))
    | .dout => .ok (.dout (BitVec.ofNat 48 bits))
  else .error (.widerThanPort p bits)

/-- DESIGN CHOICE (log entry 2): the port a word belongs to when only its size is known. The spec tells the rows of
different ports apart by the port alone (R105): the same bits are SOP on `fi`, BYTE on `di` and FO_BYTE on `fo`. A size
of two bytes is read as a word of `fi`, the first port of the table, and the exact widths 10 and 9 as `fi` and `di`. -/
def portOfWidth (nbits : Nat) : Option Port :=
  if nbits = 10 ∨ nbits = 16 then some .fi
  else if nbits = 9 then some .di
  else if nbits = 4 ∨ nbits = 8 then some .fe
  else if nbits = 48 then some .dout
  else none

/-- The beat that a word of a known size stands for (log entry 2). -/
def tableBeat (nbits w : Nat) : Except DecodeError Beat :=
  match portOfWidth nbits with
  | some p => beatOfBits p w
  | none => .error (.noSuchWidth nbits)

/-- The instruction of a word of a known size, none where the decoder refuses it (log entry 2). -/
def decodeTableWord (nbits w : Nat) : Option Instr :=
  match tableBeat nbits w with
  | .error _ => none
  | .ok bt =>
    match decode bt with
    | .ok i => some i
    | .error _ => none

/-! ## The encoder -/

/-- `{op, data}` (R91). -/
def fiWord (op : BitVec 2) (data : Byte) : FiWord := op ++ data

/-- `{kind, data}` (R95). -/
def diWord (kind : BitVec 1) (data : Byte) : DiWord := kind ++ data

/-- `{last, byte}` (R93). -/
def foWord (last : Bool) (b : Byte) : FoWord := BitVec.ofBool last ++ b

/-- `{kind, class, type, A, B}` (R97). -/
def doWord (kind : DoKind) (cls : Nibble) (ty : Byte) (a b : Half) : DoWord :=
  kind.code ++ cls ++ ty ++ a ++ b

/-- The beat of an instruction, on the port of its row. -/
def encode : Instr → Beat
  | .sop ty => .fi (fiWord 0b00 ty)
  | .data b => .fi (fiWord 0b01 b)
  | .eop d => .fi (fiWord 0b10 d)
  | .rsvd d => .fi (fiWord 0b11 d)
  | .byte b => .di (diWord 0 b)
  | .timeout d => .di (diWord 1 d)
  | .foByte last b => .fo (foWord last b)
  | .fePayloadTooLarge => .fe FeCode.payloadTooLarge.code
  | .feDataWhileIdle => .fe FeCode.dataWhileIdle.code
  | .feEopWhileIdle => .fe FeCode.eopWhileIdle.code
  | .feSopWhileOpen => .fe FeCode.sopWhileOpen.code
  | .feReservedOp => .fe FeCode.reservedOp.code
  | .doDecoded cls ty a b => .dout (doWord .decoded cls ty a b)
  | .doHdrFail cls ty a b => .dout (doWord .hdrFail cls ty a b)
  | .doBodyFail cls ty a b => .dout (doWord .bodyFail cls ty a b)
  | .doCsumErr cls ty a b => .dout (doWord .csumErr cls ty a b)
  | .doPayload cls ty a b => .dout (doWord .payload cls ty a b)

end Sys2Proof
end

