-- ==== Sys2Proof/WellFormed.lean ====
section
/-! DEFINITION. Which instructions are words that the hardware's agents can see: every input word is legal (R92, R96),
and an output word must have the field values that PF and PD give it (spec/30_encoding.md R93, R94, R99, R100). -/

namespace Sys2Proof

/-- Whether a class can stand beside a type and a length: the conditions of R210 that do not read the payload. -/
def PacketClass.fits (c : PacketClass) (ty : Byte) (len : Nat) : Bool :=
  match c with
  | .keyboard => ty == Config.tyKeyboard && len == Config.keyboardLen
  | .mouse => ty == Config.tyMouse && decide (Config.mouseMinLen ≤ len)
  | .ledUpdate => ty == Config.tyLedUpdate
  | .statusText => ty == Config.tyStatus
  | .statusRaw => ty == Config.tyStatus
  | .ack => ty == Config.tyAck
  | .unrecognized => ty == 0x00 || decide (0x06 ≤ ty.toNat)
  | .malformed =>
      (ty == Config.tyKeyboard && !(len == Config.keyboardLen)) ||
      (ty == Config.tyMouse && decide (len < Config.mouseMinLen))

/-- Whether a class field and the type and length beside it are ones a DECODED word carries (R99, R210). -/
def classFieldFits (cls : Nibble) (ty : Byte) (len : Nat) : Bool :=
  match PacketClass.ofCode cls with
  | some c => c.fits ty len
  | none => false

/-- The check of one instruction's fields. -/
def Instr.wellFormed : Instr → Bool
  | .sop _ => true
  | .data _ => true
  | .eop _ => true
  | .rsvd _ => true
  | .byte _ => true
  | .timeout _ => true
  | .foByte _ _ => true
  | .fePayloadTooLarge => true
  | .feDataWhileIdle => true
  | .feEopWhileIdle => true
  | .feSopWhileOpen => true
  | .feReservedOp => true
  -- `A` is the payload length and `B` is 0x0000.
  | .doDecoded cls ty a b => classFieldFits cls ty a.toNat && b == 0
  -- `A` counts header bytes, 0..2, and the type is 0x00 when no type byte arrived.
  | .doHdrFail cls ty a b =>
      cls == 0 && decide (a.toNat ≤ 2) && b == 0 && (!(a == 0) || ty == 0)
  -- `B` is the actual count, 0..L.
  | .doBodyFail cls _ a b => cls == 0 && decide (b.toNat ≤ a.toNat)
  -- `B` is `computed << 8 | received`, which differ (R169).
  | .doCsumErr cls _ _ b =>
      cls == 0 && !(b.extractLsb' 8 8 == b.extractLsb' 0 8)
  -- `A` is an index of a payload of at most 65535 bytes and `B` is a zero-extended byte.
  | .doPayload cls _ a b =>
      cls == 0 && decide (a.toNat < Config.maxPayload) && decide (b.toNat < 256)

end Sys2Proof
end

