-- ==== Sys2Proof/Machine/State.lean ====
section
/-! DEFINITION. The state of PF, of PD and of the agents around them, as plain data (spec/10_state.md), the reasons a
step can stop, and the state right after reset (R50). -/

namespace Sys2Proof.Machine

/-- A payload buffer (R60): (index, byte) pairs, indices strictly rising. An unlisted index has no value, so reading it
faults, as R74 allows (log entry 4). -/
abbrev Memory := List Host.Cell

/-- `PF.mode` (R34). -/
inductive PfMode where
  /-- IDLE: no packet open. -/
  | idle
  /-- OPEN: a packet takes payload bytes. -/
  | opened
  /-- OVERFLOW: the open packet has been given more than `MAX_PAYLOAD` bytes. -/
  | overflow
  deriving DecidableEq, Repr

/-- `PD.mode` (R40); VALIDATE is entered and left inside one step and is never held. -/
inductive PdMode where
  /-- SEEK: the source's Seeking. -/
  | seek
  /-- HDR: the source's ReadingHeader. -/
  | hdr
  /-- BODY: the source's ReadingBody. -/
  | body
  deriving DecidableEq, Repr

/-- An element of `PF.outq`: one list holds the beats of both output ports (R38, R63). -/
inductive PfBeat where
  | fo (w : FoWord)
  | fe (w : FeWord)
  deriving DecidableEq, Repr

/-- The state of PF (R34 to R38). -/
structure Pf where
  mode  : PfMode
  ftype : Byte
  /-- An integer 0..65535 (R36). -/
  fcnt  : Fin 65536
  buf   : Memory
  /-- Oldest beat first. -/
  outq  : List PfBeat
  deriving DecidableEq, Repr

/-- The state of PD (R40 to R47). -/
structure Pd where
  mode  : PdMode
  /-- An integer 0..2 (R41). -/
  hcnt  : Fin 3
  dtype : Byte
  dlen  : Half
  /-- An integer 0..65535 (R44). -/
  bcnt  : Fin 65536
  csum  : Byte
  buf   : Memory
  /-- Oldest word first. -/
  outq  : List DoWord
  deriving DecidableEq, Repr

/-- One event as the event consumer treats it: its word and, for DECODED, the payload bytes that came with it (R285). -/
structure Event where
  word    : DoWord
  payload : List Byte
  deriving DecidableEq, Repr

/-- The event consumer (R20, R285, R291): the whole events it has received, oldest first, and the DECODED event whose
PAYLOAD words are still arriving (log entry 9). -/
structure Consumer where
  current : Option Event
  events  : List Event
  deriving DecidableEq, Repr

/-- Which blocks an assertion of `rst` reaches: both share one input, or a block has its own (R27). -/
inductive RstTarget where
  | shared
  | pfOnly
  | pdOnly
  deriving DecidableEq, Repr

/-- The agents whose move is one transfer or one reset (R291). -/
inductive Turn where
  /-- The PF command producer offers its oldest word on `fi`. -/
  | producer
  /-- The PF byte sink raises `fo.ready`. -/
  | byteSink
  /-- The PF error consumer raises `fe.ready`. -/
  | errorConsumer
  /-- The PD byte source offers its oldest word on `di`. -/
  | byteSource
  /-- The PD event consumer raises `do.ready`. -/
  | eventConsumer
  /-- The integrator asserts and releases `rst`. -/
  | integrator (target : RstTarget)
  deriving DecidableEq, Repr

/-- The two blocks and the agents around them (R20). -/
structure State where
  pf       : Pf
  pd       : Pd
  /-- The `fi` words the producer still has to offer, oldest first. -/
  producer : List FiWord
  /-- The `di` words the byte source still has to offer, oldest first. -/
  source   : List DiWord
  /-- The `fo` words the byte sink has taken, oldest first. -/
  foTaken  : List FoWord
  /-- The `fe` words the error consumer has taken, oldest first. -/
  feTaken  : List FeWord
  /-- The `do` words the event consumer has taken, oldest first. -/
  doTaken  : List DoWord
  consumer : Consumer
  /-- Which agent moves next: the model's own field for the interleaving R293 leaves open (log entry 3). -/
  turns    : List Turn
  deriving DecidableEq, Repr

/-- Why the model stops where the spec gives no rule. No state that meets the invariants R39, R48 and R74 reaches one
of these (R120, R160: no step faults). -/
inductive Fault where
  /-- Raised by EOP and by the checksum BYTE when they read a buffer index nothing has written; safe (log entry 4). -/
  | bufUnwritten (index : Nat)
  /-- Raised by a buffer access at an index past 65534, which R60 says does not exist; safe (log entry 4). -/
  | bufIndex (index : Nat)
  /-- Raised by BYTE in BODY when `bcnt` exceeds `dlen`, for which R160 has no row; safe (log entry 5). -/
  | bodyCount
  deriving DecidableEq, Repr

/-- Why the model gives no meaning. -/
inductive Refusal where
  /-- Raised by `exec` for an instruction without a meaning; safe. -/
  | notModelled (mnemonic : String)
  /-- Raised by `step` when the beat at the head of an output queue is a word that is never emitted (R94, R98, and I9
  of 93_implementation_defined.md); safe (log entry 10). -/
  | neverEmitted (why : DecodeError)
  deriving DecidableEq, Repr

/-- PF after reset (R50, R280). -/
def Pf.reset : Pf :=
  { mode := .idle, ftype := 0x00, fcnt := 0, buf := [], outq := [] }

/-- PD after reset (R50, R281). -/
def Pd.reset : Pd :=
  { mode := .seek, hcnt := 0, dtype := 0x00, dlen := 0x0000, bcnt := 0, csum := 0x00, buf := [], outq := [] }

/-- The state after `rst` is released, with agents that have not moved yet (R50; log entry 6 for the agents). -/
def State.reset : State :=
  { pf := Pf.reset, pd := Pd.reset, producer := [], source := [], foTaken := [], feTaken := [], doTaken := [],
    consumer := { current := none, events := [] }, turns := [] }

end Sys2Proof.Machine
end

