-- ==== Sys2Proof/Machine/Flags.lean ====
section
/-! DEFINITION. The computed one-bit conditions and the checksum. There are no condition codes (spec/10_state.md R32):
what plays their part is the XOR checksum (spec/30_encoding.md R85), the OVERFLOW test, and the handshake signals
(R29). -/

namespace Sys2Proof.Machine

/-- `XOR(p)`, with `XOR([])` = 0x00 (R12). -/
def xorBytes : List Byte → Byte
  | [] => 0x00
  | b :: bs => b ^^^ xorBytes bs

/-- `PF.mode` = OVERFLOW, the only flag-like state (R32). -/
def Pf.overflowed (pf : Pf) : Bool := pf.mode == .overflow

/-- `fi.ready`: PF's `outq` is empty (R29). -/
def State.fiReady (s : State) : Bool := s.pf.outq.isEmpty

/-- `di.ready`: PD's `outq` is empty (R29). -/
def State.diReady (s : State) : Bool := s.pd.outq.isEmpty

/-- `fo.valid`: the oldest beat of PF's `outq` is an `fo` beat (R29, R63). -/
def State.foValid (s : State) : Bool :=
  match s.pf.outq with
  | .fo _ :: _ => true
  | .fe _ :: _ => false
  | [] => false

/-- `fe.valid`: the oldest beat of PF's `outq` is an `fe` beat (R29, R63). -/
def State.feValid (s : State) : Bool :=
  match s.pf.outq with
  | .fe _ :: _ => true
  | .fo _ :: _ => false
  | [] => false

/-- `do.valid`: PD's `outq` is not empty (R29). -/
def State.doValid (s : State) : Bool := !s.pd.outq.isEmpty

end Sys2Proof.Machine
end

