-- ==== Sys2Proof/Machine/Operands.lean ====
section
/-! DEFINITION. The parts of a packet and the fields computed from them: the length bytes (spec/30_encoding.md R83), the
packet and the `frame` function (R80, spec/40_framer.md R131), the source's Encoder (R133), the `do` words (R100). -/

namespace Sys2Proof.Machine

/-- `lo(L)` = `L[7:0]` (R12). -/
def lo (len : Half) : Byte := len.extractLsb' 0 8

/-- `hi(L)` = `L[15:8]` (R12). -/
def hi (len : Half) : Byte := len.extractLsb' 8 8

/-- `zext_16(v)` (R11). -/
def zext16 (b : Byte) : Half := b.zeroExtend 16

/-- The high length byte joined to the low one: `dlen | (zext_16(b) << 8)` (R83, R166). -/
def joinHi (len : Half) (b : Byte) : Half := len ||| (zext16 b <<< 8)

/-- `computed << 8 | received` (R100). -/
def checksumPair (computed received : Byte) : Half := (zext16 computed <<< 8) ||| zext16 received

/-- `sext_8(v)`: the byte read as two's complement (R11). -/
def sext8 (b : Byte) : Int := if b.toNat < 128 then (b.toNat : Int) else (b.toNat : Int) - 256

/-- The length field of a payload of at most 65535 bytes (R83, R131). The spec gives a longer payload no length field; the
value here, its length modulo 65536, is then read by no operation of the machine: PF counts to 65535 (R125) and the
`packet` pseudo-operation stops before it (log entry 17). -/
def lengthField (p : List Byte) : Half := BitVec.ofNat 16 p.length

/-- `h = [0xAA, t, L[7:0], L[15:8]]` (R131). -/
def header (t : Byte) (len : Half) : List Byte := [Config.start, t, lo len, hi len]

/-- The checksum byte of a packet: the XOR of the header and the payload (R85). -/
def packetChecksum (t : Byte) (p : List Byte) : Byte := xorBytes (header t (lengthField p) ++ p)

/-- The bytes of a packet (R80), for a payload of at most 65535 bytes (R131, log entry 17). -/
def packetBytes (t : Byte) (p : List Byte) : List Byte :=
  header t (lengthField p) ++ p ++ [packetChecksum t p]

/-- `frame(t, p)`: the packet's bytes, `last` set on the checksum byte alone (R131). -/
def frame (t : Byte) (p : List Byte) : List (Byte × Bool) :=
  (header t (lengthField p) ++ p).map (fun b => (b, false)) ++ [(packetChecksum t p, true)]

/-- The `fo` beats of a packet (R93, R128). -/
def frameBeats (t : Byte) (p : List Byte) : List PfBeat :=
  (frame t p).map (fun bl => .fo (foWord bl.2 bl.1))

/-- The source's Encoder as a function: the packet's bytes, or `PayloadTooLarge` (R133). -/
def encoder (t : Byte) (p : List Byte) : Except FeCode (List Byte) :=
  if p.length ≤ Config.maxPayload then .ok (packetBytes t p) else .error .payloadTooLarge

/-- A byte list is a well-formed packet: start marker, length and checksum agree with the bytes (R80, R86). -/
def isPacket (bytes : List Byte) : Bool :=
  match bytes with
  | start :: t :: l0 :: l1 :: rest =>
      start == Config.start &&
      rest.length == (joinHi (zext16 l0) l1).toNat + 1 &&
      xorBytes (start :: t :: l0 :: l1 :: rest) == 0x00
  | [] => false
  | [_] => false
  | [_, _] => false
  | [_, _, _] => false

/-- The PAYLOAD words of a payload from index `i` on, index in `A` and byte in `B` (R100, R168). -/
def payloadWords (t : Byte) : Nat → List Byte → List DoWord
  | _, [] => []
  | i, b :: bs => doWord .payload 0 t (BitVec.ofNat 16 i) (zext16 b) :: payloadWords t (i + 1) bs

end Sys2Proof.Machine
end

