-- ==== Sys2Proof/Machine/Classify.lean ====
section
/-! DEFINITION. PD's payload dispatch (spec/42_dispatch.md section 1) and the definition of valid UTF-8 it rests on
(R227). Dispatch chooses the class of a DECODED word and changes nothing else (R210, R228). -/

namespace Sys2Proof.Machine

/-- A row of the table of R227: the first byte's range and the ranges of the bytes that must follow it. -/
structure Utf8Row where
  first : Nat × Nat
  rest  : List (Nat × Nat)
  deriving DecidableEq, Repr

/-- Whether a byte lies in an inclusive range. -/
def inRange (r : Nat × Nat) (b : Byte) : Bool := decide (r.1 ≤ b.toNat) && decide (b.toNat ≤ r.2)

/-- The nine rows of R227. -/
def utf8Rows : List Utf8Row :=
  [ ⟨(0x00, 0x7F), []⟩,
    ⟨(0xC2, 0xDF), [(0x80, 0xBF)]⟩,
    ⟨(0xE0, 0xE0), [(0xA0, 0xBF), (0x80, 0xBF)]⟩,
    ⟨(0xE1, 0xEC), [(0x80, 0xBF), (0x80, 0xBF)]⟩,
    ⟨(0xED, 0xED), [(0x80, 0x9F), (0x80, 0xBF)]⟩,
    ⟨(0xEE, 0xEF), [(0x80, 0xBF), (0x80, 0xBF)]⟩,
    ⟨(0xF0, 0xF0), [(0x90, 0xBF), (0x80, 0xBF), (0x80, 0xBF)]⟩,
    ⟨(0xF1, 0xF3), [(0x80, 0xBF), (0x80, 0xBF), (0x80, 0xBF)]⟩,
    ⟨(0xF4, 0xF4), [(0x80, 0x8F), (0x80, 0xBF), (0x80, 0xBF)]⟩ ]

/-- The row whose first-byte range holds a byte; the ranges are disjoint. -/
def utf8Row (b : Byte) : Option Utf8Row := utf8Rows.find? (fun r => inRange r.first b)

/-- The bytes read left to right, with the ranges the current sequence still asks for. -/
def utf8Scan : List (Nat × Nat) → List Byte → Bool
  | pending, [] => pending.isEmpty
  | [], b :: bs =>
    match utf8Row b with
    | some r => utf8Scan r.rest bs
    | none => false
  | r :: rs, b :: bs => inRange r b && utf8Scan rs bs

/-- `utf8_valid(p)` (R227). -/
def utf8Valid (p : List Byte) : Bool := utf8Scan [] p

/-- `classify(t, p)`: the first row of R210 that applies. -/
def classify (t : Byte) (p : List Byte) : PacketClass :=
  if t = Config.tyKeyboard then (if p.length = Config.keyboardLen then .keyboard else .malformed)
  else if t = Config.tyMouse then (if Config.mouseMinLen ≤ p.length then .mouse else .malformed)
  else if t = Config.tyLedUpdate then .ledUpdate
  else if t = Config.tyStatus then (if utf8Valid p then .statusText else .statusRaw)
  else if t = Config.tyAck then .ack
  else .unrecognized

end Sys2Proof.Machine
end

