-- ==== Sys2Proof/Machine/Interpret.lean ====
section
/-! DEFINITION. What the payload bytes of each class mean (spec/42_dispatch.md section 3). PD emits the raw bytes; a
consumer applies these functions to them (R210, R229, spec/92_eei_decisions.md D18). -/

namespace Sys2Proof.Machine

/-- The modifier names of R220. -/
inductive Modifier where
  | lctrl | lshift | lalt | lgui | rctrl | rshift | ralt | rgui
  deriving DecidableEq, Repr

/-- The button names of R223. -/
inductive Button where
  | left | right | middle
  deriving DecidableEq, Repr

/-- The bit value of a modifier (R220). -/
def Modifier.bit : Modifier → Byte
  | .lctrl => 0x01
  | .lshift => 0x02
  | .lalt => 0x04
  | .lgui => 0x08
  | .rctrl => 0x10
  | .rshift => 0x20
  | .ralt => 0x40
  | .rgui => 0x80

/-- The bit value of a button (R223). -/
def Button.bit : Button → Byte
  | .left => 0x01
  | .right => 0x02
  | .middle => 0x04

/-- The eight modifiers, in the order of R220. -/
def allModifiers : List Modifier := [.lctrl, .lshift, .lalt, .lgui, .rctrl, .rshift, .ralt, .rgui]

/-- The three buttons, in the order of R223. -/
def allButtons : List Button := [.left, .right, .middle]

/-- The modifier names whose bit is set in a byte, as a list without repeats (R220, log entry 14). -/
def modifiersOf (b : Byte) : List Modifier := allModifiers.filter (fun m => !(b &&& m.bit == 0x00))

/-- The button names whose bit is set in a byte; bits 3 to 7 name none (R223). -/
def buttonsOf (b : Byte) : List Button := allButtons.filter (fun m => !(b &&& m.bit == 0x00))

/-- A list without its repeats, each element kept where it is met last. -/
def dropRepeats : List Byte → List Byte
  | [] => []
  | b :: bs => if b ∈ bs then dropRepeats bs else b :: dropRepeats bs

/-- `modifiers(p)`, read from `p[0]` (R220); none for a payload without that byte. -/
def modifiers (p : List Byte) : Option (List Modifier) := (p[0]?).map modifiersOf

/-- `key_slots(p)` = `[p[2], …, p[7]]` (R222); none for a payload without those bytes. -/
def keySlots : List Byte → Option (List Byte)
  | _ :: _ :: k2 :: k3 :: k4 :: k5 :: k6 :: k7 :: _ => some [k2, k3, k4, k5, k6, k7]
  | _ => none

/-- `keys(p)`: the slots' bytes that are not 0x00, as a list without repeats (R222, log entry 14). -/
def keys (p : List Byte) : Option (List Byte) :=
  (keySlots p).map (fun slots => dropRepeats (slots.filter (fun b => !(b == 0x00))))

/-- `buttons(p)`, read from `p[0]` (R223); none for a payload without that byte. -/
def buttons (p : List Byte) : Option (List Button) := (p[0]?).map buttonsOf

/-- `dx(p)`, read from `p[1]` (R224); none for a payload without that byte. -/
def dx (p : List Byte) : Option Int := (p[1]?).map sext8

/-- `dy(p)`, read from `p[2]` (R224); none for a payload without that byte. -/
def dy (p : List Byte) : Option Int := (p[2]?).map sext8

/-- The payload bits of a UTF-8 first byte, by how many bytes follow it (log entry 12). -/
def utf8FirstBits (b : Byte) : Nat → Nat
  | 0 => b.toNat
  | 1 => b.toNat % 32
  | 2 => b.toNat % 16
  | _ => b.toNat % 8

/-- The scalar values read left to right: the ranges still asked for and the value collected so far; none where the
bytes are not valid UTF-8. -/
def utf8Scalars : List (Nat × Nat) → Nat → List Byte → Option (List Nat)
  | pending, _, [] => if pending.isEmpty then some [] else none
  | [], _, b :: bs =>
    match utf8Row b with
    | none => none
    | some r =>
      match r.rest with
      | [] => (utf8Scalars [] 0 bs).map (fun vs => b.toNat :: vs)
      | q :: qs => utf8Scalars (q :: qs) (utf8FirstBits b (qs.length + 1)) bs
  | [r], acc, b :: bs =>
    if inRange r b then (utf8Scalars [] 0 bs).map (fun vs => (acc * 64 + b.toNat % 64) :: vs) else none
  | r :: q :: qs, acc, b :: bs =>
    if inRange r b then utf8Scalars (q :: qs) (acc * 64 + b.toNat % 64) bs else none

/-- `text(p)`: the Unicode scalar values a STATUS_TEXT payload encodes; none for bytes that are not valid UTF-8 (R226,
log entry 12). -/
def text (p : List Byte) : Option (List Nat) := utf8Scalars [] 0 p

/-- What an event's payload means to a consumer (R220 to R226, R229). -/
inductive Interpretation where
  | keyboard (mods : List Modifier) (slots : List Byte) (keys : List Byte)
  | mouse (buttons : List Button) (dx dy : Int)
  | statusText (scalars : List Nat)
  /-- STATUS_RAW, LED_UPDATE, ACK, UNRECOGNIZED and MALFORMED: the bytes are the value surfaced. -/
  | raw (bytes : List Byte)
  deriving DecidableEq, Repr

/-- The meaning of a payload of a class; none where the payload has not the bytes the class's fields are read from,
which `classify` rules out (R210 to R219, R220 to R226, R229). -/
def interpret (c : PacketClass) (p : List Byte) : Option Interpretation :=
  match c with
  | .keyboard =>
    match modifiers p, keySlots p, keys p with
    | some m, some sl, some k => some (.keyboard m sl k)
    | _, _, _ => none
  | .mouse =>
    match buttons p, dx p, dy p with
    | some b, some x, some y => some (.mouse b x y)
    | _, _, _ => none
  | .statusText => (text p).map .statusText
  | .statusRaw => some (.raw p)
  | .ledUpdate => some (.raw p)
  | .ack => some (.raw p)
  | .unrecognized => some (.raw p)
  | .malformed => some (.raw p)

/-- The meaning of an event the consumer holds: only a DECODED word has one (R98, R99). -/
def Event.meaning (e : Event) : Option Interpretation :=
  match DoKind.ofCode (doKindField e.word), PacketClass.ofCode (doClassField e.word) with
  | some .decoded, some c => interpret c e.payload
  | _, _ => none

end Sys2Proof.Machine
end

