-- ==== Sys2Proof/Machine/Ops.lean ====
section
/-! DEFINITION. The named operations over the buffers, the registers and the queues: buffer access, emitting beats,
raising an error, taking an input beat, delivering an output beat, and reset. Every meaning is written over these.

Raising an error is the spec's only exception (spec/60_exceptions.md R250): one beat is emitted, nothing is saved, no
handler runs, and there is no return (R264); the state change beside it is the rule's own. -/

namespace Sys2Proof.Machine

/-! ## Buffers (R60, R74) -/

/-- The byte listed at an index, if any. -/
def Memory.read : Memory → Nat → Option Byte
  | [], _ => none
  | (i, v) :: rest, a => if a = i then some v else Memory.read rest a

/-- The buffer with one byte stored, the list kept in rising order. -/
def Memory.write : Memory → Nat → Byte → Memory
  | [], a, v => [(a, v)]
  | (i, u) :: rest, a, v =>
    if a < i then (a, v) :: (i, u) :: rest
    else if a = i then (a, v) :: rest
    else (i, u) :: Memory.write rest a v

/-- The canonical form: indices strictly rising and inside the buffer (R60). -/
abbrev Memory.wf (m : Memory) : Prop :=
  m.Pairwise (fun c d => c.1 < d.1) ∧ ∀ c ∈ m, c.1 < Config.bufBytes

/-- `MemRead(i, 1)` (R60). -/
def memRead (m : Memory) (i : Nat) : Except Fault Byte :=
  if i < Config.bufBytes then
    match m.read i with
    | some v => .ok v
    | none => .error (.bufUnwritten i)
  else .error (.bufIndex i)

/-- `MemWrite(i, 1, v)` (R60). -/
def memWrite (m : Memory) (i : Nat) (v : Byte) : Except Fault Memory :=
  if i < Config.bufBytes then .ok (m.write i v) else .error (.bufIndex i)

/-- `MemRead` of `n` indices from `i` on, in index order; the first that faults is the fault. -/
def readRange (m : Memory) : Nat → Nat → Except Fault (List Byte)
  | _, 0 => .ok []
  | i, n + 1 =>
    match memRead m i with
    | .error f => .error f
    | .ok b =>
      match readRange m (i + 1) n with
      | .error f => .error f
      | .ok bs => .ok (b :: bs)

/-! ## PF -/

/-- `emit` on PF's ports: the beats join `outq` in order (R13, R38, R62). -/
def Pf.emit (pf : Pf) (beats : List PfBeat) : Pf := { pf with outq := pf.outq ++ beats }

/-- `raise E`: one `fe` beat (R13, R250). -/
def Pf.raise (pf : Pf) (c : FeCode) : Pf := pf.emit [.fe c.code]

/-- `mode <- OPEN; ftype <- d; fcnt <- 0` (R121, R122). -/
def Pf.openPacket (pf : Pf) (d : Byte) : Pf := { pf with mode := .opened, ftype := d, fcnt := 0 }

/-- `mode <- IDLE; ftype <- 0x00; fcnt <- 0` (R128, R129). -/
def Pf.closePacket (pf : Pf) : Pf := { pf with mode := .idle, ftype := 0x00, fcnt := 0 }

/-- `MemWrite(fcnt, 1, d); fcnt <- fcnt + 1`, or `mode <- OVERFLOW` when the buffer is full (R124, R125). -/
def Pf.append (pf : Pf) (d : Byte) : Except Fault Pf :=
  if h : pf.fcnt.val < Config.maxPayload then
    match memWrite pf.buf pf.fcnt.val d with
    | .error f => .error f
    | .ok m => .ok { pf with buf := m, fcnt := ⟨pf.fcnt.val + 1, Nat.succ_lt_succ h⟩ }
  else .ok { pf with mode := .overflow }

/-- Emit `frame(ftype, buf[0..fcnt))` and close the packet (R128, R131). -/
def Pf.emitPacket (pf : Pf) : Except Fault Pf :=
  match readRange pf.buf 0 pf.fcnt.val with
  | .error f => .error f
  | .ok p => .ok (pf.emit (frameBeats pf.ftype p)).closePacket

/-! ## PD -/

/-- `emit` on `do`: the words join `outq` in order (R13, R47, R62). -/
def Pd.emit (pd : Pd) (ws : List DoWord) : Pd := { pd with outq := pd.outq ++ ws }

/-- The return to SEEK: `mode <- SEEK` and every register of R40 to R45 cleared (R168 to R171). -/
def Pd.toSeek (pd : Pd) : Pd :=
  { pd with mode := .seek, hcnt := 0, dtype := 0x00, dlen := 0x0000, bcnt := 0, csum := 0x00 }

/-- `raise E(info)`: one `do` word, and the return to SEEK that every PD error makes (R250, R263). -/
def Pd.fail (pd : Pd) (w : DoWord) : Pd := (pd.emit [w]).toSeek

/-- A start marker is taken (R162). -/
def Pd.startPacket (pd : Pd) : Pd := { pd with mode := .hdr, hcnt := 0, csum := Config.start }

/-- The type byte (R164). -/
def Pd.takeType (pd : Pd) (b : Byte) : Pd := { pd with dtype := b, csum := pd.csum ^^^ b, hcnt := 1 }

/-- The low length byte (R165). -/
def Pd.takeLenLo (pd : Pd) (b : Byte) : Pd := { pd with dlen := zext16 b, csum := pd.csum ^^^ b, hcnt := 2 }

/-- The high length byte; the header is complete (R166). -/
def Pd.takeLenHi (pd : Pd) (b : Byte) : Pd :=
  { pd with dlen := joinHi pd.dlen b, csum := pd.csum ^^^ b, hcnt := 0, bcnt := 0, mode := .body }

/-- A payload byte: `MemWrite(bcnt, 1, b); csum <- csum ^ b; bcnt <- bcnt + 1` (R167). -/
def Pd.takePayload (pd : Pd) (b : Byte) (h : pd.bcnt.val < pd.dlen.toNat) : Except Fault Pd :=
  match memWrite pd.buf pd.bcnt.val b with
  | .error f => .error f
  | .ok m =>
    .ok { pd with buf := m, csum := pd.csum ^^^ b,
                  bcnt := ⟨pd.bcnt.val + 1, Nat.lt_of_le_of_lt h pd.dlen.isLt⟩ }

/-- The DECODED word and the PAYLOAD words of a matched packet (R100, R168). -/
def decodedWords (t : Byte) (len : Half) (p : List Byte) : List DoWord :=
  doWord .decoded (classify t p).code t len 0x0000 :: payloadWords t 0 p

/-- VALIDATE: the checksum byte is compared with the running XOR (R168, R169). -/
def Pd.validate (pd : Pd) (b : Byte) : Except Fault Pd :=
  if b = pd.csum then
    match readRange pd.buf 0 pd.dlen.toNat with
    | .error f => .error f
    | .ok p => .ok (pd.emit (decodedWords pd.dtype pd.dlen p)).toSeek
  else .ok (pd.fail (doWord .csumErr 0 pd.dtype pd.dlen (checksumPair pd.csum b)))

/-! ## Taking an input beat (R28, R29) -/

/-- PF takes a beat by the given rule when `fi.ready` is 1; otherwise no transfer happens and nothing changes, and the
producer goes on holding the beat (R28, R29; log entry 8). -/
def acceptPf (rule : Pf → Except Fault Pf) (s : State) : Host.Outcome State Fault Refusal :=
  if s.fiReady then
    match rule s.pf with
    | .ok pf => .next { s with pf := pf }
    | .error f => .fault f
  else .next s

/-- PD takes a beat by the given rule when `di.ready` is 1; otherwise no transfer happens (R28, R29; log entry 8). -/
def acceptPd (rule : Pd → Except Fault Pd) (s : State) : Host.Outcome State Fault Refusal :=
  if s.diReady then
    match rule s.pd with
    | .ok pd => .next { s with pd := pd }
    | .error f => .fault f
  else .next s

/-! ## Delivering an output beat (R28, R62, R71) -/

/-- The byte sink takes an `fo` word: it leaves `outq` and nothing else of the block changes (R71). A word that is not
the one offered does not transfer (R28; log entry 8). -/
def deliverFo (w : FoWord) (s : State) : Host.Outcome State Fault Refusal :=
  if s.pf.outq.head? = some (.fo w) then
    .next { s with pf := { s.pf with outq := s.pf.outq.tail }, foTaken := s.foTaken ++ [w] }
  else .next s

/-- The error consumer takes an `fe` word (R71; log entry 8). -/
def deliverFe (w : FeWord) (s : State) : Host.Outcome State Fault Refusal :=
  if s.pf.outq.head? = some (.fe w) then
    .next { s with pf := { s.pf with outq := s.pf.outq.tail }, feTaken := s.feTaken ++ [w] }
  else .next s

/-- The event consumer takes a `do` word and files it by the given rule (R71, R285; log entries 8 and 9). -/
def deliverDo (w : DoWord) (file : Consumer → Consumer) (s : State) : Host.Outcome State Fault Refusal :=
  if s.pd.outq.head? = some w then
    .next { s with pd := { s.pd with outq := s.pd.outq.tail }, doTaken := s.doTaken ++ [w],
                   consumer := file s.consumer }
  else .next s

/-- An event that needs no further word is whole. -/
def Consumer.finish (c : Consumer) (e : Event) : Consumer := { current := none, events := c.events ++ [e] }

/-- A DECODED word opens an event of `A` payload bytes; with `A` = 0 it is whole at once (R25, R101). -/
def Consumer.openEvent (c : Consumer) (w : DoWord) : Consumer :=
  if doA w = 0 then c.finish ⟨w, []⟩ else { c with current := some ⟨w, []⟩ }

/-- A PAYLOAD word brings the next byte of the open event, which is whole after its `A`-th byte (R101). Without an open
event the word is filed nowhere (log entry 9). -/
def Consumer.addPayload (c : Consumer) (b : Byte) : Consumer :=
  match c.current with
  | none => c
  | some e =>
    if e.payload.length + 1 = (doA e.word).toNat then c.finish ⟨e.word, e.payload ++ [b]⟩
    else { c with current := some ⟨e.word, e.payload ++ [b]⟩ }

/-- On reset the consumer discards a partly received event (R281, R285). -/
def Consumer.dropPartial (c : Consumer) : Consumer := { c with current := none }

/-! ## Reset (R280 to R282) -/

/-- `rst` at PF (R280). -/
def resetPf (s : State) : State := { s with pf := Pf.reset }

/-- `rst` at PD, and what its event consumer does on it (R281, R285). -/
def resetPd (s : State) : State := { s with pd := Pd.reset, consumer := s.consumer.dropPartial }

/-- One atomic reset step of the blocks an assertion of `rst` reaches (R27, R282; log entry 11). -/
def resetBlocks (t : RstTarget) (s : State) : State :=
  match t with
  | .shared => resetPd (resetPf s)
  | .pfOnly => resetPf s
  | .pdOnly => resetPd s

end Sys2Proof.Machine
end

