-- ==== Sys2Proof/Machine/Agents.lean ====
section
/-! DEFINITION. What each agent's move fetches (spec/70_reset_and_hazards.md R291, spec/10_state.md R28, R29): the beat
that transfers, a reset, or nothing. It stands where an instruction fetch stands on other hardware (R31, R73). -/

namespace Sys2Proof.Machine

/-- What a move brings to the step. -/
inductive Fetched where
  /-- No transfer happens. -/
  | idle
  /-- The beat that transfers, and the state in which it is taken. -/
  | beat (b : Beat) (s : State)
  /-- `rst` is asserted and released. -/
  | rst (target : RstTarget)
  deriving DecidableEq, Repr

/-- The producer's oldest word transfers when `fi.ready` is 1; otherwise it stays offered, unchanged (R28, R29). -/
def fetchProducer (s : State) : Fetched :=
  match s.producer with
  | [] => .idle
  | w :: ws => if s.fiReady then .beat (.fi w) { s with producer := ws } else .idle

/-- The byte source's oldest word transfers when `di.ready` is 1; otherwise it stays offered, unchanged (R28, R29). DESIGN
CHOICE (log entry 18): the transport buffers every byte that arrives while `di.ready` is 0, which R286 and I15 of
93_implementation_defined.md leave to the transport; a byte that a transport loses is one that `source` does not hold. -/
def fetchSource (s : State) : Fetched :=
  match s.source with
  | [] => .idle
  | w :: ws => if s.diReady then .beat (.di w) { s with source := ws } else .idle

/-- The byte sink takes the oldest beat of PF's `outq` when that is an `fo` beat (R63). -/
def fetchFo (s : State) : Fetched :=
  match s.pf.outq with
  | .fo w :: _ => .beat (.fo w) s
  | .fe _ :: _ => .idle
  | [] => .idle

/-- The error consumer takes the oldest beat of PF's `outq` when that is an `fe` beat (R63). -/
def fetchFe (s : State) : Fetched :=
  match s.pf.outq with
  | .fe w :: _ => .beat (.fe w) s
  | .fo _ :: _ => .idle
  | [] => .idle

/-- The event consumer takes the oldest word of PD's `outq` (R29). -/
def fetchDo (s : State) : Fetched :=
  match s.pd.outq with
  | w :: _ => .beat (.dout w) s
  | [] => .idle

/-- The move of one agent. -/
def fetch (t : Turn) (s : State) : Fetched :=
  match t with
  | .producer => fetchProducer s
  | .byteSource => fetchSource s
  | .byteSink => fetchFo s
  | .errorConsumer => fetchFe s
  | .eventConsumer => fetchDo s
  | .integrator target => .rst target

/-- The state in which a beat is the next to transfer: it is placed where its agent's move fetches it, that move is the
next, and a block that must be ready for it has an empty `outq` (R29; log entry 1). -/
def placeBeat (s : State) (b : Beat) : State :=
  match b with
  | .fi w => { s with producer := w :: s.producer, turns := .producer :: s.turns, pf := { s.pf with outq := [] } }
  | .di w => { s with source := w :: s.source, turns := .byteSource :: s.turns, pd := { s.pd with outq := [] } }
  | .fo w => { s with turns := .byteSink :: s.turns, pf := { s.pf with outq := .fo w :: s.pf.outq } }
  | .fe w => { s with turns := .errorConsumer :: s.turns, pf := { s.pf with outq := .fe w :: s.pf.outq } }
  | .dout w => { s with turns := .eventConsumer :: s.turns, pd := { s.pd with outq := w :: s.pd.outq } }

/-- The state in which the word of a known size is the next to transfer (log entries 1 and 2); a word that fits no port
is placed nowhere. -/
def placeWord (s : State) (nbits w : Nat) : State :=
  match tableBeat nbits w with
  | .ok b => placeBeat s b
  | .error _ => s

end Sys2Proof.Machine
end

