-- ==== Sys2Proof/Machine/Deframer.lean ====
section
/-! DEFINITION. The meanings of PD's two input operations (spec/41_deframer.md R160 to R171). -/

namespace Sys2Proof.Machine

/-- BYTE in SEEK (R161, R162). -/
def Pd.byteSeek (b : Byte) (pd : Pd) : Pd := if b = Config.start then pd.startPacket else pd

/-- BYTE in HDR, by the header bytes taken so far (R164 to R166). -/
def Pd.byteHdr (b : Byte) (pd : Pd) : Pd :=
  match pd.hcnt with
  | 0 => pd.takeType b
  | 1 => pd.takeLenLo b
  | 2 => pd.takeLenHi b

/-- BYTE in BODY: a payload byte or the checksum byte (R167 to R169). R160 has no row for `bcnt` above `dlen`, which
R44 rules out (log entry 5). -/
def Pd.byteBody (b : Byte) (pd : Pd) : Except Fault Pd :=
  if h : pd.bcnt.val < pd.dlen.toNat then pd.takePayload b h
  else if pd.bcnt.val = pd.dlen.toNat then pd.validate b
  else .error .bodyCount

/-- BYTE by mode (R160). -/
def Pd.byte (b : Byte) (pd : Pd) : Except Fault Pd :=
  match pd.mode with
  | .seek => .ok (pd.byteSeek b)
  | .hdr => .ok (pd.byteHdr b)
  | .body => pd.byteBody b

/-- TIMEOUT by mode (R163, R170, R171). -/
def Pd.timeout (pd : Pd) : Except Fault Pd :=
  match pd.mode with
  | .seek => .ok pd
  | .hdr => .ok (pd.fail (doWord .hdrFail 0 pd.dtype (BitVec.ofNat 16 pd.hcnt.val) 0x0000))
  | .body => .ok (pd.fail (doWord .bodyFail 0 pd.dtype pd.dlen (BitVec.ofNat 16 pd.bcnt.val)))

/-- BYTE (R160 to R162, R164 to R169). -/
def execByte (b : Byte) (s : State) : Host.Outcome State Fault Refusal := acceptPd (Pd.byte b) s

/-- TIMEOUT; the data field is ignored (R96, R163, R170, R171). -/
def execTimeout (s : State) : Host.Outcome State Fault Refusal := acceptPd Pd.timeout s

end Sys2Proof.Machine
end

