-- ==== Sys2Proof/Machine/Delivery.lean ====
section
/-! DEFINITION. The meanings of the output rows of the opcode table: a consumer takes the beat a block offers (spec/
10_state.md R28, R29; spec/20_memory.md R62, R71; log entry 7). -/

namespace Sys2Proof.Machine

/-- FO_BYTE (R93). -/
def execFoByte (last : Bool) (b : Byte) (s : State) : Host.Outcome State Fault Refusal :=
  deliverFo (foWord last b) s

/-- FE_PAYLOAD_TOO_LARGE (R94). -/
def execFePayloadTooLarge (s : State) : Host.Outcome State Fault Refusal :=
  deliverFe FeCode.payloadTooLarge.code s

/-- FE_DATA_WHILE_IDLE (R94). -/
def execFeDataWhileIdle (s : State) : Host.Outcome State Fault Refusal :=
  deliverFe FeCode.dataWhileIdle.code s

/-- FE_EOP_WHILE_IDLE (R94). -/
def execFeEopWhileIdle (s : State) : Host.Outcome State Fault Refusal :=
  deliverFe FeCode.eopWhileIdle.code s

/-- FE_SOP_WHILE_OPEN (R94). -/
def execFeSopWhileOpen (s : State) : Host.Outcome State Fault Refusal :=
  deliverFe FeCode.sopWhileOpen.code s

/-- FE_RESERVED_OP (R94). -/
def execFeReservedOp (s : State) : Host.Outcome State Fault Refusal :=
  deliverFe FeCode.reservedOp.code s

/-- DO_DECODED: the word opens an event (R98, R100, R285). -/
def execDoDecoded (cls : Nibble) (ty : Byte) (a b : Half) (s : State) : Host.Outcome State Fault Refusal :=
  deliverDo (doWord .decoded cls ty a b) (fun c => c.openEvent (doWord .decoded cls ty a b)) s

/-- DO_HDR_FAIL: the word is a whole event (R98, R100). -/
def execDoHdrFail (cls : Nibble) (ty : Byte) (a b : Half) (s : State) : Host.Outcome State Fault Refusal :=
  deliverDo (doWord .hdrFail cls ty a b) (fun c => c.finish ⟨doWord .hdrFail cls ty a b, []⟩) s

/-- DO_BODY_FAIL: the word is a whole event (R98, R100). -/
def execDoBodyFail (cls : Nibble) (ty : Byte) (a b : Half) (s : State) : Host.Outcome State Fault Refusal :=
  deliverDo (doWord .bodyFail cls ty a b) (fun c => c.finish ⟨doWord .bodyFail cls ty a b, []⟩) s

/-- DO_CSUM_ERR: the word is a whole event (R98, R100). -/
def execDoCsumErr (cls : Nibble) (ty : Byte) (a b : Half) (s : State) : Host.Outcome State Fault Refusal :=
  deliverDo (doWord .csumErr cls ty a b) (fun c => c.finish ⟨doWord .csumErr cls ty a b, []⟩) s

/-- DO_PAYLOAD: the word brings one byte of the open event, `B[7:0]` (R98, R100, R285). -/
def execDoPayload (cls : Nibble) (ty : Byte) (a b : Half) (s : State) : Host.Outcome State Fault Refusal :=
  deliverDo (doWord .payload cls ty a b) (fun c => c.addPayload (lo b)) s

end Sys2Proof.Machine
end

