-- ==== Sys2Proof/Machine/Framer.lean ====
section
/-! DEFINITION. The meanings of PF's four input operations (spec/40_framer.md R120 to R130). -/

namespace Sys2Proof.Machine

/-- SOP by mode (R121, R122). -/
def Pf.sop (d : Byte) (pf : Pf) : Except Fault Pf :=
  match pf.mode with
  | .idle => .ok (pf.openPacket d)
  | .opened => .ok ((pf.raise .sopWhileOpen).openPacket d)
  | .overflow => .ok ((pf.raise .sopWhileOpen).openPacket d)

/-- DATA by mode (R123 to R126). -/
def Pf.data (d : Byte) (pf : Pf) : Except Fault Pf :=
  match pf.mode with
  | .idle => .ok (pf.raise .dataWhileIdle)
  | .opened => pf.append d
  | .overflow => .ok pf

/-- EOP by mode (R127 to R129). -/
def Pf.eop (pf : Pf) : Except Fault Pf :=
  match pf.mode with
  | .idle => .ok (pf.raise .eopWhileIdle)
  | .opened => pf.emitPacket
  | .overflow => .ok (pf.raise .payloadTooLarge).closePacket

/-- RSVD in any mode (R130). -/
def Pf.rsvd (pf : Pf) : Except Fault Pf := .ok (pf.raise .reservedOp)

/-- SOP (R121, R122). -/
def execSop (ty : Byte) (s : State) : Host.Outcome State Fault Refusal := acceptPf (Pf.sop ty) s

/-- DATA (R123 to R126). -/
def execData (b : Byte) (s : State) : Host.Outcome State Fault Refusal := acceptPf (Pf.data b) s

/-- EOP; the data field is ignored (R92, R127 to R129). -/
def execEop (s : State) : Host.Outcome State Fault Refusal := acceptPf Pf.eop s

/-- RSVD; the data field is ignored (R92, R130). -/
def execRsvd (s : State) : Host.Outcome State Fault Refusal := acceptPf Pf.rsvd s

end Sys2Proof.Machine
end

