-- ==== Sys2Proof/Machine/Dispatch.lean ====
section
/-! DEFINITION. One arm per row of spec/opcode_table.json. -/

namespace Sys2Proof.Machine

/-- The meaning of one operation in a state. -/
def exec (i : Instr) (s : State) : Host.Outcome State Fault Refusal :=
  match i with
  -- PF input, port fi
  | .sop ty => Sys2Proof.Machine.execSop ty s
  | .data b => Sys2Proof.Machine.execData b s
  | .eop _ => Sys2Proof.Machine.execEop s
  | .rsvd _ => Sys2Proof.Machine.execRsvd s
  -- PD input, port di
  | .byte b => Sys2Proof.Machine.execByte b s
  | .timeout _ => Sys2Proof.Machine.execTimeout s
  -- PF output, ports fo and fe
  | .foByte last b => Sys2Proof.Machine.execFoByte last b s
  | .fePayloadTooLarge => Sys2Proof.Machine.execFePayloadTooLarge s
  | .feDataWhileIdle => Sys2Proof.Machine.execFeDataWhileIdle s
  | .feEopWhileIdle => Sys2Proof.Machine.execFeEopWhileIdle s
  | .feSopWhileOpen => Sys2Proof.Machine.execFeSopWhileOpen s
  | .feReservedOp => Sys2Proof.Machine.execFeReservedOp s
  -- PD output, port do
  | .doDecoded cls ty a b => Sys2Proof.Machine.execDoDecoded cls ty a b s
  | .doHdrFail cls ty a b => Sys2Proof.Machine.execDoHdrFail cls ty a b s
  | .doBodyFail cls ty a b => Sys2Proof.Machine.execDoBodyFail cls ty a b s
  | .doCsumErr cls ty a b => Sys2Proof.Machine.execDoCsumErr cls ty a b s
  | .doPayload cls ty a b => Sys2Proof.Machine.execDoPayload cls ty a b s

end Sys2Proof.Machine
end

