-- ==== Sys2Proof/Machine/Step.lean ====
section
/-! DEFINITION. One step of the machine: the agent whose turn it is makes its move (spec/70_reset_and_hazards.md R291,
R293; log entry 3). -/

namespace Sys2Proof.Machine

/-- The agent at the head of `turns` moves: a transfer runs the meaning of its beat, `rst` resets, and a move that
transfers nothing only uses up the turn. With no turn left no agent moves and the state is kept (R270). -/
def step (s : State) : Host.Outcome State Fault Refusal :=
  match s.turns with
  | [] => .next s
  | t :: ts =>
    match fetch t { s with turns := ts } with
    | .idle => .next { s with turns := ts }
    | .rst target => .next (resetBlocks target { s with turns := ts })
    | .beat b s' =>
      match decode b with
      | .ok i => exec i s'
      | .error e => .refused (.neverEmitted e)

/-- The state in which the next step takes the given word (log entries 1 and 2). -/
def State.withFetchWord (s : State) (nbits w : Nat) : State := placeWord s nbits w

end Sys2Proof.Machine
end

