-- ==== Sys2Proof/Machine/Text.lean ====
section
/-! DEFINITION. The textual syntax of the ports and the pseudo-operations (spec/30_encoding.md R102 to R104). It has no
effect on the machine (spec/92_eei_decisions.md D28); log entry 13 names what the model fixes in it. -/

namespace Sys2Proof.Machine

/-! ## Pseudo-operations (R104) -/

/-- A pseudo-operation, an abbreviation with no meaning of its own. -/
inductive Pseudo where
  /-- `frame <t>, [b0, …]` on PF. -/
  | frame (t : Byte) (p : List Byte)
  /-- `bytes b0, …` on PF. -/
  | bytes (p : List Byte)
  /-- `stream b0, …` on PD. -/
  | stream (p : List Byte)
  /-- `packet <t>, [b0, …]` on PD. -/
  | packet (t : Byte) (p : List Byte)
  deriving DecidableEq, Repr

/-- The operations a pseudo-operation stands for (R104). `packet` stands for none when its payload has more than 65535
bytes: R104 takes its bytes from R131, which defines them up to that length only (DESIGN CHOICE, log entry 17). -/
def Pseudo.expand : Pseudo → Option (List Instr)
  | .frame t p => some (.sop t :: (p.map Instr.data ++ [.eop 0x00]))
  | .bytes p => some (p.map Instr.data)
  | .stream p => some (p.map Instr.byte)
  | .packet t p => if p.length ≤ Config.maxPayload then some ((packetBytes t p).map Instr.byte) else none

/-! ## Digits -/

/-- The digits in the order of their values; the first `base` of them are the digits of that base. -/
def digits : List Char := "0123456789ABCDEF".toList

/-- A numeral of a base, most significant digit first; none when a character is no digit of the base. -/
def numeral (base : Nat) (cs : List Char) : Option Nat :=
  cs.foldlM (fun n c => ((digits.take base).findIdx? (· == c.toUpper)).map (n * base + ·)) 0

/-! ## Reading a line -/

/-- A byte value: `0x` and one or two hexadecimal digits, or decimal (R102). -/
def readByte : List Char → Option Byte
  | '0' :: 'x' :: ds => if ds.length = 1 ∨ ds.length = 2 then (numeral 16 ds).map (BitVec.ofNat 8) else none
  | ds => if ds.isEmpty then none else ((numeral 10 ds).filter (· < 256)).map (BitVec.ofNat 8)

/-- Every word of a list read as a byte value. -/
def readBytes : List (List Char) → Option (List Byte)
  | [] => some []
  | w :: ws =>
    match readByte w, readBytes ws with
    | some b, some bs => some (b :: bs)
    | _, _ => none

/-- The words of a line, with spaces, commas and brackets between them. -/
def lineWords : List Char → List Char → List (List Char)
  | word, [] => if word.isEmpty then [] else [word.reverse]
  | word, c :: cs =>
    if c = ' ' ∨ c = ',' ∨ c = '[' ∨ c = ']' then
      if word.isEmpty then lineWords [] cs else word.reverse :: lineWords [] cs
    else lineWords (c :: word) cs

/-- A line of PF's command syntax (R102, R104). -/
def readPfLine (line : String) : Option (List Instr) :=
  match lineWords [] line.toList with
  | [] => none
  | w :: ws =>
    match String.ofList w, readBytes ws with
    | "sop", some [t] => some [.sop t]
    | "data", some [b] => some [.data b]
    | "eop", some [] => some [.eop 0x00]
    | "eop", some [d] => some [.eop d]
    | "rsvd", some [] => some [.rsvd 0x00]
    | "rsvd", some [d] => some [.rsvd d]
    | "frame", some (t :: p) => (Pseudo.frame t p).expand
    | "bytes", some p => (Pseudo.bytes p).expand
    | _, _ => none

/-- A line of PD's input syntax (R103, R104). -/
def readPdLine (line : String) : Option (List Instr) :=
  match lineWords [] line.toList with
  | [] => none
  | w :: ws =>
    match String.ofList w, readBytes ws with
    | "byte", some [b] => some [.byte b]
    | "timeout", some [] => some [.timeout 0x00]
    | "stream", some p => (Pseudo.stream p).expand
    | "packet", some (t :: p) => (Pseudo.packet t p).expand
    | _, _ => none

/-! ## Writing an operation -/

/-- A byte as `0x` and two hexadecimal digits. -/
def showByte (b : Byte) : String :=
  String.ofList ('0' :: 'x' :: [b.toNat / 16, b.toNat % 16].filterMap (digits[·]?))

/-- The names of the `fe` codes (R94). -/
def feCodeName : FeCode → String
  | .payloadTooLarge => "PAYLOAD_TOO_LARGE"
  | .dataWhileIdle => "DATA_WHILE_IDLE"
  | .eopWhileIdle => "EOP_WHILE_IDLE"
  | .sopWhileOpen => "SOP_WHILE_OPEN"
  | .reservedOp => "RESERVED_OP"

/-- The names of the classes (R99). -/
def className : PacketClass → String
  | .keyboard => "KEYBOARD"
  | .mouse => "MOUSE"
  | .ledUpdate => "LED_UPDATE"
  | .statusText => "STATUS_TEXT"
  | .statusRaw => "STATUS_RAW"
  | .ack => "ACK"
  | .unrecognized => "UNRECOGNIZED"
  | .malformed => "MALFORMED"

/-- The line of an operation (R102, R103); none for a DECODED word whose class has no name. -/
def showInstr : Instr → Option String
  | .sop t => some ("sop " ++ showByte t)
  | .data b => some ("data " ++ showByte b)
  | .eop d => some (if d = 0x00 then "eop" else "eop " ++ showByte d)
  | .rsvd d => some (if d = 0x00 then "rsvd" else "rsvd " ++ showByte d)
  | .byte b => some ("byte " ++ showByte b)
  | .timeout _ => some "timeout"
  | .foByte last b => some ("fo " ++ showByte b ++ (if last then " last" else ""))
  | .fePayloadTooLarge => some ("fe " ++ feCodeName .payloadTooLarge)
  | .feDataWhileIdle => some ("fe " ++ feCodeName .dataWhileIdle)
  | .feEopWhileIdle => some ("fe " ++ feCodeName .eopWhileIdle)
  | .feSopWhileOpen => some ("fe " ++ feCodeName .sopWhileOpen)
  | .feReservedOp => some ("fe " ++ feCodeName .reservedOp)
  | .doDecoded cls t a _ =>
    (PacketClass.ofCode cls).map
      (fun c => "DECODED " ++ className c ++ " type=" ++ showByte t ++ " len=" ++ toString a.toNat)
  | .doHdrFail _ t a _ => some ("HDR_FAIL type=" ++ showByte t ++ " got=" ++ toString a.toNat)
  | .doBodyFail _ t a b =>
    some ("BODY_FAIL type=" ++ showByte t ++ " len=" ++ toString a.toNat ++ " actual=" ++ toString b.toNat)
  | .doCsumErr _ t a b =>
    some ("CSUM_ERR type=" ++ showByte t ++ " len=" ++ toString a.toNat ++
      " computed=" ++ showByte (hi b) ++ " received=" ++ showByte (lo b))
  | .doPayload _ _ a b => some ("PAYLOAD i=" ++ toString a.toNat ++ " b=" ++ showByte (lo b))

end Sys2Proof.Machine
end

