-- ==== Sys2Proof/Safety.lean ====
section
/-! DEFINITION. The terms the statements are written in: the invariants of PF, PD and the event consumer (spec/
10_state.md R39, R48, spec/20_memory.md R74, spec/30_encoding.md R101), and runs of a block over a finite input: when one
is over, and its result (spec/70_reset_and_hazards.md R294). -/

namespace Sys2Proof.Machine

/-! ## Emitted beats -/

/-- The beat of an element of PF's `outq`. -/
def PfBeat.beat : PfBeat → Beat
  | .fo w => .fo w
  | .fe w => .fe w

/-- A beat decodes to an instruction whose fields are ones the hardware emits (R101). -/
def emittable (b : Beat) : Bool :=
  match decode b with
  | .ok i => i.wellFormed
  | .error _ => false

/-- The `fo` words of a list of PF's beats, in order. -/
def foWords : List PfBeat → List FoWord
  | [] => []
  | .fo w :: bs => w :: foWords bs
  | .fe _ :: bs => foWords bs

/-- The `fe` words of a list of PF's beats, in order. -/
def feWords : List PfBeat → List FeWord
  | [] => []
  | .fe w :: bs => w :: feWords bs
  | .fo _ :: bs => feWords bs

/-! ## The sides of an operation -/

/-- The input operations of PF, those of the port `fi` (R91). -/
def pfInput (i : Instr) : Bool :=
  match encode i with
  | .fi _ => true
  | .fo _ => false
  | .fe _ => false
  | .di _ => false
  | .dout _ => false

/-- The input operations of PD, those of the port `di` (R95). -/
def pdInput (i : Instr) : Bool :=
  match encode i with
  | .fi _ => false
  | .fo _ => false
  | .fe _ => false
  | .di _ => true
  | .dout _ => false

/-- The operations on PF's ports `fi`, `fo` and `fe` (R21). -/
def atPf (i : Instr) : Bool :=
  match encode i with
  | .fi _ => true
  | .fo _ => true
  | .fe _ => true
  | .di _ => false
  | .dout _ => false

/-- An operation that a seeking PD drops: a TIMEOUT, or a byte other than the start marker (R161, R163). -/
def noise (i : Instr) : Prop := (∃ d, i = .timeout d) ∨ ∃ b, b ≠ Config.start ∧ i = .byte b

/-! ## Invariants -/

/-- The PF invariants of R39, the written range of R74 and the canonical form of the buffer. -/
structure Pf.Inv (pf : Pf) : Prop where
  idle : pf.mode = .idle → pf.ftype = 0x00 ∧ pf.fcnt = 0
  overflow : pf.mode = .overflow → pf.fcnt.val = Config.maxPayload
  written : pf.mode = .opened → ∃ p, readRange pf.buf 0 pf.fcnt.val = .ok p
  bufWf : pf.buf.wf
  emitted : ∀ b ∈ pf.outq, emittable b.beat = true

/-- The packet bytes PD has taken in HDR: the start marker and the header bytes (R48). -/
def Pd.headerTaken (pd : Pd) : List Byte := (header pd.dtype pd.dlen).take (1 + pd.hcnt.val)

/-- The PD invariants of R48, the written range of R74 and the canonical form of the buffer. -/
structure Pd.Inv (pd : Pd) : Prop where
  seek : pd.mode = .seek → pd.hcnt = 0 ∧ pd.dtype = 0x00 ∧ pd.dlen = 0x0000 ∧ pd.bcnt = 0 ∧ pd.csum = 0x00
  hdr : pd.mode = .hdr → pd.bcnt = 0 ∧ pd.csum = xorBytes pd.headerTaken
  /-- A header byte that has not arrived reads as the reset value (R100: "0x00 when no type byte arrived"). -/
  hdrClear : pd.mode = .hdr →
    (pd.hcnt.val < 1 → pd.dtype = 0x00) ∧ (pd.hcnt.val < 2 → pd.dlen = 0x0000) ∧ pd.dlen.toNat < 256
  body : pd.mode = .body → pd.hcnt = 0 ∧ pd.bcnt.val ≤ pd.dlen.toNat
  written : pd.mode = .body → ∃ p, readRange pd.buf 0 pd.bcnt.val = .ok p ∧
    pd.csum = xorBytes (header pd.dtype pd.dlen ++ p)
  bufWf : pd.buf.wf
  emitted : ∀ w ∈ pd.outq, emittable (.dout w) = true

/-- The invariant of the machine. -/
structure State.Inv (s : State) : Prop where
  pf : s.pf.Inv
  pd : s.pd.Inv

/-- The words of one event: a DECODED word with its `A` PAYLOAD words, whose class is the class of that type and
payload, or one failure word (R25, R101, R210). -/
def wholeEvent (ws : List DoWord) : Prop :=
  match ws with
  | [] => False
  | w :: rest =>
    match DoKind.ofCode (doKindField w) with
    | some .decoded =>
        ∃ p : List Byte, p.length = (doA w).toNat ∧ doClassField w = (classify (doTypeField w) p).code ∧
          rest = payloadWords (doTypeField w) 0 p
    | some .hdrFail => rest = []
    | some .bodyFail => rest = []
    | some .csumErr => rest = []
    | some .payload => False
    | none => False

/-- What PD still has to deliver fits what the event consumer has received: with no event open, `outq` is empty or one
whole event; with one open, `outq` is the rest of its PAYLOAD words, in index order and of the same type (R101). -/
def State.eventsAligned (s : State) : Prop :=
  match s.consumer.current with
  | none => s.pd.outq = [] ∨ wholeEvent s.pd.outq
  | some e =>
    DoKind.ofCode (doKindField e.word) = some .decoded ∧
    ∃ p : List Byte, p ≠ [] ∧ e.payload.length + p.length = (doA e.word).toNat ∧
      doClassField e.word = (classify (doTypeField e.word) (e.payload ++ p)).code ∧
      s.pd.outq = payloadWords (doTypeField e.word) e.payload.length p

/-- A whole event as the consumer holds it: a DECODED event has its `A` payload bytes and its class is the class of
that type and payload (R101, R210); a failure event has none. -/
def Event.whole (e : Event) : Prop :=
  match DoKind.ofCode (doKindField e.word) with
  | some .decoded =>
      e.payload.length = (doA e.word).toNat ∧
      doClassField e.word = (classify (doTypeField e.word) e.payload).code
  | some .hdrFail => e.payload = []
  | some .bodyFail => e.payload = []
  | some .csumErr => e.payload = []
  | some .payload => False
  | none => False

/-! ## Runs of a block (R29, R294)

The finite input sequence of a run is what the block's producer still offers. `steps` runs the machine at whatever pace
`turns` gives; `runPf` and `runPd` run one block at one pace: its consumers take all that stands in `outq`, the block takes
the next beat, and so on to the end (log entry 15). R294 gives no state for a run to start in; here it may be any, and the
result then counts the beats taken or queued before the run's first input as well (DESIGN CHOICE, log entry 19). -/

/-- The machine after `k` steps. -/
def steps : Nat → State → Host.Outcome State Fault Refusal
  | 0, s => .next s
  | k + 1, s =>
    match step s with
    | .next s' => steps k s'
    | .fault f => .fault f
    | .refused r => .refused r

/-- PF's run is over: it has taken every beat of its input and its `outq` is empty (R294). -/
abbrev State.pfRunOver (s : State) : Prop := s.producer = [] ∧ s.pf.outq = []

/-- PD's run is over: it has taken every beat of its input and its `outq` is empty (R294). -/
abbrev State.pdRunOver (s : State) : Prop := s.source = [] ∧ s.pd.outq = []

/-- The result of PF's run: the beats emitted on `fo` and on `fe`, which at the end have all been taken and stand in the
consumers' records (log entry 6), and the block's final state (R294). -/
structure PfResult where
  fo    : List FoWord
  fe    : List FeWord
  final : Pf
  deriving DecidableEq, Repr

/-- The result of PD's run: the words emitted on `do`, which at the end have all been taken and stand in the event
consumer's record (log entry 6), and the block's final state (R294). -/
structure PdResult where
  dout  : List DoWord
  final : Pd
  deriving DecidableEq, Repr

/-- The result of PF's run, read off the state in which it is over (R294). It is the whole of both records: a run that
starts with beats in the records or in `outq` counts them ahead of its own (DESIGN CHOICE, log entry 19). -/
def State.pfResult (s : State) : PfResult := ⟨s.foTaken, s.feTaken, s.pf⟩

/-- The result of PD's run, read off the state in which it is over (R294). It is the whole record: a run that starts with
words in the record or in `outq` counts them ahead of its own (DESIGN CHOICE, log entry 19). -/
def State.pdResult (s : State) : PdResult := ⟨s.doTaken, s.pd⟩

/-- A schedule in which no agent resets a block. -/
abbrev noReset (ts : List Turn) : Prop := ∀ target, .integrator target ∉ ts

/-- The consumers of PF take `n` beats, or all there are. -/
def drainPf : Nat → State → Host.Outcome State Fault Refusal
  | 0, s => .next s
  | n + 1, s =>
    match s.pf.outq with
    | [] => .next s
    | b :: _ =>
      match decode b.beat with
      | .error e => .refused (.neverEmitted e)
      | .ok i =>
        match exec i s with
        | .next s' => drainPf n s'
        | .fault f => .fault f
        | .refused r => .refused r

/-- The event consumer takes `n` words, or all there are. -/
def drainPd : Nat → State → Host.Outcome State Fault Refusal
  | 0, s => .next s
  | n + 1, s =>
    match s.pd.outq with
    | [] => .next s
    | w :: _ =>
      match decode (.dout w) with
      | .error e => .refused (.neverEmitted e)
      | .ok i =>
        match exec i s with
        | .next s' => drainPd n s'
        | .fault f => .fault f
        | .refused r => .refused r

/-- PF takes the operations one after another, each after its consumers have taken all that stands in `outq`; at the end
all of `outq` has been taken (R29, R294). -/
def runPf : List Instr → State → Host.Outcome State Fault Refusal
  | [], s => drainPf s.pf.outq.length s
  | i :: is, s =>
    match drainPf s.pf.outq.length s with
    | .fault f => .fault f
    | .refused r => .refused r
    | .next s' =>
      match exec i s' with
      | .next s'' => runPf is s''
      | .fault f => .fault f
      | .refused r => .refused r

/-- PD takes the operations one after another, each after the event consumer has taken all that stands in `outq`; at the end
all of `outq` has been taken (R29, R294). -/
def runPd : List Instr → State → Host.Outcome State Fault Refusal
  | [], s => drainPd s.pd.outq.length s
  | i :: is, s =>
    match drainPd s.pd.outq.length s with
    | .fault f => .fault f
    | .refused r => .refused r
    | .next s' =>
      match exec i s' with
      | .next s'' => runPd is s''
      | .fault f => .fault f
      | .refused r => .refused r

/-- The event of a matched packet (R168, R285). -/
def decodedEvent (t : Byte) (p : List Byte) : Event :=
  ⟨doWord .decoded (classify t p).code t (lengthField p) 0x0000, p⟩

/-- A concatenation of well-formed UTF-8 sequences: one constructor for each row of R227, its ranges written out. -/
inductive Utf8Concat : List Byte → Prop where
  | nil : Utf8Concat []
  | seq1 (a : Byte) (p : List Byte) (ha : a.toNat ≤ 0x7F) (hp : Utf8Concat p) :
      Utf8Concat (a :: p)
  | seq2 (a b : Byte) (p : List Byte) (ha : 0xC2 ≤ a.toNat ∧ a.toNat ≤ 0xDF) (hb : 0x80 ≤ b.toNat ∧ b.toNat ≤ 0xBF)
      (hp : Utf8Concat p) :
      Utf8Concat (a :: b :: p)
  | seq3a (a b c : Byte) (p : List Byte) (ha : a = 0xE0) (hb : 0xA0 ≤ b.toNat ∧ b.toNat ≤ 0xBF)
      (hc : 0x80 ≤ c.toNat ∧ c.toNat ≤ 0xBF) (hp : Utf8Concat p) :
      Utf8Concat (a :: b :: c :: p)
  | seq3b (a b c : Byte) (p : List Byte) (ha : 0xE1 ≤ a.toNat ∧ a.toNat ≤ 0xEC) (hb : 0x80 ≤ b.toNat ∧ b.toNat ≤ 0xBF)
      (hc : 0x80 ≤ c.toNat ∧ c.toNat ≤ 0xBF) (hp : Utf8Concat p) :
      Utf8Concat (a :: b :: c :: p)
  | seq3c (a b c : Byte) (p : List Byte) (ha : a = 0xED) (hb : 0x80 ≤ b.toNat ∧ b.toNat ≤ 0x9F)
      (hc : 0x80 ≤ c.toNat ∧ c.toNat ≤ 0xBF) (hp : Utf8Concat p) :
      Utf8Concat (a :: b :: c :: p)
  | seq3d (a b c : Byte) (p : List Byte) (ha : 0xEE ≤ a.toNat ∧ a.toNat ≤ 0xEF) (hb : 0x80 ≤ b.toNat ∧ b.toNat ≤ 0xBF)
      (hc : 0x80 ≤ c.toNat ∧ c.toNat ≤ 0xBF) (hp : Utf8Concat p) :
      Utf8Concat (a :: b :: c :: p)
  | seq4a (a b c d : Byte) (p : List Byte) (ha : a = 0xF0) (hb : 0x90 ≤ b.toNat ∧ b.toNat ≤ 0xBF)
      (hc : 0x80 ≤ c.toNat ∧ c.toNat ≤ 0xBF) (hd : 0x80 ≤ d.toNat ∧ d.toNat ≤ 0xBF) (hp : Utf8Concat p) :
      Utf8Concat (a :: b :: c :: d :: p)
  | seq4b (a b c d : Byte) (p : List Byte) (ha : 0xF1 ≤ a.toNat ∧ a.toNat ≤ 0xF3)
      (hb : 0x80 ≤ b.toNat ∧ b.toNat ≤ 0xBF) (hc : 0x80 ≤ c.toNat ∧ c.toNat ≤ 0xBF)
      (hd : 0x80 ≤ d.toNat ∧ d.toNat ≤ 0xBF) (hp : Utf8Concat p) :
      Utf8Concat (a :: b :: c :: d :: p)
  | seq4c (a b c d : Byte) (p : List Byte) (ha : a = 0xF4) (hb : 0x80 ≤ b.toNat ∧ b.toNat ≤ 0x8F)
      (hc : 0x80 ≤ c.toNat ∧ c.toNat ≤ 0xBF) (hd : 0x80 ≤ d.toNat ∧ d.toNat ≤ 0xBF) (hp : Utf8Concat p) :
      Utf8Concat (a :: b :: c :: d :: p)

end Sys2Proof.Machine
end

