-- ==== Sys2Proof/Certificates/Slice0/Obligations.lean ====
section
/-! DEFINITION. The statements for the provers. Each docstring names the rule of spec/ it formalises. A frame is said
by `{ t with pf := s.pf } = s`: the next state `t` differs from `s` in nothing but the named part. -/

open Sys2Proof Sys2Proof.Machine

/-! ## Encodings -/

/-- 30_encoding.md sections 2 and 3: decoding the beat of an instruction gives the instruction back, every field at
every value. -/
def Obligations.DecodeOfEncodeIsTheInstruction : Prop :=
  ∀ i : Instr, decode (encode i) = .ok i

/-- 30_encoding.md R92, R96, R94, R98: a word that decodes is the word of exactly the instruction it decodes to; every
`fi` word is an SOP, DATA, EOP or RSVD, every `di` word a BYTE or TIMEOUT, every `fo` word an FO_BYTE. -/
def Obligations.EachWordSpellsOneInstruction : Prop :=
  (∀ (bt : Beat) (i : Instr), decode bt = .ok i → encode i = bt) ∧
  (∀ w : FiWord, ∃ d : Byte, decode (.fi w) = .ok (.sop d) ∨ decode (.fi w) = .ok (.data d) ∨
    decode (.fi w) = .ok (.eop d) ∨ decode (.fi w) = .ok (.rsvd d)) ∧
  (∀ w : DiWord, ∃ d : Byte, decode (.di w) = .ok (.byte d) ∨ decode (.di w) = .ok (.timeout d)) ∧
  (∀ w : FoWord, ∃ (l : Bool) (b : Byte), decode (.fo w) = .ok (.foByte l b))

/-- 30_encoding.md R91, R93, R94, R95, R100: words written out in the spec decode to the instructions they stand for. -/
def Obligations.SpecWordsDecode : Prop :=
  decode (.fi 0b0000000101) = .ok (.sop 0x05) ∧
  decode (.fi 0b0111111011) = .ok (.data 0xFB) ∧
  decode (.fi 0b1000000000) = .ok (.eop 0x00) ∧
  decode (.fi 0b1101111111) = .ok (.rsvd 0x7F) ∧
  decode (.di 0b010101010) = .ok (.byte 0xAA) ∧
  decode (.di 0b100000000) = .ok (.timeout 0x00) ∧
  decode (.fo 0b110101111) = .ok (.foByte true 0xAF) ∧
  decode (.fe 0b0001) = .ok .fePayloadTooLarge ∧
  decode (.fe 0b0101) = .ok .feReservedOp ∧
  decode (.dout 0x160500000000) = .ok (.doDecoded 0x6 0x05 0x0000 0x0000) ∧
  decode (.dout 0x200100010000) = .ok (.doHdrFail 0x0 0x01 0x0001 0x0000) ∧
  decode (.dout 0x300200030001) = .ok (.doBodyFail 0x0 0x02 0x0003 0x0001) ∧
  decode (.dout 0x40050000AFAE) = .ok (.doCsumErr 0x0 0x05 0x0000 0xAFAE) ∧
  decode (.dout 0x80020001000A) = .ok (.doPayload 0x0 0x02 0x0001 0x000A)

/-- 30_encoding.md R97: the five fields of a `do` word are the named bit ranges, and as a number the word is
`kind << 44 | class << 40 | type << 32 | A << 16 | B`. -/
def Obligations.DoWordIsItsShiftedFields : Prop :=
  ∀ (k : DoKind) (cls : Nibble) (ty : Byte) (a b : Half),
    (doWord k cls ty a b).toNat =
      (k.code.toNat <<< 44 ||| cls.toNat <<< 40 ||| ty.toNat <<< 32 ||| a.toNat <<< 16 ||| b.toNat) ∧
    (doWord k cls ty a b).extractLsb' 44 4 = k.code ∧
    (doWord k cls ty a b).extractLsb' 40 4 = cls ∧
    (doWord k cls ty a b).extractLsb' 32 8 = ty ∧
    (doWord k cls ty a b).extractLsb' 16 16 = a ∧
    (doWord k cls ty a b).extractLsb' 0 16 = b

/-- 30_encoding.md R94, R98, 93_implementation_defined.md I9: exactly the codes marked "never emitted" have no
instruction. -/
def Obligations.NeverEmittedWordsAreRejected : Prop :=
  (∀ w : FeWord, (∃ i, decode (.fe w) = .ok i) ↔ (1 ≤ w.toNat ∧ w.toNat ≤ 5)) ∧
  (∀ w : DoWord, (∃ i, decode (.dout w) = .ok i) ↔
    ((1 ≤ (w.extractLsb' 44 4).toNat ∧ (w.extractLsb' 44 4).toNat ≤ 4) ∨ (w.extractLsb' 44 4).toNat = 8))

/-- 30_encoding.md R83: a length split into `lo` and `hi` and assembled again is the length. -/
def Obligations.LengthFieldIsLittleEndian : Prop :=
  ∀ len : Half, joinHi (zext16 (len.extractLsb' 0 8)) (len.extractLsb' 8 8) = len ∧
    ∀ l0 l1 : Byte, (joinHi (zext16 l0) l1).toNat = l0.toNat + 256 * l1.toNat

/-- 30_encoding.md R86: a packet's checksum byte is the value of R85 exactly when the XOR of all its bytes, the checksum
included, is 0x00. -/
def Obligations.WellFormedPacketXorsToZero : Prop :=
  ∀ (t : Byte) (len : Half) (p : List Byte) (c : Byte), p.length = len.toNat →
    (c = 0xAA ^^^ t ^^^ len.extractLsb' 0 8 ^^^ len.extractLsb' 8 8 ^^^ p.foldl (· ^^^ ·) 0x00 ↔
      xorBytes ([0xAA, t, len.extractLsb' 0 8, len.extractLsb' 8 8] ++ p ++ [c]) = 0x00)

/-! ## Reset -/

/-- 10_state.md R50: the reset state. -/
def Obligations.ResetHoldsTheSpecValues : Prop :=
  State.reset.pf.mode = .idle ∧ State.reset.pf.ftype = 0x00 ∧ State.reset.pf.fcnt = 0 ∧ State.reset.pf.outq = [] ∧
  State.reset.pd.mode = .seek ∧ State.reset.pd.hcnt = 0 ∧ State.reset.pd.dtype = 0x00 ∧
  State.reset.pd.dlen = 0x0000 ∧ State.reset.pd.bcnt = 0 ∧ State.reset.pd.csum = 0x00 ∧ State.reset.pd.outq = [] ∧
  State.reset.fiReady = true ∧ State.reset.diReady = true ∧
  State.reset.foValid = false ∧ State.reset.feValid = false ∧ State.reset.doValid = false

/-- 70_reset_and_hazards.md R280, R281, R285: the integrator's move gives each block that `rst` reaches its reset values,
emits nothing and leaves the other block alone; the event consumer drops a partly received event of a PD that it resets.
The model's choices in it: the move uses up its turn (log entry 3); every word a producer still offers, every word a
consumer has taken and every whole event stay (log entry 6); `rst` reaches one block or both in one step (log entry 11).
What the buffers then hold is not stated (log entry 4). -/
def Obligations.ResetStepResetsItsBlocks : Prop :=
  ∀ (s : State) (target : RstTarget) (ts : List Turn), s.turns = .integrator target :: ts →
    ∃ t, step s = .next t ∧
      (target ≠ .pdOnly → t.pf.mode = .idle ∧ t.pf.ftype = 0x00 ∧ t.pf.fcnt = 0 ∧ t.pf.outq = []) ∧
      (target = .pdOnly → t.pf = s.pf) ∧
      (target ≠ .pfOnly → t.pd.mode = .seek ∧ t.pd.hcnt = 0 ∧ t.pd.dtype = 0x00 ∧ t.pd.dlen = 0x0000 ∧
        t.pd.bcnt = 0 ∧ t.pd.csum = 0x00 ∧ t.pd.outq = [] ∧ t.consumer.current = none) ∧
      (target = .pfOnly → t.pd = s.pd ∧ t.consumer = s.consumer) ∧
      t.consumer.events = s.consumer.events ∧ t.producer = s.producer ∧ t.source = s.source ∧
      t.foTaken = s.foTaken ∧ t.feTaken = s.feTaken ∧ t.doTaken = s.doTaken ∧ t.turns = ts

/-! ## PF -/

/-- 40_framer.md R121, R122: SOP opens a packet; in OPEN or OVERFLOW it first reports SOP_WHILE_OPEN. Nothing but
`mode`, `ftype`, `fcnt` and that one beat changes. -/
def Obligations.SopOpensAPacket : Prop :=
  ∀ (s : State) (d : Byte), s.pf.outq = [] →
    (s.pf.mode = .idle →
      exec (.sop d) s = .next { s with pf := { s.pf with mode := .opened, ftype := d, fcnt := 0 } }) ∧
    (s.pf.mode = .opened ∨ s.pf.mode = .overflow →
      exec (.sop d) s =
        .next { s with pf := { s.pf with mode := .opened, ftype := d, fcnt := 0, outq := [.fe 0x4] } })

/-- 40_framer.md R124: DATA in OPEN below the limit stores the byte at index `fcnt` and counts it; every other byte of
the buffer and everything else stays. -/
def Obligations.DataStoresThePayloadByte : Prop :=
  ∀ (s : State) (b : Byte), s.pf.outq = [] → s.pf.mode = .opened → s.pf.fcnt.val < 65535 →
    ∃ t, exec (.data b) s = .next t ∧
      t.pf.fcnt.val = s.pf.fcnt.val + 1 ∧
      memRead t.pf.buf s.pf.fcnt.val = .ok b ∧
      (∀ a, a ≠ s.pf.fcnt.val → memRead t.pf.buf a = memRead s.pf.buf a) ∧
      t.pf.mode = .opened ∧ t.pf.ftype = s.pf.ftype ∧ t.pf.outq = [] ∧
      { t with pf := s.pf } = s

/-- 40_framer.md R123, R125, R126: DATA in IDLE reports DATA_WHILE_IDLE, the 65536th DATA of a packet overflows it, and
DATA in OVERFLOW changes nothing. -/
def Obligations.DataIsDroppedWhereItDoesNotFit : Prop :=
  ∀ (s : State) (b : Byte), s.pf.outq = [] →
    (s.pf.mode = .idle → exec (.data b) s = .next { s with pf := { s.pf with outq := [.fe 0x2] } }) ∧
    (s.pf.mode = .opened → s.pf.fcnt.val = 65535 →
      exec (.data b) s = .next { s with pf := { s.pf with mode := .overflow } }) ∧
    (s.pf.mode = .overflow → exec (.data b) s = .next s)

/-- 40_framer.md R128, R131: EOP in OPEN emits the packet of `ftype` and the bytes read from `buf[0..fcnt)`, `last` set
on the checksum byte alone, and closes the packet; the data field is ignored. -/
def Obligations.EopEmitsThePacket : Prop :=
  ∀ (s : State) (d : Byte) (p : List Byte), s.pf.outq = [] → s.pf.mode = .opened → p.length = s.pf.fcnt.val →
    (∀ i (h : i < p.length), memRead s.pf.buf i = .ok p[i]) →
    exec (.eop d) s = .next { s with pf := { s.pf with
      mode := .idle, ftype := 0x00, fcnt := 0,
      outq :=
        ([0xAA, s.pf.ftype, (BitVec.ofNat 16 p.length).extractLsb' 0 8,
          (BitVec.ofNat 16 p.length).extractLsb' 8 8] ++ p).map (fun b => .fo (foWord false b)) ++
        [.fo (foWord true (0xAA ^^^ s.pf.ftype ^^^ (BitVec.ofNat 16 p.length).extractLsb' 0 8 ^^^
          (BitVec.ofNat 16 p.length).extractLsb' 8 8 ^^^ p.foldl (· ^^^ ·) 0x00))] } }

/-- 40_framer.md R127, R129: EOP in IDLE reports EOP_WHILE_IDLE and changes no register; EOP in OVERFLOW reports
PAYLOAD_TOO_LARGE, emits no `fo` beat and closes the packet. -/
def Obligations.EopReportsWithoutAPacket : Prop :=
  ∀ (s : State) (d : Byte), s.pf.outq = [] →
    (s.pf.mode = .idle → exec (.eop d) s = .next { s with pf := { s.pf with outq := [.fe 0x3] } }) ∧
    (s.pf.mode = .overflow →
      exec (.eop d) s =
        .next { s with pf := { s.pf with mode := .idle, ftype := 0x00, fcnt := 0, outq := [.fe 0x1] } })

/-- 40_framer.md R130: RSVD in any mode emits RESERVED_OP and changes no register and no buffer byte. -/
def Obligations.RsvdReportsReservedOp : Prop :=
  ∀ (s : State) (d : Byte), s.pf.outq = [] →
    exec (.rsvd d) s = .next { s with pf := { s.pf with outq := [.fe 0x5] } }

/-- 40_framer.md R121 to R130, 20_memory.md R60: the frame of PF's input operations. Nothing outside PF changes, and no
buffer byte but the one at index `fcnt` that an accepted DATA stores to in OPEN below the limit. -/
def Obligations.PfInputFrame : Prop :=
  ∀ (i : Instr) (s t : State), pfInput i = true → exec i s = .next t →
    { t with pf := s.pf } = s ∧
    ∀ a, ¬ ((∃ b, i = .data b) ∧ s.pf.outq = [] ∧ s.pf.mode = .opened ∧ s.pf.fcnt.val < 65535 ∧ a = s.pf.fcnt.val) →
      memRead t.pf.buf a = memRead s.pf.buf a

/-- 10_state.md R29: a block whose `outq` is not empty takes no input beat, and its agent goes on holding the word. That
such a beat leaves the whole state as it is, and that a turn is used up, is the model's choice (log entries 3 and 8). -/
def Obligations.InputWaitsForDelivery : Prop :=
  (∀ (i : Instr) (s : State), pfInput i = true → s.pf.outq ≠ [] → exec i s = .next s) ∧
  (∀ (i : Instr) (s : State), pdInput i = true → s.pd.outq ≠ [] → exec i s = .next s) ∧
  (∀ (s : State) (ts : List Turn), s.turns = .producer :: ts → s.pf.outq ≠ [] → step s = .next { s with turns := ts }) ∧
  (∀ (s : State) (ts : List Turn), s.turns = .byteSource :: ts → s.pd.outq ≠ [] → step s = .next { s with turns := ts })

/-! ## PD -/

/-- 41_deframer.md R161, R162: in SEEK the start marker opens a packet attempt and every other byte changes nothing. -/
def Obligations.SeekTakesOnlyTheStartMarker : Prop :=
  ∀ (s : State) (b : Byte), s.pd.outq = [] → s.pd.mode = .seek →
    (b ≠ 0xAA → exec (.byte b) s = .next s) ∧
    (b = 0xAA → exec (.byte b) s = .next { s with pd := { s.pd with mode := .hdr, hcnt := 0, csum := 0xAA } })

/-- 41_deframer.md R164, R165, R166: the three header bytes. -/
def Obligations.HeaderBytesAreTaken : Prop :=
  ∀ (s : State) (b : Byte), s.pd.outq = [] → s.pd.mode = .hdr →
    (s.pd.hcnt = 0 →
      exec (.byte b) s = .next { s with pd := { s.pd with dtype := b, csum := s.pd.csum ^^^ b, hcnt := 1 } }) ∧
    (s.pd.hcnt = 1 →
      exec (.byte b) s =
        .next { s with pd := { s.pd with dlen := b.zeroExtend 16, csum := s.pd.csum ^^^ b, hcnt := 2 } }) ∧
    (s.pd.hcnt = 2 →
      exec (.byte b) s =
        .next { s with pd := { s.pd with dlen := s.pd.dlen ||| (b.zeroExtend 16 <<< 8), csum := s.pd.csum ^^^ b,
                                         hcnt := 0, bcnt := 0, mode := .body } })

/-- 41_deframer.md R167: a payload byte is stored at index `bcnt`, joined to the checksum and counted; every other byte
of the buffer and everything else stays. -/
def Obligations.BodyStoresThePayloadByte : Prop :=
  ∀ (s : State) (b : Byte), s.pd.outq = [] → s.pd.mode = .body → s.pd.bcnt.val < s.pd.dlen.toNat →
    ∃ t, exec (.byte b) s = .next t ∧
      memRead t.pd.buf s.pd.bcnt.val = .ok b ∧
      (∀ a, a ≠ s.pd.bcnt.val → memRead t.pd.buf a = memRead s.pd.buf a) ∧
      t.pd.csum = s.pd.csum ^^^ b ∧ t.pd.bcnt.val = s.pd.bcnt.val + 1 ∧
      t.pd.mode = .body ∧ t.pd.hcnt = s.pd.hcnt ∧ t.pd.dtype = s.pd.dtype ∧ t.pd.dlen = s.pd.dlen ∧ t.pd.outq = [] ∧
      { t with pd := s.pd } = s

/-- 41_deframer.md R168: a checksum byte that matches emits DECODED with the class of the packet and then its payload,
and returns to SEEK with every register cleared. -/
def Obligations.MatchedChecksumDecodesThePacket : Prop :=
  ∀ (s : State) (p : List Byte), s.pd.outq = [] → s.pd.mode = .body → s.pd.bcnt.val = s.pd.dlen.toNat →
    p.length = s.pd.dlen.toNat → (∀ i (h : i < p.length), memRead s.pd.buf i = .ok p[i]) →
    exec (.byte s.pd.csum) s = .next { s with pd := { s.pd with
      mode := .seek, hcnt := 0, dtype := 0x00, dlen := 0x0000, bcnt := 0, csum := 0x00,
      outq := doWord .decoded (classify s.pd.dtype p).code s.pd.dtype s.pd.dlen 0x0000 ::
        p.mapIdx (fun i b => doWord .payload 0x0 s.pd.dtype (BitVec.ofNat 16 i) (b.zeroExtend 16)) } }

/-- 41_deframer.md R169: a checksum byte that differs emits one CSUM_ERR word and returns to SEEK with every register
cleared. -/
def Obligations.MismatchedChecksumIsReported : Prop :=
  ∀ (s : State) (b : Byte), s.pd.outq = [] → s.pd.mode = .body → s.pd.bcnt.val = s.pd.dlen.toNat → b ≠ s.pd.csum →
    exec (.byte b) s = .next { s with pd := { s.pd with
      mode := .seek, hcnt := 0, dtype := 0x00, dlen := 0x0000, bcnt := 0, csum := 0x00,
      outq := [doWord .csumErr 0x0 s.pd.dtype s.pd.dlen (s.pd.csum ++ b)] } }

/-- 41_deframer.md R163, R170, R171: TIMEOUT in SEEK changes nothing; in HDR and BODY it emits one HDR_FAIL or BODY_FAIL
word and returns to SEEK with every register cleared; the data field is ignored. -/
def Obligations.TimeoutEndsThePacketAttempt : Prop :=
  ∀ (s : State) (d : Byte), s.pd.outq = [] →
    (s.pd.mode = .seek → exec (.timeout d) s = .next s) ∧
    (s.pd.mode = .hdr → exec (.timeout d) s = .next { s with pd := { s.pd with
      mode := .seek, hcnt := 0, dtype := 0x00, dlen := 0x0000, bcnt := 0, csum := 0x00,
      outq := [doWord .hdrFail 0x0 s.pd.dtype (BitVec.ofNat 16 s.pd.hcnt.val) 0x0000] } }) ∧
    (s.pd.mode = .body → exec (.timeout d) s = .next { s with pd := { s.pd with
      mode := .seek, hcnt := 0, dtype := 0x00, dlen := 0x0000, bcnt := 0, csum := 0x00,
      outq := [doWord .bodyFail 0x0 s.pd.dtype s.pd.dlen (BitVec.ofNat 16 s.pd.bcnt.val)] } })

/-- 41_deframer.md R161 to R171, 20_memory.md R60: the frame of PD's input operations. Nothing outside PD changes, and no
buffer byte but the one at index `bcnt` that an accepted BYTE stores to in BODY below `dlen`. -/
def Obligations.PdInputFrame : Prop :=
  ∀ (i : Instr) (s t : State), pdInput i = true → exec i s = .next t →
    { t with pd := s.pd } = s ∧
    ∀ a, ¬ ((∃ b, i = .byte b) ∧ s.pd.outq = [] ∧ s.pd.mode = .body ∧ s.pd.bcnt.val < s.pd.dlen.toNat ∧
        a = s.pd.bcnt.val) →
      memRead t.pd.buf a = memRead s.pd.buf a

/-- 41_deframer.md R173: outside SEEK a byte 0xAA that PD takes starts no packet attempt. -/
def Obligations.StartMarkerIsTakenOnlyInSeek : Prop :=
  ∀ (s t : State), s.pd.outq = [] → s.pd.mode ≠ .seek → exec (.byte 0xAA) s = .next t →
    ¬ (t.pd.mode = .hdr ∧ t.pd.hcnt = 0)

/-- 41_deframer.md R176: a PAYLOAD word is emitted only by the BYTE whose value matches the checksum at the end of the
body. -/
def Obligations.NoPayloadBeforeTheChecksumMatches : Prop :=
  ∀ (i : Instr) (s t : State) (w : DoWord), s.pd.outq = [] → exec i s = .next t → w ∈ t.pd.outq →
    DoKind.ofCode (doKindField w) = some .payload →
    i = .byte s.pd.csum ∧ s.pd.mode = .body ∧ s.pd.bcnt.val = s.pd.dlen.toNat

/-- 41_deframer.md R183: the number of words an accepted input beat causes. -/
def Obligations.WordsCausedByAnInputBeat : Prop :=
  (∀ (s t : State) (b : Byte), s.pd.outq = [] → exec (.byte b) s = .next t →
    t.pd.outq.length =
      if s.pd.mode = .body ∧ s.pd.bcnt.val = s.pd.dlen.toNat then
        (if b = s.pd.csum then 1 + s.pd.dlen.toNat else 1)
      else 0) ∧
  (∀ (s t : State) (d : Byte), s.pd.outq = [] → exec (.timeout d) s = .next t →
    t.pd.outq.length = if s.pd.mode = .seek then 0 else 1)

/-- 41_deframer.md R177: from HDR or BODY one TIMEOUT returns PD to SEEK, and so do at most 65539 BYTE beats. -/
def Obligations.PdReturnsToSeek : Prop :=
  ∀ s : State, s.Inv → s.pd.outq = [] → s.pd.mode ≠ .seek →
    (∀ d, ∃ t, exec (.timeout d) s = .next t ∧ t.pd.mode = .seek) ∧
    (∀ bs : List Byte, bs.length = 65539 →
      ∃ k t, k ≤ 65539 ∧ runPd ((bs.take k).map Instr.byte) s = .next t ∧ t.pd.mode = .seek)

/-! ## Delivery -/

/-- 20_memory.md R71, 30_encoding.md R93: the byte sink takes the `fo` word offered; it leaves `outq` and nothing else
of the machine changes but the sink's record. That the row FO_BYTE stands for this transfer, and the record, are the
model's choice (log entries 6 and 7). -/
def Obligations.FoByteIsDelivered : Prop :=
  ∀ (s : State) (last : Bool) (b : Byte) (rest : List PfBeat), s.pf.outq = .fo (foWord last b) :: rest →
    exec (.foByte last b) s =
      .next { s with pf := { s.pf with outq := rest }, foTaken := s.foTaken ++ [foWord last b] }

/-- 20_memory.md R71, 30_encoding.md R94: the error consumer takes the `fe` code offered, for each of the five codes. That
the `fe` rows stand for this transfer, and the consumer's record, are the model's choice (log entries 6 and 7). -/
def Obligations.FeCodesAreDelivered : Prop :=
  ∀ (s : State) (rest : List PfBeat),
    (s.pf.outq = .fe 0x1 :: rest → exec .fePayloadTooLarge s =
      .next { s with pf := { s.pf with outq := rest }, feTaken := s.feTaken ++ [0x1] }) ∧
    (s.pf.outq = .fe 0x2 :: rest → exec .feDataWhileIdle s =
      .next { s with pf := { s.pf with outq := rest }, feTaken := s.feTaken ++ [0x2] }) ∧
    (s.pf.outq = .fe 0x3 :: rest → exec .feEopWhileIdle s =
      .next { s with pf := { s.pf with outq := rest }, feTaken := s.feTaken ++ [0x3] }) ∧
    (s.pf.outq = .fe 0x4 :: rest → exec .feSopWhileOpen s =
      .next { s with pf := { s.pf with outq := rest }, feTaken := s.feTaken ++ [0x4] }) ∧
    (s.pf.outq = .fe 0x5 :: rest → exec .feReservedOp s =
      .next { s with pf := { s.pf with outq := rest }, feTaken := s.feTaken ++ [0x5] })

/-- 20_memory.md R71, 30_encoding.md R98, 70_reset_and_hazards.md R285: the event consumer takes the failure word offered
as one whole event. How it files events, and that these rows stand for the transfer, is the model's choice (log entries 7
and 9). -/
def Obligations.FailureWordsAreDelivered : Prop :=
  ∀ (s : State) (cls : Nibble) (ty : Byte) (a b : Half) (rest : List DoWord),
    (s.pd.outq = doWord .hdrFail cls ty a b :: rest → exec (.doHdrFail cls ty a b) s =
      .next { s with pd := { s.pd with outq := rest }, doTaken := s.doTaken ++ [doWord .hdrFail cls ty a b],
                     consumer := ⟨none, s.consumer.events ++ [⟨doWord .hdrFail cls ty a b, []⟩]⟩ }) ∧
    (s.pd.outq = doWord .bodyFail cls ty a b :: rest → exec (.doBodyFail cls ty a b) s =
      .next { s with pd := { s.pd with outq := rest }, doTaken := s.doTaken ++ [doWord .bodyFail cls ty a b],
                     consumer := ⟨none, s.consumer.events ++ [⟨doWord .bodyFail cls ty a b, []⟩]⟩ }) ∧
    (s.pd.outq = doWord .csumErr cls ty a b :: rest → exec (.doCsumErr cls ty a b) s =
      .next { s with pd := { s.pd with outq := rest }, doTaken := s.doTaken ++ [doWord .csumErr cls ty a b],
                     consumer := ⟨none, s.consumer.events ++ [⟨doWord .csumErr cls ty a b, []⟩]⟩ })

/-- 20_memory.md R71, 30_encoding.md R101, 70_reset_and_hazards.md R285: the event consumer takes a DECODED word, which
opens an event of `A` payload bytes, whole at once when `A` is 0, and then each PAYLOAD word, whose byte joins the open
event and makes it whole when it is the `A`-th. How the consumer files events, and that a PAYLOAD word without an open
event is filed nowhere, is the model's choice (log entry 9). -/
def Obligations.DecodedAndPayloadWordsAreDelivered : Prop :=
  ∀ (s : State) (cls : Nibble) (ty : Byte) (a b : Half) (rest : List DoWord),
    (s.pd.outq = doWord .decoded cls ty a b :: rest → exec (.doDecoded cls ty a b) s =
      .next { s with pd := { s.pd with outq := rest }, doTaken := s.doTaken ++ [doWord .decoded cls ty a b],
                     consumer :=
                       if a = 0 then ⟨none, s.consumer.events ++ [⟨doWord .decoded cls ty a b, []⟩]⟩
                       else ⟨some ⟨doWord .decoded cls ty a b, []⟩, s.consumer.events⟩ }) ∧
    (s.pd.outq = doWord .payload cls ty a b :: rest → ∃ t, exec (.doPayload cls ty a b) s = .next t ∧
      { t with consumer := s.consumer } =
        { s with pd := { s.pd with outq := rest }, doTaken := s.doTaken ++ [doWord .payload cls ty a b] } ∧
      (s.consumer.current = none → t.consumer = s.consumer) ∧
      (∀ e, s.consumer.current = some e → e.payload.length + 1 = (doA e.word).toNat →
        t.consumer = ⟨none, s.consumer.events ++ [⟨e.word, e.payload ++ [b.extractLsb' 0 8]⟩]⟩) ∧
      (∀ e, s.consumer.current = some e → e.payload.length + 1 ≠ (doA e.word).toNat →
        t.consumer = ⟨some ⟨e.word, e.payload ++ [b.extractLsb' 0 8]⟩, s.consumer.events⟩))

/-- 10_state.md R28: an output beat that is not the one its block offers does not transfer. That the meaning of such a
beat leaves the state as it is, is the model's choice (log entry 8). -/
def Obligations.UnofferedBeatDoesNotTransfer : Prop :=
  (∀ (i : Instr) (s : State) (w : FoWord), encode i = .fo w → s.pf.outq.head? ≠ some (.fo w) → exec i s = .next s) ∧
  (∀ (i : Instr) (s : State) (w : FeWord), encode i = .fe w → s.pf.outq.head? ≠ some (.fe w) → exec i s = .next s) ∧
  (∀ (i : Instr) (s : State) (w : DoWord), encode i = .dout w → s.pd.outq.head? ≠ some w → exec i s = .next s)

/-- 20_memory.md R62: an output operation moves beats from `outq` to their consumer without loss, repeat or reordering;
an input operation takes nothing from a consumer and leaves every undelivered beat ahead of the new ones. That the output
rows stand for the transfers is the model's choice (log entry 7). -/
def Obligations.PortsAreFifo : Prop :=
  (∀ (i : Instr) (s t : State), pfInput i = false → pdInput i = false → exec i s = .next t →
    t.foTaken ++ foWords t.pf.outq = s.foTaken ++ foWords s.pf.outq ∧
    t.feTaken ++ feWords t.pf.outq = s.feTaken ++ feWords s.pf.outq ∧
    t.doTaken ++ t.pd.outq = s.doTaken ++ s.pd.outq) ∧
  (∀ (i : Instr) (s t : State), (pfInput i = true ∨ pdInput i = true) → exec i s = .next t →
    t.foTaken = s.foTaken ∧ t.feTaken = s.feTaken ∧ t.doTaken = s.doTaken ∧
    (∃ new, t.pf.outq = s.pf.outq ++ new) ∧ (∃ new, t.pd.outq = s.pd.outq ++ new))

/-! ## Steps and invariants -/

/-- 70_reset_and_hazards.md R291, 10_state.md R28, R29: a step in which a beat transfers runs the instruction the beat
decodes to, in the state with the turn used up and, for an input beat, the word withdrawn from its producer. The list of
turns is the model's own field (log entry 3). -/
def Obligations.StepRunsTheDecodedBeat : Prop :=
  ∀ (s : State) (ts : List Turn) (i : Instr),
    (∀ w ws, s.turns = .producer :: ts → s.producer = w :: ws → s.pf.outq = [] → decode (.fi w) = .ok i →
      step s = exec i { s with turns := ts, producer := ws }) ∧
    (∀ w ws, s.turns = .byteSource :: ts → s.source = w :: ws → s.pd.outq = [] → decode (.di w) = .ok i →
      step s = exec i { s with turns := ts, source := ws }) ∧
    (∀ w rest, s.turns = .byteSink :: ts → s.pf.outq = .fo w :: rest → decode (.fo w) = .ok i →
      step s = exec i { s with turns := ts }) ∧
    (∀ w rest, s.turns = .errorConsumer :: ts → s.pf.outq = .fe w :: rest → decode (.fe w) = .ok i →
      step s = exec i { s with turns := ts }) ∧
    (∀ w rest, s.turns = .eventConsumer :: ts → s.pd.outq = w :: rest → decode (.dout w) = .ok i →
      step s = exec i { s with turns := ts })

/-- 60_exceptions.md R270: with no turn left, and when the agent whose turn it is has nothing to offer or is offered
nothing, no transfer happens and the state is kept but for the turn, which is the model's own (log entry 3). -/
def Obligations.StepWithoutATransferKeepsTheState : Prop :=
  (∀ s : State, s.turns = [] → step s = .next s) ∧
  (∀ (s : State) (ts : List Turn),
    (s.turns = .producer :: ts ∧ s.producer = []) ∨ (s.turns = .byteSource :: ts ∧ s.source = []) ∨
    (s.turns = .byteSink :: ts ∧ s.foValid = false) ∨ (s.turns = .errorConsumer :: ts ∧ s.feValid = false) ∨
    (s.turns = .eventConsumer :: ts ∧ s.doValid = false) →
    step s = .next { s with turns := ts })

/-- 10_state.md R39, R48, 20_memory.md R74: the reset state meets the invariants. That the event consumer has no event
open at reset, and that the buffers list nothing, are the model's choices (log entries 4 and 6). -/
def Obligations.ResetMeetsTheInvariants : Prop :=
  State.reset.Inv ∧ State.reset.eventsAligned

/-- 10_state.md R39, R48, 20_memory.md R74, 30_encoding.md R101: every step keeps the PF invariants, the PD invariants,
the canonical form of both buffers, and that only words the hardware emits stand in the queues. -/
def Obligations.StepKeepsTheInvariants : Prop :=
  ∀ s t : State, s.Inv → step s = .next t → t.Inv

/-- 40_framer.md R120, 41_deframer.md R160: from every state that meets the invariants a step answers a next state; no
step faults and none is refused, whatever the agents do. -/
def Obligations.NoStepFaultsOrRefuses : Prop :=
  ∀ s : State, s.Inv → ∃ t, step s = .next t

/-- 30_encoding.md R101: every step keeps the words on `do` grouped: a DECODED word is followed by exactly its `A` PAYLOAD
words, in index order, of the same type, with no other word in between, and its class is the class of that payload; so
every event the consumer holds is whole. How the consumer holds events is the model's choice (log entry 9). -/
def Obligations.ConsumerReceivesWholeEvents : Prop :=
  ∀ s t : State, s.Inv → s.eventsAligned → (∀ e ∈ s.consumer.events, e.whole) → step s = .next t →
    t.eventsAligned ∧ ∀ e ∈ t.consumer.events, e.whole

/-- 70_reset_and_hazards.md R286: after an EOP PF waits for at most 65540 beats and after a matched checksum PD waits for
at most 65536 words. -/
def Obligations.QueuesAreBounded : Prop :=
  ∀ s t : State, s.pf.outq.length ≤ 65540 → s.pd.outq.length ≤ 65536 → step s = .next t →
    t.pf.outq.length ≤ 65540 ∧ t.pd.outq.length ≤ 65536

/-- 00_scope.md R3: no operation of PF reads or writes anything of PD or of PD's agents, and no operation of PD anything
of PF or of PF's agents. -/
def Obligations.BlocksAreIndependent : Prop :=
  (∀ (i : Instr) (s1 s2 t1 : State), atPf i = true → s1.pf = s2.pf → s1.foTaken = s2.foTaken →
    s1.feTaken = s2.feTaken → exec i s1 = .next t1 →
    exec i s2 = .next { s2 with pf := t1.pf, foTaken := t1.foTaken, feTaken := t1.feTaken }) ∧
  (∀ (i : Instr) (s1 s2 t1 : State), atPf i = false → s1.pd = s2.pd → s1.doTaken = s2.doTaken →
    s1.consumer = s2.consumer → exec i s1 = .next t1 →
    exec i s2 = .next { s2 with pd := t1.pd, doTaken := t1.doTaken, consumer := t1.consumer })

/-- 20_memory.md R62, 70_reset_and_hazards.md R286: an event consumer that takes every word offered takes the words of
`outq` in order and leaves it empty; so for PF's consumers. The runs are those of Safety.lean (log entries 7 and 15). -/
def Obligations.DrainingEmptiesTheQueues : Prop :=
  (∀ s : State, s.Inv → ∃ t, drainPd s.pd.outq.length s = .next t ∧ t.pd = { s.pd with outq := [] } ∧
    t.doTaken = s.doTaken ++ s.pd.outq ∧ t.pf = s.pf) ∧
  (∀ s : State, s.Inv → ∃ t, drainPf s.pf.outq.length s = .next t ∧ t.pf = { s.pf with outq := [] } ∧
    t.foTaken = s.foTaken ++ foWords s.pf.outq ∧ t.feTaken = s.feTaken ++ feWords s.pf.outq ∧ t.pd = s.pd)

/-! ## Runs -/

/-- 40_framer.md R133: from IDLE the commands `sop t`, `data` for each byte of `p`, `eop` make PF emit exactly the bytes
of `frame(t, p)` on `fo` and nothing on `fe` when `p` has at most 65535 bytes, and otherwise exactly PAYLOAD_TOO_LARGE on
`fe` and nothing on `fo`; PF ends in IDLE. -/
def Obligations.FramerComputesTheEncoder : Prop :=
  ∀ (s : State) (t : Byte) (p : List Byte), s.pf.mode = .idle → s.pf.outq = [] →
    ∃ u, runPf ([Instr.sop t] ++ p.map Instr.data ++ [Instr.eop 0x00]) s = .next u ∧
      u.pf.mode = .idle ∧ u.pf.outq = [] ∧
      (p.length ≤ 65535 →
        u.foTaken = s.foTaken ++ (frame t p).map (fun x => foWord x.2 x.1) ∧ u.feTaken = s.feTaken) ∧
      (65535 < p.length → u.foTaken = s.foTaken ∧ u.feTaken = s.feTaken ++ [0x1])

/-- 41_deframer.md R178: the round trip. PD in SEEK given the bytes of `frame(t, p)` emits exactly DECODED with the class
of `(t, p)` and then every byte of `p` in order, and ends in SEEK. -/
def Obligations.RoundTrip : Prop :=
  ∀ (s : State) (t : Byte) (p : List Byte), p.length ≤ 65535 → s.pd.mode = .seek → s.pd.outq = [] →
    ∃ u, runPd ((frame t p).map (fun x => Instr.byte x.1)) s = .next u ∧
      u.pd.mode = .seek ∧ u.pd.outq = [] ∧
      u.doTaken = s.doTaken ++
        (doWord .decoded (classify t p).code t (BitVec.ofNat 16 p.length) 0x0000 ::
          p.mapIdx (fun k b => doWord .payload 0x0 t (BitVec.ofNat 16 k) (b.zeroExtend 16)))

/-- 41_deframer.md R179: resynchronisation. Noise without 0xAA, a packet, noise without 0xAA and a packet, with TIMEOUT
beats only inside the noise, give exactly the words of the two DECODED events with their payloads. The last clause, that an
event consumer with no event open groups them into exactly those two events (70_reset_and_hazards.md R285), rests on how the
model files the words it takes, which is the model's choice (log entry 9). -/
def Obligations.Resynchronisation : Prop :=
  ∀ (s : State) (n1 n2 : List Instr) (t1 t2 : Byte) (p1 p2 : List Byte),
    (∀ i ∈ n1, noise i) → (∀ i ∈ n2, noise i) → p1.length ≤ 65535 → p2.length ≤ 65535 →
    s.pd.mode = .seek → s.pd.outq = [] →
    ∃ u, runPd (n1 ++ (packetBytes t1 p1).map Instr.byte ++ n2 ++ (packetBytes t2 p2).map Instr.byte) s = .next u ∧
      u.pd.mode = .seek ∧ u.pd.outq = [] ∧
      u.doTaken = s.doTaken ++ decodedWords t1 (lengthField p1) p1 ++ decodedWords t2 (lengthField p2) p2 ∧
      (s.consumer.current = none → u.consumer.current = none ∧
        u.consumer.events = s.consumer.events ++ [decodedEvent t1 p1, decodedEvent t2 p2])

/-- 41_deframer.md R180: truncation recovery. The first `k` bytes of a packet, the start marker among them and not the
whole, and then a TIMEOUT give exactly one HDR_FAIL (1 to 3 bytes) or BODY_FAIL (4 to L + 4 bytes); PD ends in SEEK, and
further TIMEOUT beats give nothing. -/
def Obligations.TruncationRecovery : Prop :=
  ∀ (s : State) (t d : Byte) (p : List Byte) (k n : Nat), p.length ≤ 65535 → 1 ≤ k → k < p.length + 5 →
    s.pd.Inv → s.pd.mode = .seek → s.pd.outq = [] →
    ∃ u, runPd (((packetBytes t p).take k).map Instr.byte ++ [Instr.timeout d] ++ List.replicate n (Instr.timeout d)) s =
        .next u ∧
      u.pd.mode = .seek ∧ u.pd.outq = [] ∧
      (k ≤ 3 → u.doTaken = s.doTaken ++
        [doWord .hdrFail 0x0 (if k = 1 then 0x00 else t) (BitVec.ofNat 16 (k - 1)) 0x0000]) ∧
      (4 ≤ k → u.doTaken = s.doTaken ++
        [doWord .bodyFail 0x0 t (BitVec.ofNat 16 p.length) (BitVec.ofNat 16 (k - 4))])

/-- 41_deframer.md R181, its first sentence, with R169 and 30_encoding.md R100: a one-bit change of the type byte, of a
payload byte or of the checksum byte of a packet makes PD emit exactly one CSUM_ERR and no other word, and leaves PD in SEEK
after the packet. The word holds the type byte as received, the packet's length, and the XOR of the bytes received before
the checksum byte beside the checksum byte received. -/
def Obligations.OneBitChangeIsDetected : Prop :=
  ∀ (s : State) (t : Byte) (p bytes : List Byte) (k j : Nat), p.length ≤ 65535 → j < 8 →
    (k = 1 ∨ (4 ≤ k ∧ k < p.length + 5)) → bytes = (packetBytes t p).modify k (· ^^^ (1#8 <<< j)) →
    s.pd.mode = .seek → s.pd.outq = [] →
    ∃ u, runPd (bytes.map Instr.byte) s = .next u ∧
      u.pd.mode = .seek ∧ u.pd.outq = [] ∧
      u.doTaken = s.doTaken ++ [doWord .csumErr 0x0 (bytes.getD 1 0x00) (BitVec.ofNat 16 p.length)
        (bytes.dropLast.foldl (· ^^^ ·) 0x00 ++ bytes.getLastD 0x00)]

/-- 41_deframer.md R181, the detection gap: the same bit changed in two payload bytes is not detected; PD emits DECODED
with the changed bytes. -/
def Obligations.SameBitChangedTwiceIsNotDetected : Prop :=
  ∀ (s : State) (t : Byte) (p : List Byte) (k1 k2 j : Nat), p.length ≤ 65535 → j < 8 →
    k1 < k2 → k2 < p.length → s.pd.mode = .seek → s.pd.outq = [] →
    ∃ u, runPd ((((packetBytes t p).modify (4 + k1) (· ^^^ (1#8 <<< j))).modify (4 + k2)
        (· ^^^ (1#8 <<< j))).map Instr.byte) s = .next u ∧
      u.pd.mode = .seek ∧
      u.doTaken = s.doTaken ++
        decodedWords t (lengthField p) ((p.modify k1 (· ^^^ (1#8 <<< j))).modify k2 (· ^^^ (1#8 <<< j)))

/-! ## Dispatch and interpretation -/

/-- 42_dispatch.md R210: the class of a packet. -/
def Obligations.ClassifyFollowsTheTable : Prop :=
  ∀ (t : Byte) (p : List Byte),
    (t = 0x01 → p.length = 8 → (classify t p).code = 0x1) ∧
    (t = 0x01 → p.length ≠ 8 → (classify t p).code = 0x8) ∧
    (t = 0x02 → 3 ≤ p.length → (classify t p).code = 0x2) ∧
    (t = 0x02 → p.length < 3 → (classify t p).code = 0x8) ∧
    (t = 0x03 → (classify t p).code = 0x3) ∧
    (t = 0x04 → utf8Valid p = true → (classify t p).code = 0x4) ∧
    (t = 0x04 → utf8Valid p = false → (classify t p).code = 0x5) ∧
    (t = 0x05 → (classify t p).code = 0x6) ∧
    (t = 0x00 ∨ 6 ≤ t.toNat → (classify t p).code = 0x7)

/-- 42_dispatch.md R227: `utf8_valid` holds exactly of the concatenations of well-formed UTF-8 sequences, each one of the
nine byte patterns that `Utf8Concat` writes out. -/
def Obligations.Utf8ValidIsConcatenation : Prop :=
  ∀ p : List Byte, utf8Valid p = true ↔ Utf8Concat p

/-- 42_dispatch.md R226: text is defined for exactly the payloads that are valid UTF-8, and every value of it is a Unicode
scalar value (at most 0x10FFFF and no surrogate). How a value is put together from its bytes comes from outside the spec
(log entry 12). -/
def Obligations.TextIsDefinedForValidUtf8 : Prop :=
  ∀ p : List Byte, ((∃ vs, text p = some vs) ↔ utf8Valid p = true) ∧
    ∀ vs, text p = some vs → ∀ v ∈ vs, v < 0xD800 ∨ (0xDFFF < v ∧ v ≤ 0x10FFFF)

/-- 42_dispatch.md R220, R221, R222: the modifiers, key slots and keys of a KEYBOARD payload, whatever byte 1 holds. Sets
are lists without repeats (log entry 14). -/
def Obligations.KeyboardFieldsAreInterpreted : Prop :=
  ∀ m r k2 k3 k4 k5 k6 k7 : Byte, ∃ mods keyset,
    interpret .keyboard [m, r, k2, k3, k4, k5, k6, k7] = some (.keyboard mods [k2, k3, k4, k5, k6, k7] keyset) ∧
    mods.Nodup ∧ keyset.Nodup ∧
    (.lctrl ∈ mods ↔ m.getLsbD 0 = true) ∧ (.lshift ∈ mods ↔ m.getLsbD 1 = true) ∧
    (.lalt ∈ mods ↔ m.getLsbD 2 = true) ∧ (.lgui ∈ mods ↔ m.getLsbD 3 = true) ∧
    (.rctrl ∈ mods ↔ m.getLsbD 4 = true) ∧ (.rshift ∈ mods ↔ m.getLsbD 5 = true) ∧
    (.ralt ∈ mods ↔ m.getLsbD 6 = true) ∧ (.rgui ∈ mods ↔ m.getLsbD 7 = true) ∧
    ∀ k, k ∈ keyset ↔ k ≠ 0x00 ∧ k ∈ [k2, k3, k4, k5, k6, k7]

/-- 42_dispatch.md R223, R224, R225: the buttons and movement of a MOUSE payload, whatever bits 3 to 7 of byte 0 and the
bytes from index 3 on hold. -/
def Obligations.MouseFieldsAreInterpreted : Prop :=
  ∀ (b x y : Byte) (more : List Byte), ∃ btns,
    interpret .mouse (b :: x :: y :: more) = some (.mouse btns x.toInt y.toInt) ∧ btns.Nodup ∧
    (.left ∈ btns ↔ b.getLsbD 0 = true) ∧ (.right ∈ btns ↔ b.getLsbD 1 = true) ∧
    (.middle ∈ btns ↔ b.getLsbD 2 = true)

/-- 42_dispatch.md R210, R220 to R226, R229, 30_encoding.md R99: every DECODED event that a packet can give has a meaning:
the fields of a KEYBOARD or MOUSE payload, the text of a STATUS_TEXT payload, and for the five other classes exactly the
payload bytes. -/
def Obligations.EveryDecodedEventHasAMeaning : Prop :=
  (∀ (c : PacketClass) (p : List Byte), c ∈ [.ledUpdate, .statusRaw, .ack, .unrecognized, .malformed] →
    interpret c p = some (.raw p)) ∧
  ∀ e : Event, e.whole → DoKind.ofCode (doKindField e.word) = some .decoded →
    (doClassField e.word = 0x1 → ∃ mods slots keyset, e.meaning = some (.keyboard mods slots keyset) ∧
      e.meaning = interpret .keyboard e.payload) ∧
    (doClassField e.word = 0x2 → ∃ btns x y, e.meaning = some (.mouse btns x y) ∧
      e.meaning = interpret .mouse e.payload) ∧
    (doClassField e.word = 0x4 → ∃ vs, text e.payload = some vs ∧ e.meaning = some (.statusText vs)) ∧
    (doClassField e.word ∈ [0x3, 0x5, 0x6, 0x7, 0x8] → e.meaning = some (.raw e.payload)) ∧
    doClassField e.word ∈ [0x1, 0x2, 0x3, 0x4, 0x5, 0x6, 0x7, 0x8]

/-! ## The end of a run -/

/-- 70_reset_and_hazards.md R294, 10_state.md R49, 20_memory.md R62: the result of a run does not depend on the pace. When
the block has taken every beat of its input and its `outq` is empty, whatever the order of moves that led there without a
reset, the beats emitted on each port and the block's final state are those of the run in which its consumers take every
beat before the next input is taken; that run ends with `outq` empty. The runs of Safety.lean, and that the order of moves
is a list of turns, are the model's own (log entries 3 and 15); so is that a run may start in any state and that its result
counts the beats taken or queued before its first input, the same ones on both sides (log entry 19). -/
def Obligations.RunResultDoesNotDependOnThePace : Prop :=
  (∀ (k : Nat) (s t : State), noReset s.turns → steps k s = .next t → t.pfRunOver →
    ∃ is u, is.map encode = s.producer.map Beat.fi ∧ runPf is s = .next u ∧ u.pf.outq = [] ∧ u.pfResult = t.pfResult) ∧
  (∀ (k : Nat) (s t : State), noReset s.turns → steps k s = .next t → t.pdRunOver →
    ∃ is u, is.map encode = s.source.map Beat.di ∧ runPd is s = .next u ∧ u.pd.outq = [] ∧ u.pdResult = t.pdResult ∧
      u.consumer = t.consumer)

/-- 70_reset_and_hazards.md R293, R294: a run ends when every offered beat is eventually taken. If each round of turns
gives every agent of the block a turn, in any order and among any other turns, the run is over after at most one round for
each beat in `outq` and, for each beat of the input, one round and one for every beat it can cause (R286). The rounds stand
for R293's weak fairness and the bound is the model's (log entries 3 and 15). -/
def Obligations.FairRunsEnd : Prop :=
  (∀ (s : State) (rounds : List (List Turn)), s.Inv → s.turns = rounds.flatten →
    (∀ r ∈ rounds, .producer ∈ r ∧ .byteSink ∈ r ∧ .errorConsumer ∈ r) →
    s.pf.outq.length + 65541 * s.producer.length ≤ rounds.length →
    ∃ t, steps s.turns.length s = .next t ∧ t.pfRunOver) ∧
  (∀ (s : State) (rounds : List (List Turn)), s.Inv → s.turns = rounds.flatten →
    (∀ r ∈ rounds, .byteSource ∈ r ∧ .eventConsumer ∈ r) →
    s.pd.outq.length + 65537 * s.source.length ≤ rounds.length →
    ∃ t, steps s.turns.length s = .next t ∧ t.pdRunOver)
end

