-- ==== Sys2Proof/Laws/Encoding.lean ====
section
/-! SUPPORT. Each field read back from an encoded word is the field it was built from, and each code names its own
constructor. -/

namespace Sys2Proof

@[simp] theorem FeCode.ofCode_code (c : FeCode) : FeCode.ofCode c.code = some c := by cases c <;> decide

@[simp] theorem DoKind.ofCode_code (k : DoKind) : DoKind.ofCode k.code = some k := by cases k <;> decide

@[simp] theorem PacketClass.ofCode_code (c : PacketClass) : PacketClass.ofCode c.code = some c := by
  cases c <;> decide

@[simp] theorem fiOp_fiWord (op : BitVec 2) (d : Byte) : fiOp (fiWord op d) = op := by
  unfold fiOp fiWord
  apply BitVec.eq_of_getLsbD_eq
  intro i hi
  rw [BitVec.getLsbD_extractLsb', BitVec.getLsbD_append]
  grind

@[simp] theorem fiData_fiWord (op : BitVec 2) (d : Byte) : fiData (fiWord op d) = d := by
  unfold fiData fiWord
  apply BitVec.eq_of_getLsbD_eq
  intro i hi
  rw [BitVec.getLsbD_extractLsb', BitVec.getLsbD_append]
  grind

@[simp] theorem diKind_diWord (k : BitVec 1) (d : Byte) : diKind (diWord k d) = k := by
  unfold diKind diWord
  apply BitVec.eq_of_getLsbD_eq
  intro i hi
  rw [BitVec.getLsbD_extractLsb', BitVec.getLsbD_append]
  grind

@[simp] theorem diData_diWord (k : BitVec 1) (d : Byte) : diData (diWord k d) = d := by
  unfold diData diWord
  apply BitVec.eq_of_getLsbD_eq
  intro i hi
  rw [BitVec.getLsbD_extractLsb', BitVec.getLsbD_append]
  grind

@[simp] theorem foLast_foWord (last : Bool) (b : Byte) : foLast (foWord last b) = last := by
  unfold foLast foWord
  rw [BitVec.getLsbD_append]
  simp

@[simp] theorem foData_foWord (last : Bool) (b : Byte) : foData (foWord last b) = b := by
  unfold foData foWord
  apply BitVec.eq_of_getLsbD_eq
  intro i hi
  rw [BitVec.getLsbD_extractLsb', BitVec.getLsbD_append]
  grind

section DoFields

variable (k : DoKind) (cls : Nibble) (ty : Byte) (a b : Half)

theorem doWord_getLsbD (i : Nat) :
    (doWord k cls ty a b).getLsbD i =
      if i < 16 then b.getLsbD i else if i < 32 then a.getLsbD (i - 16) else if i < 40 then ty.getLsbD (i - 32)
      else if i < 44 then cls.getLsbD (i - 40) else k.code.getLsbD (i - 44) := by
  unfold doWord
  simp only [BitVec.getLsbD_append]
  grind

@[simp] theorem doKindField_doWord : doKindField (doWord k cls ty a b) = k.code := by
  unfold doKindField
  apply BitVec.eq_of_getLsbD_eq
  intro i hi
  rw [BitVec.getLsbD_extractLsb', doWord_getLsbD]
  grind

@[simp] theorem doClassField_doWord : doClassField (doWord k cls ty a b) = cls := by
  unfold doClassField
  apply BitVec.eq_of_getLsbD_eq
  intro i hi
  rw [BitVec.getLsbD_extractLsb', doWord_getLsbD]
  grind

@[simp] theorem doTypeField_doWord : doTypeField (doWord k cls ty a b) = ty := by
  unfold doTypeField
  apply BitVec.eq_of_getLsbD_eq
  intro i hi
  rw [BitVec.getLsbD_extractLsb', doWord_getLsbD]
  grind

@[simp] theorem doA_doWord : doA (doWord k cls ty a b) = a := by
  unfold doA
  apply BitVec.eq_of_getLsbD_eq
  intro i hi
  rw [BitVec.getLsbD_extractLsb', doWord_getLsbD]
  grind

@[simp] theorem doB_doWord : doB (doWord k cls ty a b) = b := by
  unfold doB
  apply BitVec.eq_of_getLsbD_eq
  intro i hi
  rw [BitVec.getLsbD_extractLsb', doWord_getLsbD]
  grind

end DoFields

/-! ## Words rebuilt from their fields -/

theorem fiWord_fields (w : FiWord) : fiWord (fiOp w) (fiData w) = w := by
  unfold fiOp fiData fiWord
  apply BitVec.eq_of_getLsbD_eq
  intro i hi
  rw [BitVec.getLsbD_append, BitVec.getLsbD_extractLsb', BitVec.getLsbD_extractLsb']
  grind

theorem diWord_fields (w : DiWord) : diWord (diKind w) (diData w) = w := by
  unfold diKind diData diWord
  apply BitVec.eq_of_getLsbD_eq
  intro i hi
  rw [BitVec.getLsbD_append, BitVec.getLsbD_extractLsb', BitVec.getLsbD_extractLsb']
  grind

theorem foWord_fields (w : FoWord) : foWord (foLast w) (foData w) = w := by
  unfold foLast foData foWord
  apply BitVec.eq_of_getLsbD_eq
  intro i hi
  rw [BitVec.getLsbD_append, BitVec.getLsbD_extractLsb']
  rcases (by omega : i = 8 ∨ i < 8) with rfl | h
  · simp
  · simp [h]

/-- A `do` word whose kind has a name is the word of its fields. -/
theorem doWord_fields (w : DoWord) (k : DoKind) (h : doKindField w = k.code) :
    doWord k (doClassField w) (doTypeField w) (doA w) (doB w) = w := by
  apply BitVec.eq_of_getLsbD_eq
  intro i hi
  rw [doWord_getLsbD, ← h]
  unfold doClassField doTypeField doA doB doKindField
  simp only [BitVec.getLsbD_extractLsb']
  grind

/-- The instruction of a `do` word with the given fields. -/
def doInstr (k : DoKind) (cls : Nibble) (ty : Byte) (a b : Half) : Instr :=
  match k with
  | .decoded => .doDecoded cls ty a b
  | .hdrFail => .doHdrFail cls ty a b
  | .bodyFail => .doBodyFail cls ty a b
  | .csumErr => .doCsumErr cls ty a b
  | .payload => .doPayload cls ty a b

/-- A `do` word built from its fields decodes to the instruction of those fields. -/
theorem decodeDo_doWord (k : DoKind) (cls : Nibble) (ty : Byte) (a b : Half) :
    decodeDo (doWord k cls ty a b) = .ok (doInstr k cls ty a b) := by
  unfold decodeDo
  rw [doKindField_doWord, DoKind.ofCode_code, doClassField_doWord, doTypeField_doWord, doA_doWord, doB_doWord]
  cases k <;> rfl

end Sys2Proof
end

