-- ==== Sys2Proof/Laws/Memory.lean ====
section
/-! SUPPORT. The laws of the payload buffers: read after write, the canonical form, and the written range. -/

namespace Sys2Proof.Machine

theorem Memory.read_write_same (m : Memory) (a : Nat) (v : Byte) : (Memory.write m a v).read a = some v := by
  induction m with
  | nil => simp [Memory.write, Memory.read]
  | cons c rest ih =>
    obtain ⟨i, u⟩ := c
    simp only [Memory.write]
    split
    · simp [Memory.read]
    · split
      · simp [Memory.read]
      · rename_i _ hne
        simp only [Memory.read, if_neg hne, ih]

theorem Memory.read_write_other (m : Memory) (a b : Nat) (v : Byte) (hne : b ≠ a) :
    (Memory.write m a v).read b = m.read b := by
  induction m with
  | nil => simp [Memory.write, Memory.read, hne]
  | cons c rest ih =>
    obtain ⟨i, u⟩ := c
    simp only [Memory.write]
    split
    · simp [Memory.read, hne]
    · split
      · rename_i _ heq
        subst heq
        simp [Memory.read, hne]
      · simp only [Memory.read, ih]

theorem Memory.mem_write (m : Memory) (a : Nat) (v : Byte) (c : Host.Cell) (hc : c ∈ Memory.write m a v) :
    c = (a, v) ∨ c ∈ m := by
  induction m with
  | nil => simpa [Memory.write] using hc
  | cons d rest ih =>
    obtain ⟨i, u⟩ := d
    simp only [Memory.write] at hc
    split at hc
    · simpa using hc
    · split at hc
      · rcases List.mem_cons.mp hc with h | h
        · exact .inl h
        · exact .inr (List.mem_cons_of_mem _ h)
      · rcases List.mem_cons.mp hc with h | h
        · exact .inr (h ▸ List.mem_cons_self)
        · exact (ih h).imp_right (List.mem_cons_of_mem _)

/-- Storing a byte inside the buffer keeps the canonical form. -/
theorem Memory.write_wf (m : Memory) (a : Nat) (v : Byte) (hm : m.wf) (ha : a < Config.bufBytes) :
    (Memory.write m a v).wf := by
  refine ⟨?_, fun c hc => ?_⟩
  · obtain ⟨hp, -⟩ := hm
    induction m with
    | nil => simp [Memory.write]
    | cons d rest ih =>
      obtain ⟨i, u⟩ := d
      obtain ⟨h1, h2⟩ := List.pairwise_cons.mp hp
      simp only [Memory.write]
      split
      · rename_i hlt
        refine List.pairwise_cons.mpr ⟨fun c hc => ?_, hp⟩
        rcases List.mem_cons.mp hc with h | h
        · exact h ▸ hlt
        · exact Nat.lt_trans hlt (h1 c h)
      · split
        · rename_i _ heq
          subst heq
          exact List.pairwise_cons.mpr ⟨h1, h2⟩
        · rename_i hnlt hne
          refine List.pairwise_cons.mpr ⟨fun c hc => ?_, ih h2⟩
          rcases Memory.mem_write rest a v c hc with h | h
          · subst h
            show i < a
            omega
          · exact h1 c h
  · rcases Memory.mem_write m a v c hc with h | h
    · exact h ▸ ha
    · exact hm.2 c h

/-- What `MemWrite` can answer. -/
theorem memWrite_eq_ok (m m' : Memory) (i : Nat) (v : Byte) :
    memWrite m i v = .ok m' ↔ i < Config.bufBytes ∧ m' = m.write i v := by
  unfold memWrite
  split <;> simp_all [eq_comm]

theorem memWrite_of_lt (m : Memory) (i : Nat) (v : Byte) (h : i < Config.bufBytes) :
    memWrite m i v = .ok (m.write i v) := by simp [memWrite, h]

/-- `MemWrite` keeps the canonical form. -/
theorem memWrite_wf (m m' : Memory) (i : Nat) (v : Byte) (hm : m.wf) (h : memWrite m i v = .ok m') : m'.wf := by
  obtain ⟨hi, rfl⟩ := (memWrite_eq_ok ..).mp h
  exact Memory.write_wf m i v hm hi

theorem memRead_write_same (m : Memory) (i : Nat) (v : Byte) (h : i < Config.bufBytes) :
    memRead (m.write i v) i = .ok v := by simp [memRead, h, Memory.read_write_same]

theorem memRead_write_other (m : Memory) (i j : Nat) (v : Byte) (h : j ≠ i) :
    memRead (m.write i v) j = memRead m j := by simp [memRead, Memory.read_write_other _ _ _ _ h]

/-- A read of a range gives as many bytes as were asked for. -/
theorem readRange_length (m : Memory) (n : Nat) : ∀ (i : Nat) (p : List Byte), readRange m i n = .ok p → p.length = n := by
  induction n with
  | zero => intro i p h; simp [readRange] at h; simp [h]
  | succ n ih =>
    intro i p h
    simp only [readRange] at h
    split at h
    · cases h
    · split at h
      · cases h
      · rename_i bs hbs
        cases h
        simp [ih _ _ hbs]

/-- Storing outside a range does not change what is read from it. -/
theorem readRange_write_outside (m : Memory) (a : Nat) (v : Byte) (n : Nat) :
    ∀ i, a < i ∨ i + n ≤ a → readRange (m.write a v) i n = readRange m i n := by
  induction n with
  | zero => intro i _; rfl
  | succ n ih =>
    intro i h
    simp only [readRange]
    rw [memRead_write_other m a i v (by omega), ih (i + 1) (by omega)]

/-- A range read to its end and one byte more. -/
theorem readRange_snoc (m : Memory) (n : Nat) :
    ∀ (i : Nat) (p : List Byte) (v : Byte), readRange m i n = .ok p → memRead m (i + n) = .ok v →
      readRange m i (n + 1) = .ok (p ++ [v]) := by
  induction n with
  | zero =>
    intro i p v h hv
    simp only [readRange, Except.ok.injEq] at h
    subst h
    simp only [Nat.add_zero] at hv
    simp [readRange, hv]
  | succ n ih =>
    intro i p v h hv
    rw [readRange] at h ⊢
    split at h
    · cases h
    · rename_i b hb
      split at h
      · cases h
      · rename_i bs hbs
        cases h
        rw [ih (i + 1) bs v hbs (by rwa [show i + 1 + n = i + (n + 1) by omega])]
        rfl

/-- Appending a byte after the written range extends it (R74, R124, R167). -/
theorem readRange_append (m : Memory) (n : Nat) (p : List Byte) (v : Byte) (h : readRange m 0 n = .ok p)
    (hn : n < Config.bufBytes) : readRange (m.write n v) 0 (n + 1) = .ok (p ++ [v]) :=
  readRange_snoc _ n 0 p v (by rw [readRange_write_outside m n v n 0 (by omega)]; exact h)
    (by rw [Nat.zero_add]; exact memRead_write_same m n v hn)

/-- A range whose bytes are known one by one reads as their list. -/
theorem readRange_of_getElem (m : Memory) (p : List Byte) :
    ∀ i, (∀ k (h : k < p.length), memRead m (i + k) = .ok p[k]) → readRange m i p.length = .ok p := by
  induction p with
  | nil => intro i _; rfl
  | cons b p ih =>
    intro i h
    have h0 : memRead m i = .ok b := h 0 (by simp)
    have ht : readRange m (i + 1) p.length = .ok p := ih (i + 1) (fun k hk => by
      have := h (k + 1) (by simpa using hk)
      rw [show i + 1 + k = i + (k + 1) by omega]
      exact this)
    simp only [List.length_cons, readRange, h0, ht]

/-- The buffers of the reset state are in the canonical form. -/
theorem Memory.reset_wf : (Pf.reset.buf).wf ∧ (Pd.reset.buf).wf := by decide

end Sys2Proof.Machine
end

