-- ==== Sys2Proof/Laws/State.lean ====
section
/-! SUPPORT. One lemma per field of each named update of PF, PD, the event consumer and the state, each true by rfl. -/

namespace Sys2Proof.Machine

@[simp] theorem Pf.emit_mode (pf : Pf) (bs : List PfBeat) : (pf.emit bs).mode = pf.mode := rfl
@[simp] theorem Pf.emit_ftype (pf : Pf) (bs : List PfBeat) : (pf.emit bs).ftype = pf.ftype := rfl
@[simp] theorem Pf.emit_fcnt (pf : Pf) (bs : List PfBeat) : (pf.emit bs).fcnt = pf.fcnt := rfl
@[simp] theorem Pf.emit_buf (pf : Pf) (bs : List PfBeat) : (pf.emit bs).buf = pf.buf := rfl
@[simp] theorem Pf.emit_outq (pf : Pf) (bs : List PfBeat) : (pf.emit bs).outq = pf.outq ++ bs := rfl

@[simp] theorem Pf.raise_mode (pf : Pf) (c : FeCode) : (pf.raise c).mode = pf.mode := rfl
@[simp] theorem Pf.raise_ftype (pf : Pf) (c : FeCode) : (pf.raise c).ftype = pf.ftype := rfl
@[simp] theorem Pf.raise_fcnt (pf : Pf) (c : FeCode) : (pf.raise c).fcnt = pf.fcnt := rfl
@[simp] theorem Pf.raise_buf (pf : Pf) (c : FeCode) : (pf.raise c).buf = pf.buf := rfl
@[simp] theorem Pf.raise_outq (pf : Pf) (c : FeCode) : (pf.raise c).outq = pf.outq ++ [.fe c.code] := rfl

@[simp] theorem Pf.openPacket_mode (pf : Pf) (d : Byte) : (pf.openPacket d).mode = .opened := rfl
@[simp] theorem Pf.openPacket_ftype (pf : Pf) (d : Byte) : (pf.openPacket d).ftype = d := rfl
@[simp] theorem Pf.openPacket_fcnt (pf : Pf) (d : Byte) : (pf.openPacket d).fcnt = 0 := rfl
@[simp] theorem Pf.openPacket_buf (pf : Pf) (d : Byte) : (pf.openPacket d).buf = pf.buf := rfl
@[simp] theorem Pf.openPacket_outq (pf : Pf) (d : Byte) : (pf.openPacket d).outq = pf.outq := rfl

@[simp] theorem Pf.closePacket_mode (pf : Pf) : (pf.closePacket).mode = .idle := rfl
@[simp] theorem Pf.closePacket_ftype (pf : Pf) : (pf.closePacket).ftype = 0x00 := rfl
@[simp] theorem Pf.closePacket_fcnt (pf : Pf) : (pf.closePacket).fcnt = 0 := rfl
@[simp] theorem Pf.closePacket_buf (pf : Pf) : (pf.closePacket).buf = pf.buf := rfl
@[simp] theorem Pf.closePacket_outq (pf : Pf) : (pf.closePacket).outq = pf.outq := rfl

@[simp] theorem Pd.emit_mode (pd : Pd) (ws : List DoWord) : (pd.emit ws).mode = pd.mode := rfl
@[simp] theorem Pd.emit_hcnt (pd : Pd) (ws : List DoWord) : (pd.emit ws).hcnt = pd.hcnt := rfl
@[simp] theorem Pd.emit_dtype (pd : Pd) (ws : List DoWord) : (pd.emit ws).dtype = pd.dtype := rfl
@[simp] theorem Pd.emit_dlen (pd : Pd) (ws : List DoWord) : (pd.emit ws).dlen = pd.dlen := rfl
@[simp] theorem Pd.emit_bcnt (pd : Pd) (ws : List DoWord) : (pd.emit ws).bcnt = pd.bcnt := rfl
@[simp] theorem Pd.emit_csum (pd : Pd) (ws : List DoWord) : (pd.emit ws).csum = pd.csum := rfl
@[simp] theorem Pd.emit_buf (pd : Pd) (ws : List DoWord) : (pd.emit ws).buf = pd.buf := rfl
@[simp] theorem Pd.emit_outq (pd : Pd) (ws : List DoWord) : (pd.emit ws).outq = pd.outq ++ ws := rfl

@[simp] theorem Pd.toSeek_mode (pd : Pd) : (pd.toSeek).mode = .seek := rfl
@[simp] theorem Pd.toSeek_hcnt (pd : Pd) : (pd.toSeek).hcnt = 0 := rfl
@[simp] theorem Pd.toSeek_dtype (pd : Pd) : (pd.toSeek).dtype = 0x00 := rfl
@[simp] theorem Pd.toSeek_dlen (pd : Pd) : (pd.toSeek).dlen = 0x0000 := rfl
@[simp] theorem Pd.toSeek_bcnt (pd : Pd) : (pd.toSeek).bcnt = 0 := rfl
@[simp] theorem Pd.toSeek_csum (pd : Pd) : (pd.toSeek).csum = 0x00 := rfl
@[simp] theorem Pd.toSeek_buf (pd : Pd) : (pd.toSeek).buf = pd.buf := rfl
@[simp] theorem Pd.toSeek_outq (pd : Pd) : (pd.toSeek).outq = pd.outq := rfl

@[simp] theorem Pd.fail_mode (pd : Pd) (w : DoWord) : (pd.fail w).mode = .seek := rfl
@[simp] theorem Pd.fail_hcnt (pd : Pd) (w : DoWord) : (pd.fail w).hcnt = 0 := rfl
@[simp] theorem Pd.fail_dtype (pd : Pd) (w : DoWord) : (pd.fail w).dtype = 0x00 := rfl
@[simp] theorem Pd.fail_dlen (pd : Pd) (w : DoWord) : (pd.fail w).dlen = 0x0000 := rfl
@[simp] theorem Pd.fail_bcnt (pd : Pd) (w : DoWord) : (pd.fail w).bcnt = 0 := rfl
@[simp] theorem Pd.fail_csum (pd : Pd) (w : DoWord) : (pd.fail w).csum = 0x00 := rfl
@[simp] theorem Pd.fail_buf (pd : Pd) (w : DoWord) : (pd.fail w).buf = pd.buf := rfl
@[simp] theorem Pd.fail_outq (pd : Pd) (w : DoWord) : (pd.fail w).outq = pd.outq ++ [w] := rfl

@[simp] theorem Pd.startPacket_mode (pd : Pd) : (pd.startPacket).mode = .hdr := rfl
@[simp] theorem Pd.startPacket_hcnt (pd : Pd) : (pd.startPacket).hcnt = 0 := rfl
@[simp] theorem Pd.startPacket_dtype (pd : Pd) : (pd.startPacket).dtype = pd.dtype := rfl
@[simp] theorem Pd.startPacket_dlen (pd : Pd) : (pd.startPacket).dlen = pd.dlen := rfl
@[simp] theorem Pd.startPacket_bcnt (pd : Pd) : (pd.startPacket).bcnt = pd.bcnt := rfl
@[simp] theorem Pd.startPacket_csum (pd : Pd) : (pd.startPacket).csum = Config.start := rfl
@[simp] theorem Pd.startPacket_buf (pd : Pd) : (pd.startPacket).buf = pd.buf := rfl
@[simp] theorem Pd.startPacket_outq (pd : Pd) : (pd.startPacket).outq = pd.outq := rfl

@[simp] theorem Pd.takeType_mode (pd : Pd) (b : Byte) : (pd.takeType b).mode = pd.mode := rfl
@[simp] theorem Pd.takeType_hcnt (pd : Pd) (b : Byte) : (pd.takeType b).hcnt = 1 := rfl
@[simp] theorem Pd.takeType_dtype (pd : Pd) (b : Byte) : (pd.takeType b).dtype = b := rfl
@[simp] theorem Pd.takeType_dlen (pd : Pd) (b : Byte) : (pd.takeType b).dlen = pd.dlen := rfl
@[simp] theorem Pd.takeType_bcnt (pd : Pd) (b : Byte) : (pd.takeType b).bcnt = pd.bcnt := rfl
@[simp] theorem Pd.takeType_csum (pd : Pd) (b : Byte) : (pd.takeType b).csum = pd.csum ^^^ b := rfl
@[simp] theorem Pd.takeType_buf (pd : Pd) (b : Byte) : (pd.takeType b).buf = pd.buf := rfl
@[simp] theorem Pd.takeType_outq (pd : Pd) (b : Byte) : (pd.takeType b).outq = pd.outq := rfl

@[simp] theorem Pd.takeLenLo_mode (pd : Pd) (b : Byte) : (pd.takeLenLo b).mode = pd.mode := rfl
@[simp] theorem Pd.takeLenLo_hcnt (pd : Pd) (b : Byte) : (pd.takeLenLo b).hcnt = 2 := rfl
@[simp] theorem Pd.takeLenLo_dtype (pd : Pd) (b : Byte) : (pd.takeLenLo b).dtype = pd.dtype := rfl
@[simp] theorem Pd.takeLenLo_dlen (pd : Pd) (b : Byte) : (pd.takeLenLo b).dlen = zext16 b := rfl
@[simp] theorem Pd.takeLenLo_bcnt (pd : Pd) (b : Byte) : (pd.takeLenLo b).bcnt = pd.bcnt := rfl
@[simp] theorem Pd.takeLenLo_csum (pd : Pd) (b : Byte) : (pd.takeLenLo b).csum = pd.csum ^^^ b := rfl
@[simp] theorem Pd.takeLenLo_buf (pd : Pd) (b : Byte) : (pd.takeLenLo b).buf = pd.buf := rfl
@[simp] theorem Pd.takeLenLo_outq (pd : Pd) (b : Byte) : (pd.takeLenLo b).outq = pd.outq := rfl

@[simp] theorem Pd.takeLenHi_mode (pd : Pd) (b : Byte) : (pd.takeLenHi b).mode = .body := rfl
@[simp] theorem Pd.takeLenHi_hcnt (pd : Pd) (b : Byte) : (pd.takeLenHi b).hcnt = 0 := rfl
@[simp] theorem Pd.takeLenHi_dtype (pd : Pd) (b : Byte) : (pd.takeLenHi b).dtype = pd.dtype := rfl
@[simp] theorem Pd.takeLenHi_dlen (pd : Pd) (b : Byte) : (pd.takeLenHi b).dlen = joinHi pd.dlen b := rfl
@[simp] theorem Pd.takeLenHi_bcnt (pd : Pd) (b : Byte) : (pd.takeLenHi b).bcnt = 0 := rfl
@[simp] theorem Pd.takeLenHi_csum (pd : Pd) (b : Byte) : (pd.takeLenHi b).csum = pd.csum ^^^ b := rfl
@[simp] theorem Pd.takeLenHi_buf (pd : Pd) (b : Byte) : (pd.takeLenHi b).buf = pd.buf := rfl
@[simp] theorem Pd.takeLenHi_outq (pd : Pd) (b : Byte) : (pd.takeLenHi b).outq = pd.outq := rfl

@[simp] theorem Consumer.finish_current (c : Consumer) (e : Event) : (c.finish e).current = none := rfl
@[simp] theorem Consumer.finish_events (c : Consumer) (e : Event) : (c.finish e).events = c.events ++ [e] := rfl

@[simp] theorem Consumer.dropPartial_current (c : Consumer) : (c.dropPartial).current = none := rfl
@[simp] theorem Consumer.dropPartial_events (c : Consumer) : (c.dropPartial).events = c.events := rfl

@[simp] theorem resetPf_pf (s : State) : (resetPf s).pf = Pf.reset := rfl
@[simp] theorem resetPf_pd (s : State) : (resetPf s).pd = s.pd := rfl
@[simp] theorem resetPf_producer (s : State) : (resetPf s).producer = s.producer := rfl
@[simp] theorem resetPf_source (s : State) : (resetPf s).source = s.source := rfl
@[simp] theorem resetPf_foTaken (s : State) : (resetPf s).foTaken = s.foTaken := rfl
@[simp] theorem resetPf_feTaken (s : State) : (resetPf s).feTaken = s.feTaken := rfl
@[simp] theorem resetPf_doTaken (s : State) : (resetPf s).doTaken = s.doTaken := rfl
@[simp] theorem resetPf_consumer (s : State) : (resetPf s).consumer = s.consumer := rfl
@[simp] theorem resetPf_turns (s : State) : (resetPf s).turns = s.turns := rfl

@[simp] theorem resetPd_pf (s : State) : (resetPd s).pf = s.pf := rfl
@[simp] theorem resetPd_pd (s : State) : (resetPd s).pd = Pd.reset := rfl
@[simp] theorem resetPd_producer (s : State) : (resetPd s).producer = s.producer := rfl
@[simp] theorem resetPd_source (s : State) : (resetPd s).source = s.source := rfl
@[simp] theorem resetPd_foTaken (s : State) : (resetPd s).foTaken = s.foTaken := rfl
@[simp] theorem resetPd_feTaken (s : State) : (resetPd s).feTaken = s.feTaken := rfl
@[simp] theorem resetPd_doTaken (s : State) : (resetPd s).doTaken = s.doTaken := rfl
@[simp] theorem resetPd_consumer (s : State) : (resetPd s).consumer = s.consumer.dropPartial := rfl
@[simp] theorem resetPd_turns (s : State) : (resetPd s).turns = s.turns := rfl

end Sys2Proof.Machine
end

