-- ==== Sys2Proof/Laws/Ops.lean ====
section
/-! SUPPORT. What each shared operation and each block rule can do, said once: taking an input beat, delivering an
output beat, appending, emitting a packet, validating. -/

namespace Sys2Proof.Machine

theorem fiReady_iff (s : State) : s.fiReady = true ↔ s.pf.outq = [] := by simp [State.fiReady]

theorem diReady_iff (s : State) : s.diReady = true ↔ s.pd.outq = [] := by simp [State.diReady]

/-! ## Taking an input beat -/

/-- A ready PF whose rule answers takes the beat. -/
theorem acceptPf_ok {rule : Pf → Except Fault Pf} {s : State} {pf : Pf} (hr : s.pf.outq = [])
    (h : rule s.pf = .ok pf) : acceptPf rule s = .next { s with pf := pf } := by
  simp [acceptPf, State.fiReady, hr, h]

/-- A PF that is not ready takes nothing (R29). -/
theorem acceptPf_wait {rule : Pf → Except Fault Pf} {s : State} (hr : s.pf.outq ≠ []) : acceptPf rule s = .next s := by
  simp [acceptPf, State.fiReady, hr]

/-- All that taking an input beat can do at PF when it answers a next state. -/
theorem acceptPf_next {rule : Pf → Except Fault Pf} {s t : State} (h : acceptPf rule s = .next t) :
    (s.pf.outq = [] ∧ ∃ pf, rule s.pf = .ok pf ∧ t = { s with pf := pf }) ∨ (s.pf.outq ≠ [] ∧ t = s) := by
  by_cases hr : s.pf.outq = []
  · simp only [acceptPf, (fiReady_iff s).mpr hr, if_true] at h
    split at h
    · rename_i pf hpf
      cases h
      exact .inl ⟨hr, pf, hpf, rfl⟩
    · cases h
  · rw [acceptPf_wait hr] at h
    cases h
    exact .inr ⟨hr, rfl⟩

/-- A ready PD whose rule answers takes the beat. -/
theorem acceptPd_ok {rule : Pd → Except Fault Pd} {s : State} {pd : Pd} (hr : s.pd.outq = [])
    (h : rule s.pd = .ok pd) : acceptPd rule s = .next { s with pd := pd } := by
  simp [acceptPd, State.diReady, hr, h]

/-- A PD that is not ready takes nothing (R29). -/
theorem acceptPd_wait {rule : Pd → Except Fault Pd} {s : State} (hr : s.pd.outq ≠ []) : acceptPd rule s = .next s := by
  simp [acceptPd, State.diReady, hr]

/-- All that taking an input beat can do at PD when it answers a next state. -/
theorem acceptPd_next {rule : Pd → Except Fault Pd} {s t : State} (h : acceptPd rule s = .next t) :
    (s.pd.outq = [] ∧ ∃ pd, rule s.pd = .ok pd ∧ t = { s with pd := pd }) ∨ (s.pd.outq ≠ [] ∧ t = s) := by
  by_cases hr : s.pd.outq = []
  · simp only [acceptPd, (diReady_iff s).mpr hr, if_true] at h
    split at h
    · rename_i pd hpd
      cases h
      exact .inl ⟨hr, pd, hpd, rfl⟩
    · cases h
  · rw [acceptPd_wait hr] at h
    cases h
    exact .inr ⟨hr, rfl⟩

/-! ## Delivering an output beat -/

/-- All that delivering an `fo` word can do. -/
theorem deliverFo_next {w : FoWord} {s t : State} (h : deliverFo w s = .next t) :
    (∃ rest, s.pf.outq = .fo w :: rest ∧
      t = { s with pf := { s.pf with outq := rest }, foTaken := s.foTaken ++ [w] }) ∨
    (s.pf.outq.head? ≠ some (.fo w) ∧ t = s) := by
  unfold deliverFo at h
  split at h
  · rename_i hh
    cases h
    obtain ⟨rest, hrest⟩ : ∃ rest, s.pf.outq = .fo w :: rest := by
      cases hq : s.pf.outq with
      | nil => simp [hq] at hh
      | cons b rest => exact ⟨rest, by simp [hq] at hh; simp [hh]⟩
    exact .inl ⟨rest, hrest, by simp [hrest]⟩
  · rename_i hh
    cases h
    exact .inr ⟨hh, rfl⟩

/-- All that delivering an `fe` word can do. -/
theorem deliverFe_next {w : FeWord} {s t : State} (h : deliverFe w s = .next t) :
    (∃ rest, s.pf.outq = .fe w :: rest ∧
      t = { s with pf := { s.pf with outq := rest }, feTaken := s.feTaken ++ [w] }) ∨
    (s.pf.outq.head? ≠ some (.fe w) ∧ t = s) := by
  unfold deliverFe at h
  split at h
  · rename_i hh
    cases h
    obtain ⟨rest, hrest⟩ : ∃ rest, s.pf.outq = .fe w :: rest := by
      cases hq : s.pf.outq with
      | nil => simp [hq] at hh
      | cons b rest => exact ⟨rest, by simp [hq] at hh; simp [hh]⟩
    exact .inl ⟨rest, hrest, by simp [hrest]⟩
  · rename_i hh
    cases h
    exact .inr ⟨hh, rfl⟩

/-- All that delivering a `do` word can do. -/
theorem deliverDo_next {w : DoWord} {file : Consumer → Consumer} {s t : State} (h : deliverDo w file s = .next t) :
    (∃ rest, s.pd.outq = w :: rest ∧
      t = { s with pd := { s.pd with outq := rest }, doTaken := s.doTaken ++ [w], consumer := file s.consumer }) ∨
    (s.pd.outq.head? ≠ some w ∧ t = s) := by
  unfold deliverDo at h
  split at h
  · rename_i hh
    cases h
    obtain ⟨rest, hrest⟩ : ∃ rest, s.pd.outq = w :: rest := by
      cases hq : s.pd.outq with
      | nil => simp [hq] at hh
      | cons b rest => exact ⟨rest, by simp [hq] at hh; simp [hh]⟩
    exact .inl ⟨rest, hrest, by simp [hrest]⟩
  · rename_i hh
    cases h
    exact .inr ⟨hh, rfl⟩

/-- The byte sink takes the `fo` word at the head. -/
theorem deliverFo_head {w : FoWord} {s : State} {rest : List PfBeat} (h : s.pf.outq = .fo w :: rest) :
    deliverFo w s = .next { s with pf := { s.pf with outq := rest }, foTaken := s.foTaken ++ [w] } := by
  simp [deliverFo, h]

/-- The error consumer takes the `fe` word at the head. -/
theorem deliverFe_head {w : FeWord} {s : State} {rest : List PfBeat} (h : s.pf.outq = .fe w :: rest) :
    deliverFe w s = .next { s with pf := { s.pf with outq := rest }, feTaken := s.feTaken ++ [w] } := by
  simp [deliverFe, h]

/-- The event consumer takes the `do` word at the head. -/
theorem deliverDo_head {w : DoWord} {file : Consumer → Consumer} {s : State} {rest : List DoWord}
    (h : s.pd.outq = w :: rest) :
    deliverDo w file s =
      .next { s with pd := { s.pd with outq := rest }, doTaken := s.doTaken ++ [w], consumer := file s.consumer } := by
  simp [deliverDo, h]

/-- Delivering never stops the machine. -/
theorem deliverFo_some (w : FoWord) (s : State) : ∃ t, deliverFo w s = .next t := by
  unfold deliverFo; split <;> exact ⟨_, rfl⟩

theorem deliverFe_some (w : FeWord) (s : State) : ∃ t, deliverFe w s = .next t := by
  unfold deliverFe; split <;> exact ⟨_, rfl⟩

theorem deliverDo_some (w : DoWord) (file : Consumer → Consumer) (s : State) :
    ∃ t, deliverDo w file s = .next t := by
  unfold deliverDo; split <;> exact ⟨_, rfl⟩

/-! ## PF rules -/

/-- Appending below the limit stores the byte at `fcnt` (R124). -/
theorem Pf.append_store (pf : Pf) (d : Byte) (h : pf.fcnt.val < 65535) :
    pf.append d = .ok { pf with buf := pf.buf.write pf.fcnt.val d, fcnt := ⟨pf.fcnt.val + 1, by omega⟩ } := by
  have h' : pf.fcnt.val < Config.maxPayload := h
  simp [Pf.append, h', memWrite_of_lt pf.buf pf.fcnt.val d h]

/-- Appending at the limit overflows (R125). -/
theorem Pf.append_overflow (pf : Pf) (d : Byte) (h : pf.fcnt.val = 65535) :
    pf.append d = .ok { pf with mode := .overflow } := by
  have h' : ¬ pf.fcnt.val < Config.maxPayload := by simp [Config.maxPayload, h]
  simp [Pf.append, h']

/-- The two cases of a count. -/
theorem Pf.fcnt_cases (pf : Pf) : pf.fcnt.val < 65535 ∨ pf.fcnt.val = 65535 := by omega

/-- Emitting reads the written range and closes the packet (R128). -/
theorem Pf.emitPacket_ok {pf pf' : Pf} (h : pf.emitPacket = .ok pf') :
    ∃ p, readRange pf.buf 0 pf.fcnt.val = .ok p ∧ pf' = (pf.emit (frameBeats pf.ftype p)).closePacket := by
  unfold Pf.emitPacket at h
  split at h
  · cases h
  · rename_i p hp
    cases h
    exact ⟨p, hp, rfl⟩

/-- All that SOP can do at PF (R121, R122). -/
theorem Pf.sop_ok {d : Byte} {pf pf' : Pf} (h : Pf.sop d pf = .ok pf') :
    (pf.mode = .idle ∧ pf' = pf.openPacket d) ∨
    (pf.mode ≠ .idle ∧ pf' = (pf.raise .sopWhileOpen).openPacket d) := by
  unfold Pf.sop at h
  split at h <;> cases h <;> simp_all

/-- All that DATA can do at PF (R123 to R126). -/
theorem Pf.data_ok {d : Byte} {pf pf' : Pf} (h : Pf.data d pf = .ok pf') :
    (pf.mode = .idle ∧ pf' = pf.raise .dataWhileIdle) ∨
    (pf.mode = .opened ∧ ∃ hlt : pf.fcnt.val < 65535,
      pf' = { pf with buf := pf.buf.write pf.fcnt.val d, fcnt := ⟨pf.fcnt.val + 1, by omega⟩ }) ∨
    (pf.mode = .opened ∧ pf.fcnt.val = 65535 ∧ pf' = { pf with mode := .overflow }) ∨
    (pf.mode = .overflow ∧ pf' = pf) := by
  unfold Pf.data at h
  split at h
  · rename_i hm
    cases h
    exact .inl ⟨hm, rfl⟩
  · rename_i hm
    rcases pf.fcnt_cases with hc | hc
    · rw [Pf.append_store pf d hc] at h
      cases h
      exact .inr (.inl ⟨hm, hc, rfl⟩)
    · rw [Pf.append_overflow pf d hc] at h
      cases h
      exact .inr (.inr (.inl ⟨hm, hc, rfl⟩))
  · rename_i hm
    cases h
    exact .inr (.inr (.inr ⟨hm, rfl⟩))

/-- All that EOP can do at PF (R127 to R129). -/
theorem Pf.eop_ok {pf pf' : Pf} (h : pf.eop = .ok pf') :
    (pf.mode = .idle ∧ pf' = pf.raise .eopWhileIdle) ∨
    (pf.mode = .opened ∧ ∃ p, readRange pf.buf 0 pf.fcnt.val = .ok p ∧
      pf' = (pf.emit (frameBeats pf.ftype p)).closePacket) ∨
    (pf.mode = .overflow ∧ pf' = (pf.raise .payloadTooLarge).closePacket) := by
  unfold Pf.eop at h
  split at h
  · rename_i hm
    cases h
    exact .inl ⟨hm, rfl⟩
  · rename_i hm
    exact .inr (.inl ⟨hm, Pf.emitPacket_ok h⟩)
  · rename_i hm
    cases h
    exact .inr (.inr ⟨hm, rfl⟩)

/-! ## PD rules -/

/-- The three values of `hcnt`. -/
theorem Pd.hcnt_cases (pd : Pd) : pd.hcnt = 0 ∨ pd.hcnt = 1 ∨ pd.hcnt = 2 := by omega

/-- A header byte by `hcnt` (R164 to R166). -/
theorem Pd.byteHdr_cases (b : Byte) (pd : Pd) :
    (pd.hcnt = 0 ∧ pd.byteHdr b = pd.takeType b) ∨ (pd.hcnt = 1 ∧ pd.byteHdr b = pd.takeLenLo b) ∨
    (pd.hcnt = 2 ∧ pd.byteHdr b = pd.takeLenHi b) := by
  rcases pd.hcnt_cases with h | h | h
  · exact .inl ⟨h, by unfold Pd.byteHdr; rw [h]⟩
  · exact .inr (.inl ⟨h, by unfold Pd.byteHdr; rw [h]⟩)
  · exact .inr (.inr ⟨h, by unfold Pd.byteHdr; rw [h]⟩)

/-- A header byte touches neither the buffer nor the queue. -/
theorem Pd.byteHdr_keeps (b : Byte) (pd : Pd) : (pd.byteHdr b).buf = pd.buf ∧ (pd.byteHdr b).outq = pd.outq := by
  rcases pd.byteHdr_cases b with ⟨_, h⟩ | ⟨_, h⟩ | ⟨_, h⟩ <;> rw [h] <;> exact ⟨rfl, rfl⟩

/-- A byte in SEEK touches neither the buffer nor the queue. -/
theorem Pd.byteSeek_keeps (b : Byte) (pd : Pd) : (pd.byteSeek b).buf = pd.buf ∧ (pd.byteSeek b).outq = pd.outq := by
  unfold Pd.byteSeek; split <;> exact ⟨rfl, rfl⟩

/-- The byte after the last payload byte is the checksum byte (R168, R169). -/
theorem Pd.byteBody_last {pd : Pd} {b : Byte} (h : pd.bcnt.val = pd.dlen.toNat) : pd.byteBody b = pd.validate b := by
  unfold Pd.byteBody; simp [h]

/-- A payload byte is stored at `bcnt` (R167). -/
theorem Pd.takePayload_ok (pd : Pd) (b : Byte) (h : pd.bcnt.val < pd.dlen.toNat) :
    pd.takePayload b h =
      .ok { pd with buf := pd.buf.write pd.bcnt.val b, csum := pd.csum ^^^ b,
                    bcnt := ⟨pd.bcnt.val + 1, Nat.lt_of_le_of_lt h pd.dlen.isLt⟩ } := by
  have hb : pd.bcnt.val < Config.bufBytes := by
    have := pd.dlen.isLt
    show _ < 65535
    omega
  simp [Pd.takePayload, memWrite_of_lt pd.buf pd.bcnt.val b hb]

/-- All that VALIDATE can do (R168, R169). -/
theorem Pd.validate_ok {pd pd' : Pd} {b : Byte} (h : pd.validate b = .ok pd') :
    (b = pd.csum ∧ ∃ p, readRange pd.buf 0 pd.dlen.toNat = .ok p ∧
      pd' = (pd.emit (decodedWords pd.dtype pd.dlen p)).toSeek) ∨
    (b ≠ pd.csum ∧ pd' = pd.fail (doWord .csumErr 0 pd.dtype pd.dlen (checksumPair pd.csum b))) := by
  unfold Pd.validate at h
  split at h
  · rename_i hb
    split at h
    · cases h
    · rename_i p hp
      cases h
      exact .inl ⟨hb, p, hp, rfl⟩
  · rename_i hb
    cases h
    exact .inr ⟨hb, rfl⟩

/-- All that a BYTE can do in BODY (R167 to R169). -/
theorem Pd.byteBody_ok {pd pd' : Pd} {b : Byte} (h : pd.byteBody b = .ok pd') :
    (∃ hlt : pd.bcnt.val < pd.dlen.toNat,
      pd' = { pd with buf := pd.buf.write pd.bcnt.val b, csum := pd.csum ^^^ b,
                      bcnt := ⟨pd.bcnt.val + 1, Nat.lt_of_le_of_lt hlt pd.dlen.isLt⟩ }) ∨
    (pd.bcnt.val = pd.dlen.toNat ∧ pd.validate b = .ok pd') := by
  unfold Pd.byteBody at h
  split at h
  · rename_i hlt
    rw [Pd.takePayload_ok] at h
    cases h
    exact .inl ⟨hlt, rfl⟩
  · split at h
    · rename_i heq
      exact .inr ⟨heq, h⟩
    · cases h

/-- All that a BYTE can do at PD (R160). -/
theorem Pd.byte_ok {pd pd' : Pd} {b : Byte} (h : Pd.byte b pd = .ok pd') :
    (pd.mode = .seek ∧ pd' = pd.byteSeek b) ∨ (pd.mode = .hdr ∧ pd' = pd.byteHdr b) ∨
    (pd.mode = .body ∧ pd.byteBody b = .ok pd') := by
  unfold Pd.byte at h
  split at h
  · rename_i hm
    cases h
    exact .inl ⟨hm, rfl⟩
  · rename_i hm
    cases h
    exact .inr (.inl ⟨hm, rfl⟩)
  · rename_i hm
    exact .inr (.inr ⟨hm, h⟩)

/-- All that a TIMEOUT can do at PD (R163, R170, R171). -/
theorem Pd.timeout_ok {pd pd' : Pd} (h : pd.timeout = .ok pd') :
    (pd.mode = .seek ∧ pd' = pd) ∨
    (pd.mode = .hdr ∧ pd' = pd.fail (doWord .hdrFail 0 pd.dtype (BitVec.ofNat 16 pd.hcnt.val) 0x0000)) ∨
    (pd.mode = .body ∧ pd' = pd.fail (doWord .bodyFail 0 pd.dtype pd.dlen (BitVec.ofNat 16 pd.bcnt.val))) := by
  unfold Pd.timeout at h
  split at h
  · rename_i hm
    cases h
    exact .inl ⟨hm, rfl⟩
  · rename_i hm
    cases h
    exact .inr (.inl ⟨hm, rfl⟩)
  · rename_i hm
    cases h
    exact .inr (.inr ⟨hm, rfl⟩)

/-- TIMEOUT always has a rule (R160). -/
theorem Pd.timeout_some (pd : Pd) : ∃ pd', pd.timeout = .ok pd' := by
  unfold Pd.timeout; split <;> exact ⟨_, rfl⟩

end Sys2Proof.Machine
end

