-- ==== Sys2Proof/Laws/Exec.lean ====
section
/-! SUPPORT. Each arm of `exec` as the shared operation it calls, and what a step can do, said once. -/

namespace Sys2Proof.Machine

section Arms

variable (s : State) (d : Byte) (last : Bool) (cls : Nibble) (a b : Half)

theorem exec_sop : exec (.sop d) s = acceptPf (Pf.sop d) s := rfl
theorem exec_data : exec (.data d) s = acceptPf (Pf.data d) s := rfl
theorem exec_eop : exec (.eop d) s = acceptPf Pf.eop s := rfl
theorem exec_rsvd : exec (.rsvd d) s = acceptPf Pf.rsvd s := rfl
theorem exec_byte : exec (.byte d) s = acceptPd (Pd.byte d) s := rfl
theorem exec_timeout : exec (.timeout d) s = acceptPd Pd.timeout s := rfl
theorem exec_foByte : exec (.foByte last d) s = deliverFo (foWord last d) s := rfl
theorem exec_fePayloadTooLarge : exec .fePayloadTooLarge s = deliverFe FeCode.payloadTooLarge.code s := rfl
theorem exec_feDataWhileIdle : exec .feDataWhileIdle s = deliverFe FeCode.dataWhileIdle.code s := rfl
theorem exec_feEopWhileIdle : exec .feEopWhileIdle s = deliverFe FeCode.eopWhileIdle.code s := rfl
theorem exec_feSopWhileOpen : exec .feSopWhileOpen s = deliverFe FeCode.sopWhileOpen.code s := rfl
theorem exec_feReservedOp : exec .feReservedOp s = deliverFe FeCode.reservedOp.code s := rfl
theorem exec_doDecoded : exec (.doDecoded cls d a b) s =
    deliverDo (doWord .decoded cls d a b) (fun c => c.openEvent (doWord .decoded cls d a b)) s := rfl
theorem exec_doHdrFail : exec (.doHdrFail cls d a b) s =
    deliverDo (doWord .hdrFail cls d a b) (fun c => c.finish ⟨doWord .hdrFail cls d a b, []⟩) s := rfl
theorem exec_doBodyFail : exec (.doBodyFail cls d a b) s =
    deliverDo (doWord .bodyFail cls d a b) (fun c => c.finish ⟨doWord .bodyFail cls d a b, []⟩) s := rfl
theorem exec_doCsumErr : exec (.doCsumErr cls d a b) s =
    deliverDo (doWord .csumErr cls d a b) (fun c => c.finish ⟨doWord .csumErr cls d a b, []⟩) s := rfl
theorem exec_doPayload : exec (.doPayload cls d a b) s =
    deliverDo (doWord .payload cls d a b) (fun c => c.addPayload (lo b)) s := rfl

end Arms

/-- An input operation of PF takes a beat by its rule. -/
theorem exec_pfInput {i : Instr} (h : (∃ d, i = .sop d) ∨ (∃ d, i = .data d) ∨ (∃ d, i = .eop d) ∨ (∃ d, i = .rsvd d)) :
    ∃ rule : Pf → Except Fault Pf, ∀ s, exec i s = acceptPf rule s := by
  rcases h with ⟨d, rfl⟩ | ⟨d, rfl⟩ | ⟨d, rfl⟩ | ⟨d, rfl⟩
  · exact ⟨_, fun s => exec_sop s d⟩
  · exact ⟨_, fun s => exec_data s d⟩
  · exact ⟨_, fun s => exec_eop s d⟩
  · exact ⟨_, fun s => exec_rsvd s d⟩

/-- Every instruction is an input of PF, an input of PD, or an output word. -/
theorem instr_cases (i : Instr) :
    (∃ d, i = .sop d) ∨ (∃ d, i = .data d) ∨ (∃ d, i = .eop d) ∨ (∃ d, i = .rsvd d) ∨ (∃ d, i = .byte d) ∨
    (∃ d, i = .timeout d) ∨ (∃ w, encode i = .fo w) ∨ (∃ w, encode i = .fe w) ∨ (∃ w, encode i = .dout w) := by
  cases i <;> simp [encode]

/-- The beat of an `fo` instruction is delivered as that word. -/
theorem exec_of_encode_fo {i : Instr} {w : FoWord} (h : encode i = .fo w) (s : State) : exec i s = deliverFo w s := by
  cases i <;> simp only [encode, Beat.fo.injEq, reduceCtorEq] at h
  subst h
  exact exec_foByte ..

/-- The beat of an `fe` instruction is delivered as that word. -/
theorem exec_of_encode_fe {i : Instr} {w : FeWord} (h : encode i = .fe w) (s : State) : exec i s = deliverFe w s := by
  cases i <;> simp only [encode, Beat.fe.injEq, reduceCtorEq] at h <;> subst h
  · exact exec_fePayloadTooLarge s
  · exact exec_feDataWhileIdle s
  · exact exec_feEopWhileIdle s
  · exact exec_feSopWhileOpen s
  · exact exec_feReservedOp s

/-- The beat of a `do` instruction is delivered as that word, filed by some rule of the consumer. -/
theorem exec_of_encode_do {i : Instr} {w : DoWord} (h : encode i = .dout w) :
    ∃ file : Consumer → Consumer, ∀ s, exec i s = deliverDo w file s := by
  cases i <;> simp only [encode, Beat.dout.injEq, reduceCtorEq] at h <;> subst h
  · exact ⟨_, fun s => exec_doDecoded s ..⟩
  · exact ⟨_, fun s => exec_doHdrFail s ..⟩
  · exact ⟨_, fun s => exec_doBodyFail s ..⟩
  · exact ⟨_, fun s => exec_doCsumErr s ..⟩
  · exact ⟨_, fun s => exec_doPayload s ..⟩

/-- What a move that brings a beat leaves alone: the blocks and everything the consumers hold. -/
theorem fetch_beat {t : Turn} {s s' : State} {b : Beat} (h : fetch t s = .beat b s') :
    s'.pf = s.pf ∧ s'.pd = s.pd ∧ s'.foTaken = s.foTaken ∧ s'.feTaken = s.feTaken ∧ s'.doTaken = s.doTaken ∧
    s'.consumer = s.consumer ∧ s'.turns = s.turns := by
  cases t with
  | producer =>
    simp only [fetch, fetchProducer] at h
    split at h
    · cases h
    · split at h <;> cases h
      simp
  | byteSource =>
    simp only [fetch, fetchSource] at h
    split at h
    · cases h
    · split at h <;> cases h
      simp
  | byteSink => simp only [fetch, fetchFo] at h; split at h <;> cases h; simp
  | errorConsumer => simp only [fetch, fetchFe] at h; split at h <;> cases h; simp
  | eventConsumer => simp only [fetch, fetchDo] at h; split at h <;> cases h; simp
  | integrator => cases h

/-- Only the integrator's move brings a reset. -/
theorem fetch_rst {t : Turn} {s : State} {target : RstTarget} (h : fetch t s = .rst target) :
    t = .integrator target := by
  cases t with
  | producer =>
    simp only [fetch, fetchProducer] at h
    split at h
    · cases h
    · split at h <;> cases h
  | byteSource =>
    simp only [fetch, fetchSource] at h
    split at h
    · cases h
    · split at h <;> cases h
  | byteSink => simp only [fetch, fetchFo] at h; split at h <;> cases h
  | errorConsumer => simp only [fetch, fetchFe] at h; split at h <;> cases h
  | eventConsumer => simp only [fetch, fetchDo] at h; split at h <;> cases h
  | integrator => cases h; rfl

/-- All that a step can do when it answers a next state. -/
theorem step_cases {s t : State} (h : step s = .next t) :
    (s.turns = [] ∧ t = s) ∨
    ∃ turn ts, s.turns = turn :: ts ∧
      ((fetch turn { s with turns := ts } = .idle ∧ t = { s with turns := ts }) ∨
       (∃ target, turn = .integrator target ∧ t = resetBlocks target { s with turns := ts }) ∨
       (∃ b s' i, fetch turn { s with turns := ts } = .beat b s' ∧ decode b = .ok i ∧ exec i s' = .next t)) := by
  unfold step at h
  split at h
  · rename_i ht
    cases h
    exact .inl ⟨ht, rfl⟩
  · rename_i turn ts ht
    refine .inr ⟨turn, ts, ht, ?_⟩
    split at h
    · rename_i hf
      cases h
      exact .inl ⟨hf, rfl⟩
    · rename_i target hf
      cases h
      exact .inr (.inl ⟨target, fetch_rst hf, rfl⟩)
    · rename_i b s' hf
      split at h
      · rename_i i hd
        exact .inr (.inr ⟨b, s', i, hf, hd, h⟩)
      · cases h

end Sys2Proof.Machine
end

