-- ==== Sys2Proof/Laws/PerInstr.lean ====
section
/-! SUPPORT. A statement about every instruction as syntax: the bits of its beat are those of its row in
spec/opcode_table.json. -/

namespace Sys2Proof.Laws

/-- Under a row's mask the bits are the row's match. -/
def rowMatches (width mask pat : Nat) (bits : Nat) : Prop := bits < 2 ^ width ∧ bits &&& mask = pat

/-- The beat of an instruction is on the port of its row and its bits match the row's mask and pattern. -/
def MatchesTable.Statement (i : Instr) : Prop :=
  match i, encode i with
  | .sop _, .fi w => rowMatches 10 0x300 0x000 w.toNat
  | .data _, .fi w => rowMatches 10 0x300 0x100 w.toNat
  | .eop _, .fi w => rowMatches 10 0x300 0x200 w.toNat
  | .rsvd _, .fi w => rowMatches 10 0x300 0x300 w.toNat
  | .byte _, .di w => rowMatches 9 0x100 0x000 w.toNat
  | .timeout _, .di w => rowMatches 9 0x100 0x100 w.toNat
  | .foByte _ _, .fo w => rowMatches 9 0x000 0x000 w.toNat
  | .fePayloadTooLarge, .fe w => rowMatches 4 0xF 0x1 w.toNat
  | .feDataWhileIdle, .fe w => rowMatches 4 0xF 0x2 w.toNat
  | .feEopWhileIdle, .fe w => rowMatches 4 0xF 0x3 w.toNat
  | .feSopWhileOpen, .fe w => rowMatches 4 0xF 0x4 w.toNat
  | .feReservedOp, .fe w => rowMatches 4 0xF 0x5 w.toNat
  | .doDecoded _ _ _ _, .dout w => rowMatches 48 0xF00000000000 0x100000000000 w.toNat
  | .doHdrFail _ _ _ _, .dout w => rowMatches 48 0xF00000000000 0x200000000000 w.toNat
  | .doBodyFail _ _ _ _, .dout w => rowMatches 48 0xF00000000000 0x300000000000 w.toNat
  | .doCsumErr _ _ _ _, .dout w => rowMatches 48 0xF00000000000 0x400000000000 w.toNat
  | .doPayload _ _ _ _, .dout w => rowMatches 48 0xF00000000000 0x800000000000 w.toNat
  | _, _ => False

/-- A `fi` word under the mask of its `op` field. -/
theorem fiWord_row (op : BitVec 2) (d : Byte) : rowMatches 10 0x300 (op.toNat * 256) (fiWord op d).toNat := by
  refine ⟨(fiWord op d).isLt, ?_⟩
  revert op d
  decide +kernel

/-- A `di` word under the mask of its `kind` field. -/
theorem diWord_row (k : BitVec 1) (d : Byte) : rowMatches 9 0x100 (k.toNat * 256) (diWord k d).toNat := by
  refine ⟨(diWord k d).isLt, ?_⟩
  revert k d
  decide +kernel

/-- A `do` word under the mask of its `kind` field. -/
theorem doWord_row (k : DoKind) (cls : Nibble) (ty : Byte) (a b : Half) :
    rowMatches 48 0xF00000000000 (k.code.toNat * 0x100000000000) (doWord k cls ty a b).toNat := by
  refine ⟨(doWord k cls ty a b).isLt, ?_⟩
  have h : (doWord k cls ty a b) &&& 0xF00000000000#48 = k.code ++ (0#44) := by
    unfold doWord
    apply BitVec.eq_of_getLsbD_eq
    intro i hi
    have hm : (0xF00000000000#48) = 0xF#4 ++ (0#44) := by decide
    rw [hm]
    simp only [BitVec.getLsbD_and, BitVec.getLsbD_append]
    have h4 : ∀ j, j < 4 → (0xF#4).getLsbD j = true := by decide
    by_cases h44 : i < 44
    · simp [h44]
    · have hf := h4 (i - 44) (by omega)
      simp only [h44, show ¬ i < 16 by omega, show ¬ i - 16 < 16 by omega, show ¬ i - 16 - 16 < 8 by omega,
        show ¬ i - 16 - 16 - 8 < 4 by omega, show i - 16 - 16 - 8 - 4 = i - 44 by omega, hf, if_false]
      simp
  have h' := congrArg BitVec.toNat h
  rw [BitVec.toNat_and] at h'
  rw [show (0xF00000000000 : Nat) = (0xF00000000000#48).toNat from rfl, h']
  cases k <;> decide

theorem MatchesTable.sop (d : Byte) : MatchesTable.Statement (.sop d) := fiWord_row 0b00 d
theorem MatchesTable.data (d : Byte) : MatchesTable.Statement (.data d) := fiWord_row 0b01 d
theorem MatchesTable.eop (d : Byte) : MatchesTable.Statement (.eop d) := fiWord_row 0b10 d
theorem MatchesTable.rsvd (d : Byte) : MatchesTable.Statement (.rsvd d) := fiWord_row 0b11 d
theorem MatchesTable.byte (d : Byte) : MatchesTable.Statement (.byte d) := diWord_row 0b0 d
theorem MatchesTable.timeout (d : Byte) : MatchesTable.Statement (.timeout d) := diWord_row 0b1 d
theorem MatchesTable.foByte (last : Bool) (d : Byte) : MatchesTable.Statement (.foByte last d) :=
  ⟨(foWord last d).isLt, Nat.and_zero _⟩
theorem MatchesTable.fePayloadTooLarge : MatchesTable.Statement .fePayloadTooLarge := ⟨by decide, by decide⟩
theorem MatchesTable.feDataWhileIdle : MatchesTable.Statement .feDataWhileIdle := ⟨by decide, by decide⟩
theorem MatchesTable.feEopWhileIdle : MatchesTable.Statement .feEopWhileIdle := ⟨by decide, by decide⟩
theorem MatchesTable.feSopWhileOpen : MatchesTable.Statement .feSopWhileOpen := ⟨by decide, by decide⟩
theorem MatchesTable.feReservedOp : MatchesTable.Statement .feReservedOp := ⟨by decide, by decide⟩
theorem MatchesTable.doDecoded (cls : Nibble) (d : Byte) (a b : Half) :
    MatchesTable.Statement (.doDecoded cls d a b) :=
  doWord_row .decoded cls d a b
theorem MatchesTable.doHdrFail (cls : Nibble) (d : Byte) (a b : Half) :
    MatchesTable.Statement (.doHdrFail cls d a b) :=
  doWord_row .hdrFail cls d a b
theorem MatchesTable.doBodyFail (cls : Nibble) (d : Byte) (a b : Half) :
    MatchesTable.Statement (.doBodyFail cls d a b) :=
  doWord_row .bodyFail cls d a b
theorem MatchesTable.doCsumErr (cls : Nibble) (d : Byte) (a b : Half) :
    MatchesTable.Statement (.doCsumErr cls d a b) :=
  doWord_row .csumErr cls d a b
theorem MatchesTable.doPayload (cls : Nibble) (d : Byte) (a b : Half) :
    MatchesTable.Statement (.doPayload cls d a b) :=
  doWord_row .payload cls d a b

end Sys2Proof.Laws
end

