-- ==== Sys2Proof/Laws/Runs.lean ====
section
/-! SUPPORT. How the runs of Safety.lean go on, so that no proof unfolds them. -/

namespace Sys2Proof.Machine

theorem steps_zero (s : State) : steps 0 s = .next s := rfl

theorem steps_succ {s t : State} (h : step s = .next t) (k : Nat) : steps (k + 1) s = steps k t := by
  simp only [steps, h]

/-- The first of the steps that lead to a state leads to a state, and the others go on from there. -/
theorem steps_succ_next {k : Nat} {s t : State} (h : steps (k + 1) s = .next t) :
    ∃ u, step s = .next u ∧ steps k u = .next t := by
  simp only [steps] at h
  cases hs : step s with
  | next u => rw [hs] at h; exact ⟨u, rfl, h⟩
  | fault f => rw [hs] at h; cases h
  | refused r => rw [hs] at h; cases h

/-- Steps go on from the state that the earlier ones lead to. -/
theorem steps_add (j k : Nat) {t : State} : ∀ {s : State}, steps j s = .next t → steps (j + k) s = steps k t := by
  induction j with
  | zero => intro s h; cases h; rw [Nat.zero_add]
  | succ j ih =>
    intro s h
    obtain ⟨u, hs, hu⟩ := steps_succ_next h
    rw [Nat.succ_add_eq_add_succ, Nat.add_succ, steps_succ hs]
    exact ih hu

/-- With `outq` empty the end of the operations is the end of the run. -/
theorem runPf_nil {s : State} (hq : s.pf.outq = []) : runPf [] s = .next s := by
  simp only [runPf, hq, List.length_nil, drainPf]

/-- With `outq` empty the next operation is taken at once. -/
theorem runPf_cons {i : Instr} {s t : State} (hq : s.pf.outq = []) (h : exec i s = .next t) (is : List Instr) :
    runPf (i :: is) s = runPf is t := by
  simp only [runPf, hq, List.length_nil, drainPf, h]

/-- A run that starts by delivering a beat goes on from the state after that delivery. -/
theorem runPf_deliver {i : Instr} {s t : State} {w : PfBeat} {rest : List PfBeat} (hq : s.pf.outq = w :: rest)
    (hd : decode w.beat = .ok i) (h : exec i s = .next t) (ht : t.pf.outq = rest) (is : List Instr) :
    runPf is s = runPf is t := by
  cases is <;> simp only [runPf, hq, ht, List.length_cons, drainPf, hd, h]

/-- A run goes on from the state in which all that stood in `outq` has been taken. -/
theorem runPf_of_drain {s t : State} (h : drainPf s.pf.outq.length s = .next t) (ht : t.pf.outq = [])
    (is : List Instr) : runPf is s = runPf is t := by
  cases is <;> simp only [runPf, h, ht, List.length_nil, drainPf]

/-- The operations of a run one part after another. -/
theorem runPf_append (is js : List Instr) {t : State} (ht : t.pf.outq = []) :
    ∀ {s : State}, runPf is s = .next t → runPf (is ++ js) s = runPf js t := by
  induction is with
  | nil => exact fun h => runPf_of_drain h ht js
  | cons i is ih =>
    intro s h
    simp only [List.cons_append, runPf] at h ⊢
    cases hd : drainPf s.pf.outq.length s with
    | fault f => rw [hd] at h; cases h
    | refused r => rw [hd] at h; cases h
    | next s' =>
      simp only [hd] at h ⊢
      cases he : exec i s' with
      | fault f => rw [he] at h; cases h
      | refused r => rw [he] at h; cases h
      | next s'' =>
        simp only [he] at h ⊢
        exact ih h

/-- With `outq` empty the end of the operations is the end of the run. -/
theorem runPd_nil {s : State} (hq : s.pd.outq = []) : runPd [] s = .next s := by
  simp only [runPd, hq, List.length_nil, drainPd]

/-- With `outq` empty the next operation is taken at once. -/
theorem runPd_cons {i : Instr} {s t : State} (hq : s.pd.outq = []) (h : exec i s = .next t) (is : List Instr) :
    runPd (i :: is) s = runPd is t := by
  simp only [runPd, hq, List.length_nil, drainPd, h]

/-- A run that starts by delivering a beat goes on from the state after that delivery. -/
theorem runPd_deliver {i : Instr} {s t : State} {w : DoWord} {rest : List DoWord} (hq : s.pd.outq = w :: rest)
    (hd : decode (.dout w) = .ok i) (h : exec i s = .next t) (ht : t.pd.outq = rest) (is : List Instr) :
    runPd is s = runPd is t := by
  cases is <;> simp only [runPd, hq, ht, List.length_cons, drainPd, hd, h]

/-- A run goes on from the state in which all that stood in `outq` has been taken. -/
theorem runPd_of_drain {s t : State} (h : drainPd s.pd.outq.length s = .next t) (ht : t.pd.outq = [])
    (is : List Instr) : runPd is s = runPd is t := by
  cases is <;> simp only [runPd, h, ht, List.length_nil, drainPd]

/-- The operations of a run one part after another. -/
theorem runPd_append (is js : List Instr) {t : State} (ht : t.pd.outq = []) :
    ∀ {s : State}, runPd is s = .next t → runPd (is ++ js) s = runPd js t := by
  induction is with
  | nil => exact fun h => runPd_of_drain h ht js
  | cons i is ih =>
    intro s h
    simp only [List.cons_append, runPd] at h ⊢
    cases hd : drainPd s.pd.outq.length s with
    | fault f => rw [hd] at h; cases h
    | refused r => rw [hd] at h; cases h
    | next s' =>
      simp only [hd] at h ⊢
      cases he : exec i s' with
      | fault f => rw [he] at h; cases h
      | refused r => rw [he] at h; cases h
      | next s'' =>
        simp only [he] at h ⊢
        exact ih h

end Sys2Proof.Machine
end

