-- ==== Sys2Proof/Laws/Words.lean ====
section
/-! SUPPORT. The laws of the values computed from bytes: the checksum, the length field, the fields `A` and `B`, the
PAYLOAD words, the class of a payload and the rows of UTF-8. -/

namespace Sys2Proof.Machine

/-! ## The checksum -/

theorem xorBytes_append (p q : List Byte) : xorBytes (p ++ q) = xorBytes p ^^^ xorBytes q := by
  induction p with
  | nil => simp [xorBytes]
  | cons b p ih => simp [xorBytes, ih, BitVec.xor_assoc]

theorem foldl_xor_eq (p : List Byte) : ∀ a : Byte, p.foldl (· ^^^ ·) a = a ^^^ xorBytes p := by
  induction p with
  | nil => simp [xorBytes]
  | cons b p ih =>
    intro a
    simp [xorBytes, ih, BitVec.xor_assoc]

/-- Changing one byte by `x` changes the checksum by `x`. -/
theorem xorBytes_modify (x : Byte) (p : List Byte) :
    ∀ k, k < p.length → xorBytes (p.modify k (· ^^^ x)) = xorBytes p ^^^ x := by
  induction p with
  | nil => intro k h; simp at h
  | cons b p ih =>
    intro k h
    cases k with
    | zero => simp [xorBytes, BitVec.xor_assoc, BitVec.xor_comm x]
    | succ k =>
      simp only [List.length_cons, Nat.add_lt_add_iff_right] at h
      simp [xorBytes, ih k h, BitVec.xor_assoc]

/-! ## Halves and bytes -/

theorem zext16_toNat (b : Byte) : (zext16 b).toNat = b.toNat := by
  unfold zext16
  have := b.isLt
  simp
  omega

@[simp] theorem lo_zext16 (b : Byte) : lo (zext16 b) = b := by
  apply BitVec.eq_of_toNat_eq
  unfold lo
  have := b.isLt
  simp [zext16]
  omega

theorem checksumPair_eq_append (a b : Byte) : checksumPair a b = a ++ b := by
  unfold checksumPair zext16
  apply BitVec.eq_of_getLsbD_eq
  intro i hi
  simp only [BitVec.getLsbD_append, BitVec.getLsbD_or, BitVec.getLsbD_shiftLeft]
  simp
  grind

theorem toNat_ofNat_half {n : Nat} (h : n < 65536) : (BitVec.ofNat 16 n).toNat = n := by
  simp
  omega

theorem lengthField_toNat (p : List Byte) (h : p.length ≤ 65535) : (lengthField p).toNat = p.length :=
  toNat_ofNat_half (by omega)

theorem sext8_eq_toInt (b : Byte) : sext8 b = b.toInt := by revert b; decide +kernel

/-! ## PAYLOAD words -/

theorem payloadWords_length (t : Byte) (p : List Byte) : ∀ n, (payloadWords t n p).length = p.length := by
  induction p with
  | nil => intro n; rfl
  | cons b p ih => intro n; simp [payloadWords, ih]

theorem payloadWords_eq_mapIdx (t : Byte) (p : List Byte) : ∀ n, payloadWords t n p =
    p.mapIdx (fun i b => doWord .payload 0x0 t (BitVec.ofNat 16 (n + i)) (b.zeroExtend 16)) := by
  induction p with
  | nil => intro n; rfl
  | cons b p ih =>
    intro n
    simp only [payloadWords, List.mapIdx_cons, ih]
    simp [zext16, Nat.add_assoc, Nat.add_comm 1]

/-! ## Classes and UTF-8 -/

/-- The class of a packet fits its type and length (R210). -/
theorem classify_fits (t : Byte) (p : List Byte) : (classify t p).fits t p.length = true := by
  unfold classify
  split
  · split <;> simp_all [PacketClass.fits]
  · split
    · split <;> simp_all [PacketClass.fits]
    · split
      · simp_all [PacketClass.fits]
      · split
        · split <;> simp_all [PacketClass.fits]
        · split
          · simp_all [PacketClass.fits]
          · rename_i h1 h2 h3 h4 h5
            simp only [PacketClass.fits]
            revert h1 h2 h3 h4 h5
            revert t
            decide

/-- The row found for a byte is a row of R227 that the byte begins. -/
theorem utf8Row_mem {b : Byte} {r : Utf8Row} (h : utf8Row b = some r) : r ∈ utf8Rows ∧ inRange r.first b = true :=
  ⟨List.mem_of_find?_eq_some h, List.find?_some (p := fun r : Utf8Row => inRange r.first b) h⟩

/-- The first-byte ranges of R227 are disjoint: a row that a byte begins is the row found for it. -/
theorem utf8Row_of_mem : ∀ r ∈ utf8Rows, ∀ b : Byte, inRange r.first b = true → utf8Row b = some r := by
  decide +kernel

/-- Testing a single bit by a mask. -/
theorem and_bit_eq_getLsbD (b : Byte) : ∀ i, i < 8 → (!(b &&& (1#8 <<< i) == 0x00)) = b.getLsbD i := by
  revert b; decide +kernel

theorem mem_dropRepeats (l : List Byte) (x : Byte) : x ∈ dropRepeats l ↔ x ∈ l := by
  induction l with
  | nil => simp [dropRepeats]
  | cons b bs ih => simp only [dropRepeats]; split <;> simp_all

theorem nodup_dropRepeats (l : List Byte) : (dropRepeats l).Nodup := by
  induction l with
  | nil => simp [dropRepeats]
  | cons b bs ih =>
    simp only [dropRepeats]
    split
    · exact ih
    · simp [mem_dropRepeats, *]

end Sys2Proof.Machine
end

