-- ==== Sys2Proof/Tests/Slice0.lean ====
section
/-! SUPPORT. Tests of the model against words and vectors written in the spec (their names stand in the comments), the
well-formedness smoke, and for every statement with hypotheses a witness that meets them. -/

namespace Sys2Proof.Tests

open Sys2Proof.Machine

/-! ## Well-formedness: one ill-formed term for each check (R93, R99, R100, R210) -/

theorem test_wf_class_0_is_no_class : (Instr.doDecoded 0x0 0x05 0 0).wellFormed = false := by decide
theorem test_wf_class_9_is_no_class : (Instr.doDecoded 0x9 0x05 0 0).wellFormed = false := by decide
theorem test_wf_keyboard_has_8_bytes : (Instr.doDecoded 0x1 0x01 7 0).wellFormed = false := by decide
theorem test_wf_keyboard_has_type_1 : (Instr.doDecoded 0x1 0x02 8 0).wellFormed = false := by decide
theorem test_wf_mouse_has_3_bytes : (Instr.doDecoded 0x2 0x02 2 0).wellFormed = false := by decide
theorem test_wf_mouse_has_type_2 : (Instr.doDecoded 0x2 0x01 8 0).wellFormed = false := by decide
theorem test_wf_ledUpdate_has_type_3 : (Instr.doDecoded 0x3 0x04 1 0).wellFormed = false := by decide
theorem test_wf_statusText_has_type_4 : (Instr.doDecoded 0x4 0x03 1 0).wellFormed = false := by decide
theorem test_wf_statusRaw_has_type_4 : (Instr.doDecoded 0x5 0x05 1 0).wellFormed = false := by decide
theorem test_wf_ack_has_type_5 : (Instr.doDecoded 0x6 0x04 0 0).wellFormed = false := by decide
theorem test_wf_unrecognized_is_no_known_type : (Instr.doDecoded 0x7 0x05 0 0).wellFormed = false := by decide
theorem test_wf_malformed_keyboard_is_not_8_long : (Instr.doDecoded 0x8 0x01 8 0).wellFormed = false := by decide
theorem test_wf_malformed_mouse_is_below_3 : (Instr.doDecoded 0x8 0x02 3 0).wellFormed = false := by decide
theorem test_wf_malformed_has_type_1_or_2 : (Instr.doDecoded 0x8 0x04 1 0).wellFormed = false := by decide
theorem test_wf_decoded_B_is_0 : (Instr.doDecoded 0x6 0x05 0 1).wellFormed = false := by decide
theorem test_wf_hdrFail_class_is_0 : (Instr.doHdrFail 0x1 0x01 1 0).wellFormed = false := by decide
theorem test_wf_hdrFail_got_is_at_most_2 : (Instr.doHdrFail 0x0 0x01 3 0).wellFormed = false := by decide
theorem test_wf_hdrFail_B_is_0 : (Instr.doHdrFail 0x0 0x01 1 1).wellFormed = false := by decide
theorem test_wf_hdrFail_without_a_type_byte : (Instr.doHdrFail 0x0 0x01 0 0).wellFormed = false := by decide
theorem test_wf_bodyFail_class_is_0 : (Instr.doBodyFail 0x2 0x02 3 1).wellFormed = false := by decide
theorem test_wf_bodyFail_actual_is_at_most_len : (Instr.doBodyFail 0x0 0x02 3 4).wellFormed = false := by decide
theorem test_wf_csumErr_class_is_0 : (Instr.doCsumErr 0x6 0x05 0 0xAFAE).wellFormed = false := by decide
theorem test_wf_csumErr_bytes_differ : (Instr.doCsumErr 0x0 0x05 0 0xAFAF).wellFormed = false := by decide
theorem test_wf_payload_class_is_0 : (Instr.doPayload 0x1 0x02 1 0x0A).wellFormed = false := by decide
theorem test_wf_payload_index_is_below_65535 : (Instr.doPayload 0x0 0x02 0xFFFF 0x0A).wellFormed = false := by decide
theorem test_wf_payload_is_one_byte : (Instr.doPayload 0x0 0x02 1 0x100).wellFormed = false := by decide
theorem test_wf_admits_the_spec_words :
    (Instr.doDecoded 0x1 0x01 8 0).wellFormed = true ∧ (Instr.doDecoded 0x8 0x01 7 0).wellFormed = true ∧
    (Instr.doHdrFail 0x0 0x01 2 0).wellFormed = true ∧ (Instr.doBodyFail 0x0 0x02 3 3).wellFormed = true ∧
    (Instr.doCsumErr 0x0 0x05 0 0xAFAE).wellFormed = true ∧
    (Instr.doPayload 0x0 0x07 0xFFFE 0).wellFormed = true := by decide

/-! ## Decoding: each constructor's word, bit by bit from R91 to R100 -/

theorem test_decode_sop : decode (.fi 0b00_00000101) = .ok (.sop 0x05) := by decide
theorem test_decode_data : decode (.fi 0b01_11111011) = .ok (.data 0xFB) := by decide
theorem test_decode_eop : decode (.fi 0b10_11111111) = .ok (.eop 0xFF) := by decide
theorem test_decode_rsvd : decode (.fi 0b11_01111111) = .ok (.rsvd 0x7F) := by decide
theorem test_decode_byte : decode (.di 0b0_10101010) = .ok (.byte 0xAA) := by decide
theorem test_decode_timeout : decode (.di 0b1_01011010) = .ok (.timeout 0x5A) := by decide
theorem test_decode_foByte : decode (.fo 0b1_10101111) = .ok (.foByte true 0xAF) := by decide
theorem test_decode_foByte_inside : decode (.fo 0b0_10101010) = .ok (.foByte false 0xAA) := by decide
theorem test_decode_fePayloadTooLarge : decode (.fe 0b0001) = .ok .fePayloadTooLarge := by decide
theorem test_decode_feDataWhileIdle : decode (.fe 0b0010) = .ok .feDataWhileIdle := by decide
theorem test_decode_feEopWhileIdle : decode (.fe 0b0011) = .ok .feEopWhileIdle := by decide
theorem test_decode_feSopWhileOpen : decode (.fe 0b0100) = .ok .feSopWhileOpen := by decide
theorem test_decode_feReservedOp : decode (.fe 0b0101) = .ok .feReservedOp := by decide
-- S3: DECODED KEYBOARD type=0x01 len=8.
theorem test_decode_doDecoded :
    decode (.dout 0b0001_0001_00000001_0000000000001000_0000000000000000) = .ok (.doDecoded 0x1 0x01 8 0) := by decide
-- S6: HDR_FAIL type=0x01 got=1.
theorem test_decode_doHdrFail :
    decode (.dout 0b0010_0000_00000001_0000000000000001_0000000000000000) = .ok (.doHdrFail 0x0 0x01 1 0) := by decide
-- S6: BODY_FAIL type=0x02 len=3 actual=1.
theorem test_decode_doBodyFail :
    decode (.dout 0b0011_0000_00000010_0000000000000011_0000000000000001) = .ok (.doBodyFail 0x0 0x02 3 1) := by decide
-- V-PD-10: CSUM_ERR type=0x05 len=0 computed=0xAF received=0xAE.
theorem test_decode_doCsumErr :
    decode (.dout 0b0100_0000_00000101_0000000000000000_1010111110101110) = .ok (.doCsumErr 0x0 0x05 0 0xAFAE) := by
  decide
-- S4: PAYLOAD i=2 b=0xFB.
theorem test_decode_doPayload :
    decode (.dout 0b1000_0000_00000010_0000000000000010_0000000011111011) = .ok (.doPayload 0x0 0x02 2 0xFB) := by
  decide
theorem test_decode_rejects_the_words_never_emitted :
    decode (.fe 0x0) = .error (.feCodeNeverEmitted 0x0) ∧ decode (.fe 0x6) = .error (.feCodeNeverEmitted 0x6) ∧
    decode (.dout 0x050500000000) = .error (.doKindNeverEmitted 0x0) ∧
    decode (.dout 0x550500000000) = .error (.doKindNeverEmitted 0x5) ∧
    decode (.dout 0x900500000000) = .error (.doKindNeverEmitted 0x9) := by decide
theorem test_encode_sop : encode (.sop 0x05) = .fi 0x005 := by decide
theorem test_encode_eop : encode (.eop 0xFF) = .fi 0x2FF := by decide
theorem test_encode_doPayload : encode (.doPayload 0x0 0x02 2 0xFB) = .dout 0x8002000200FB := by decide

/-! ## The host's word interface (log entries 1 and 2) -/

theorem test_table_words :
    decodeTableWord 16 0x1FB = some (.data 0xFB) ∧ decodeTableWord 9 0x15A = some (.timeout 0x5A) ∧
    decodeTableWord 8 0x5 = some .feReservedOp ∧ decodeTableWord 8 0x6 = none ∧ decodeTableWord 16 0x400 = none ∧
    decodeTableWord 48 0x160500000000 = some (.doDecoded 0x6 0x05 0 0) := by decide

/-- The instruction of a word runs as the first after reset: SOP. -/
theorem test_first_step_sop : step (State.reset.withFetchWord 16 0x005) =
    .next { State.reset with pf := { Pf.reset with mode := .opened, ftype := 0x05 } } := by rfl

theorem test_first_step_byte : step (State.reset.withFetchWord 9 0x0AA) =
    .next { State.reset with pd := { Pd.reset with mode := .hdr, csum := 0xAA } } := by rfl

theorem test_first_step_fe : step (State.reset.withFetchWord 8 0x3) = .next { State.reset with feTaken := [0x3] } := by
  rfl

theorem test_first_step_do : step (State.reset.withFetchWord 48 0x160500000000) =
    .next { State.reset with doTaken := [0x160500000000],
                             consumer := { current := none, events := [⟨0x160500000000, []⟩] } } := by rfl

theorem test_reset_idles : step State.reset = .next State.reset := by rfl

/-! ## Small states -/

/-- A buffer that lists a payload from an index on. -/
def bufFrom : Nat → List Byte → Memory
  | _, [] => []
  | i, b :: bs => (i, b) :: bufFrom (i + 1) bs

/-- PF with a packet of type `t` open that holds the payload `p`, its count given. -/
def opened (t : Byte) (n : Fin 65536) (p : List Byte) : State :=
  { State.reset with pf := { Pf.reset with mode := .opened, ftype := t, fcnt := n, buf := bufFrom 0 p } }

/-- PF with a packet of type `t` that overflowed. -/
def overflowed (t : Byte) : State :=
  { State.reset with pf := { Pf.reset with mode := .overflow, ftype := t, fcnt := 65535 } }

/-- PD after the start marker and `n` header bytes. -/
def inHdr (n : Fin 3) (t : Byte) (len : Half) (c : Byte) : State :=
  { State.reset with pd := { Pd.reset with mode := .hdr, hcnt := n, dtype := t, dlen := len, csum := c } }

/-- PD with a header taken and the payload `p` received, its count and the checksum given. -/
def inBody (t : Byte) (len : Half) (n : Fin 65536) (c : Byte) (p : List Byte) : State :=
  { State.reset with pd := { Pd.reset with mode := .body, dtype := t, dlen := len, bcnt := n, csum := c,
                                           buf := bufFrom 0 p } }

/-- PF with the given beats to deliver. -/
def pfOffers (q : List PfBeat) : State := { State.reset with pf := { Pf.reset with outq := q } }

/-- PD with the given words to deliver and the event consumer as given. -/
def pdOffers (q : List DoWord) (c : Consumer) : State :=
  { State.reset with pd := { Pd.reset with outq := q }, consumer := c }

/-- The event consumer with nothing received. -/
def noEvents : Consumer := { current := none, events := [] }

/-- The next state of an outcome, if it has one. -/
def after (o : Host.Outcome State Fault Refusal) : Option State :=
  match o with
  | .next s => some s
  | .fault _ => none
  | .refused _ => none

/-! ## PF (spec vectors) -/

-- V-PF-1: `sop 0x05`.
theorem test_sop_opens : after (exec (.sop 0x05) State.reset) = some (opened 0x05 0 []) := by decide
-- V-PF-12: the second SOP reports and discards the open packet.
theorem test_sop_while_open : after (exec (.sop 0x05) (opened 0x01 1 [0x02])) =
    some { opened 0x05 0 [0x02] with pf := { (opened 0x05 0 [0x02]).pf with outq := [.fe 0x4] } } := by decide
-- V-PF-3: the second payload byte.
theorem test_data_appends :
    after (exec (.data 0x0A) (opened 0x02 1 [0x01])) = some (opened 0x02 2 [0x01, 0x0A]) := by decide
-- V-PF-7: the 65536th payload byte.
theorem test_data_overflows : after (exec (.data 0x20) (opened 0x04 65535 [])) = some (overflowed 0x04) := by decide
-- V-PF-3: the whole mouse packet.
theorem test_eop_emits_the_packet : after (exec (.eop 0x00) (opened 0x02 3 [0x01, 0x0A, 0xFB])) =
    some { State.reset with pf := { Pf.reset with buf := bufFrom 0 [0x01, 0x0A, 0xFB],
                                                   outq := [.fo 0x0AA, .fo 0x002, .fo 0x003, .fo 0x000, .fo 0x001,
                                                            .fo 0x00A, .fo 0x0FB, .fo 0x15B] } } := by decide
-- V-PF-7: PAYLOAD_TOO_LARGE only.
theorem test_eop_after_overflow : after (exec (.eop 0x00) (overflowed 0x04)) = some (pfOffers [.fe 0x1]) := by decide
-- V-PF-15: the open packet survives.
theorem test_rsvd_keeps_the_packet : after (exec (.rsvd 0x7F) (opened 0x05 0 [])) =
    some { opened 0x05 0 [] with pf := { (opened 0x05 0 []).pf with outq := [.fe 0x5] } } := by decide

/-! ## PD (spec vectors) -/

-- V-PD-17: a byte of 0xAA after the start marker is the type.
theorem test_byte_in_hdr_is_the_type :
    after (exec (.byte 0xAA) (inHdr 0 0x00 0 0xAA)) = some (inHdr 1 0xAA 0 0x00) := by decide
-- V-PD-25: length_hi = 0x01 over length_lo = 0x03 is 259.
theorem test_byte_in_hdr_is_length_hi : after (exec (.byte 0x01) (inHdr 2 0x02 0x0003 0xAB)) =
    some (inBody 0x02 0x0103 0 0xAA []) := by decide
-- V-PD-8: TIMEOUT in the body.
theorem test_timeout_in_body : after (exec (.timeout 0x00) (inBody 0x02 3 1 0xAA [0x01])) =
    some { State.reset with pd := { Pd.reset with buf := [(0, 0x01)], outq := [0x300200030001] } } := by decide
-- V-PD-6: TIMEOUT in the header.
theorem test_timeout_in_hdr : after (exec (.timeout 0x5A) (inHdr 2 0x01 0x0008 0xA3)) =
    some (pdOffers [0x200100020000] noEvents) := by decide

/-! ## Delivery -/

theorem test_foByte_is_taken : after (exec (.foByte false 0xAA) (pfOffers [.fo 0x0AA, .fo 0x1AF])) =
    some { pfOffers [.fo 0x1AF] with foTaken := [0x0AA] } := by decide
theorem test_foByte_last_bit_counts :
    after (exec (.foByte true 0xAA) (pfOffers [.fo 0x0AA])) = some (pfOffers [.fo 0x0AA]) := by decide
theorem test_fePayloadTooLarge_is_taken : after (exec .fePayloadTooLarge (pfOffers [.fe 0x1])) =
    some { State.reset with feTaken := [0x1] } := by decide
theorem test_feDataWhileIdle_is_taken : after (exec .feDataWhileIdle (pfOffers [.fe 0x2])) =
    some { State.reset with feTaken := [0x2] } := by decide
theorem test_feEopWhileIdle_is_taken : after (exec .feEopWhileIdle (pfOffers [.fe 0x3])) =
    some { State.reset with feTaken := [0x3] } := by decide
theorem test_feSopWhileOpen_is_taken : after (exec .feSopWhileOpen (pfOffers [.fe 0x4])) =
    some { State.reset with feTaken := [0x4] } := by decide
theorem test_feReservedOp_is_taken : after (exec .feReservedOp (pfOffers [.fe 0x5])) =
    some { State.reset with feTaken := [0x5] } := by decide
-- V-DS-24: DECODED ACK with one payload byte opens an event, and its PAYLOAD word makes it whole.
theorem test_doDecoded_opens_an_event :
    after (exec (.doDecoded 0x6 0x05 1 0) (pdOffers [0x160500010000, 0x800500000055] noEvents)) =
      some { pdOffers [0x800500000055] ⟨some ⟨0x160500010000, []⟩, []⟩ with doTaken := [0x160500010000] } := by decide
theorem test_doPayload_ends_the_event :
    after (exec (.doPayload 0x0 0x05 0 0x55) (pdOffers [0x800500000055] ⟨some ⟨0x160500010000, []⟩, []⟩)) =
      some { pdOffers [] ⟨none, [⟨0x160500010000, [0x55]⟩]⟩ with doTaken := [0x800500000055] } := by decide
theorem test_doHdrFail_is_an_event : after (exec (.doHdrFail 0x0 0x01 1 0) (pdOffers [0x200100010000] noEvents)) =
    some { pdOffers [] ⟨none, [⟨0x200100010000, []⟩]⟩ with doTaken := [0x200100010000] } := by decide
theorem test_doBodyFail_is_an_event : after (exec (.doBodyFail 0x0 0x02 3 1) (pdOffers [0x300200030001] noEvents)) =
    some { pdOffers [] ⟨none, [⟨0x300200030001, []⟩]⟩ with doTaken := [0x300200030001] } := by decide
theorem test_doCsumErr_is_an_event : after (exec (.doCsumErr 0x0 0x05 0 0xAFAE) (pdOffers [0x40050000AFAE] noEvents)) =
    some { pdOffers [] ⟨none, [⟨0x40050000AFAE, []⟩]⟩ with doTaken := [0x40050000AFAE] } := by decide

/-! ## Packets, classes, interpretation and text -/

-- S1, S2: the packets of the source's examples.
theorem test_packets : packetBytes 0x02 [0x01, 0x0A, 0xFB] = [0xAA, 0x02, 0x03, 0x00, 0x01, 0x0A, 0xFB, 0x5B] ∧
    packetBytes 0x05 [] = [0xAA, 0x05, 0x00, 0x00, 0xAF] ∧ isPacket [0xAA, 0x05, 0x00, 0x00, 0xAF] = true ∧
    isPacket [0xAA, 0x05, 0x00, 0x00, 0xAE] = false := by decide
-- V-DS-1 to V-DS-12.
theorem test_classes_of_reports :
    classify 0x01 [0x02, 0, 0x04, 0, 0, 0, 0, 0] = .keyboard ∧ classify 0x01 [] = .malformed ∧
    classify 0x01 [0, 0, 0, 0, 0, 0, 0, 0, 0] = .malformed ∧ classify 0x02 [0x07, 0x80, 0x7F, 0x99] = .mouse ∧
    classify 0x02 [0x01, 0x02] = .malformed ∧ classify 0x03 [] = .ledUpdate := by decide
-- V-DS-13 to V-DS-22.
theorem test_classes_of_status : classify 0x04 [0xE2, 0x82, 0xAC] = .statusText ∧
    classify 0x04 [0xF4, 0x8F, 0xBF, 0xBF] = .statusText ∧ classify 0x04 [0xC3, 0x28] = .statusRaw ∧
    classify 0x04 [0xED, 0xA0, 0x80] = .statusRaw ∧ classify 0x04 [0xC0, 0x80] = .statusRaw ∧
    classify 0x04 [0xF4, 0x90, 0x80, 0x80] = .statusRaw ∧ classify 0x04 [0xE2, 0x82] = .statusRaw ∧
    classify 0x04 [0x80] = .statusRaw := by decide
-- V-DS-23 to V-DS-27.
theorem test_classes_of_the_rest : classify 0x05 [0x55] = .ack ∧ classify 0x06 [] = .unrecognized ∧
    classify 0xFF [0x01] = .unrecognized ∧ classify 0x00 [] = .unrecognized := by decide
-- V-DS-28.
theorem test_keyboard_meaning : interpret .keyboard [0xFF, 0x5A, 0x04, 0x04, 0x00, 0x29, 0x00, 0x00] =
    some (.keyboard allModifiers [0x04, 0x04, 0x00, 0x29, 0x00, 0x00] [0x04, 0x29]) := by decide
-- V-DS-7.
theorem test_mouse_meaning : interpret .mouse [0x07, 0x80, 0x7F, 0x99] =
    some (.mouse [.left, .right, .middle] (-128) 127) := by decide
-- V-DS-13, V-DS-15, V-DS-16: "OK", U+20AC, U+10FFFF.
theorem test_text : text [0x4F, 0x4B] = some [0x4F, 0x4B] ∧ text [0xE2, 0x82, 0xAC] = some [0x20AC] ∧
    text [0xF4, 0x8F, 0xBF, 0xBF] = some [0x10FFFF] ∧ text [0xC3, 0x28] = none := by decide
-- R102 to R104.
theorem test_reads_a_line :
    readPfLine "frame 0x02, [0x01, 10]" = some [.sop 0x02, .data 0x01, .data 0x0A, .eop 0x00] ∧
    readPdLine "packet 0x05, []" = some [.byte 0xAA, .byte 0x05, .byte 0x00, .byte 0x00, .byte 0xAF] ∧
    readPdLine "timeout" = some [.timeout 0x00] ∧ readPfLine "data 256" = none := by decide
-- V-PD-10, S3.
theorem test_shows_a_word :
    showInstr (.doCsumErr 0x0 0x05 0 0xAFAE) = some "CSUM_ERR type=0x05 len=0 computed=0xAF received=0xAE" ∧
    showInstr (.doDecoded 0x1 0x01 8 0) = some "DECODED KEYBOARD type=0x01 len=8" ∧
    showInstr (.foByte true 0xAF) = some "fo 0xAF last" := by decide

/-! ## Witnesses: states and operands that meet the hypotheses of each statement, clause by clause

A clause that asks for `exec i s = .next t` or `step s = .next t` is met by showing that there is such a `t`. -/

theorem bufFrom_reads (p : List Byte) : ∀ n i (h : i < p.length), (bufFrom n p).read (n + i) = some p[i] := by
  induction p with
  | nil => intro n i h; simp at h
  | cons b p ih =>
    intro n i h
    cases i with
    | zero => simp [bufFrom, Memory.read]
    | succ i =>
      have hne : ¬ n + (i + 1) = n := by omega
      simp only [bufFrom, Memory.read, if_neg hne, List.getElem_cons_succ]
      rw [show n + (i + 1) = n + 1 + i by omega]
      exact ih (n + 1) i (by simpa using h)

/-- A buffer can hold any payload of the longest length. -/
theorem bufFrom_memRead (p : List Byte) (hp : p.length ≤ 65535) (i : Nat) (h : i < p.length) :
    memRead (bufFrom 0 p) i = .ok p[i] := by
  have hi : i < Config.bufBytes := by show i < 65535; omega
  have hr := bufFrom_reads p 0 i h
  rw [Nat.zero_add] at hr
  simp [memRead, hi, hr]

/-- A machine in the middle of a run: PF holds two payload bytes, and the event consumer has taken the DECODED word and
one of the three PAYLOAD words of S4. -/
def midRun : State :=
  { opened 0x04 2 [0x4F, 0x4B] with
    pd := { Pd.reset with buf := bufFrom 0 [0x01, 0x0A, 0xFB], outq := [0x80020001000A, 0x8002000200FB] }
    consumer := ⟨some ⟨0x120200030000, [0x01]⟩, []⟩
    turns := [.eventConsumer] }

/-- A machine whose PD has taken one of three payload bytes (V-PD-8). -/
def bodyRun : State := inBody 0x02 3 1 0xAA [0x01]

theorem midRun_pf_inv : midRun.pf.Inv where
  idle := by decide
  overflow := by decide
  written := fun _ => ⟨[0x4F, 0x4B], by rfl⟩
  bufWf := by decide
  emitted := by decide

theorem midRun_emitted : ∀ w ∈ midRun.pd.outq, emittable (.dout w) = true := by
  show ∀ w ∈ [(0x80020001000A : DoWord), 0x8002000200FB], emittable (.dout w) = true
  intro w hw
  simp only [List.mem_cons, List.not_mem_nil, or_false] at hw
  rcases hw with rfl | rfl <;> rfl

theorem midRun_inv : midRun.Inv where
  pf := midRun_pf_inv
  pd :=
    { seek := by decide
      hdr := by decide
      hdrClear := by decide
      body := by decide
      written := fun h => absurd h (by decide)
      bufWf := by decide
      emitted := midRun_emitted }

theorem bodyRun_inv : bodyRun.Inv where
  pf :=
    { idle := by decide
      overflow := by decide
      written := fun h => absurd h (by decide)
      bufWf := by decide
      emitted := fun _ h => absurd h List.not_mem_nil }
  pd :=
    { seek := by decide
      hdr := by decide
      hdrClear := by decide
      body := by decide
      written := fun _ => ⟨[0x01], by rfl, by decide⟩
      bufWf := by decide
      emitted := fun _ h => absurd h List.not_mem_nil }

theorem midRun_aligned : midRun.eventsAligned :=
  ⟨by decide, [0x0A, 0xFB], by decide, by decide, by decide, by decide⟩

theorem witness_EachWordSpellsOneInstruction : decode (.dout 0x8002000200FB) = .ok (.doPayload 0x0 0x02 2 0xFB) := by
  decide

theorem witness_WellFormedPacketXorsToZero :
    ([] : List Byte).length = (0x0000 : Half).toNat ∧ ([0x4F, 0x4B] : List Byte).length = (0x0002 : Half).toNat ∧
    (List.replicate 65535 (0x00 : Byte)).length = (0xFFFF : Half).toNat :=
  ⟨rfl, rfl, List.length_replicate⟩

theorem witness_ResetStepResetsItsBlocks :
    ({ midRun with turns := [.integrator .shared] } : State).turns = .integrator .shared :: [] ∧
    ({ midRun with turns := [.integrator .pfOnly] } : State).turns = .integrator .pfOnly :: [] ∧
    ({ midRun with turns := [.integrator .pdOnly] } : State).turns = .integrator .pdOnly :: [] := ⟨rfl, rfl, rfl⟩

theorem witness_SopOpensAPacket :
    (State.reset.pf.outq = [] ∧ State.reset.pf.mode = .idle) ∧
    ((opened 0x01 1 [0x02]).pf.outq = [] ∧ (opened 0x01 1 [0x02]).pf.mode = .opened) ∧
    ((overflowed 0x01).pf.outq = [] ∧ (overflowed 0x01).pf.mode = .overflow) := by decide

theorem witness_DataStoresThePayloadByte :
    ((opened 0x02 0 []).pf.outq = [] ∧ (opened 0x02 0 []).pf.mode = .opened ∧ (opened 0x02 0 []).pf.fcnt.val < 65535) ∧
    ((opened 0x02 65534 []).pf.outq = [] ∧ (opened 0x02 65534 []).pf.mode = .opened ∧
      (opened 0x02 65534 []).pf.fcnt.val < 65535) := by decide

theorem witness_DataIsDroppedWhereItDoesNotFit :
    (State.reset.pf.outq = [] ∧ State.reset.pf.mode = .idle) ∧
    ((opened 0x04 65535 []).pf.outq = [] ∧ (opened 0x04 65535 []).pf.mode = .opened ∧
      (opened 0x04 65535 []).pf.fcnt.val = 65535) ∧
    ((overflowed 0x04).pf.outq = [] ∧ (overflowed 0x04).pf.mode = .overflow) := by decide

/-- For a payload of any length, the empty and the longest among them. -/
theorem witness_EopEmitsThePacket (p : List Byte) (hp : p.length ≤ 65535) :
    (opened 0x02 ⟨p.length, by omega⟩ p).pf.outq = [] ∧ (opened 0x02 ⟨p.length, by omega⟩ p).pf.mode = .opened ∧
    p.length = (opened 0x02 ⟨p.length, by omega⟩ p).pf.fcnt.val ∧
    ∀ i (h : i < p.length), memRead (opened 0x02 ⟨p.length, by omega⟩ p).pf.buf i = .ok p[i] :=
  ⟨rfl, rfl, rfl, bufFrom_memRead p hp⟩

theorem witness_EopReportsWithoutAPacket :
    (State.reset.pf.outq = [] ∧ State.reset.pf.mode = .idle) ∧
    ((overflowed 0x04).pf.outq = [] ∧ (overflowed 0x04).pf.mode = .overflow) := by decide

theorem witness_RsvdReportsReservedOp : State.reset.pf.outq = [] ∧ (opened 0x05 0 []).pf.outq = [] := by decide

theorem witness_PfInputFrame :
    (pfInput (.data 0x0A) = true ∧ ∃ t, exec (.data 0x0A) (opened 0x02 1 [0x01]) = .next t) ∧
    (pfInput (.sop 0x05) = true ∧ ∃ t, exec (.sop 0x05) (opened 0x02 1 [0x01]) = .next t) ∧
    (pfInput (.eop 0x00) = true ∧ ∃ t, exec (.eop 0x00) (opened 0x02 1 [0x01]) = .next t) ∧
    (pfInput (.rsvd 0x00) = true ∧ ∃ t, exec (.rsvd 0x00) (opened 0x02 1 [0x01]) = .next t) ∧
    -- an index that is not stored to: of the byte before, of the byte after, and of every byte when PF waits
    (0 : Nat) ≠ (opened 0x02 1 [0x01]).pf.fcnt.val ∧ (2 : Nat) ≠ (opened 0x02 1 [0x01]).pf.fcnt.val :=
  ⟨⟨rfl, _, rfl⟩, ⟨rfl, _, rfl⟩, ⟨rfl, _, rfl⟩, ⟨rfl, _, rfl⟩, by decide, by decide⟩

theorem witness_InputWaitsForDelivery :
    (pfInput (.sop 0x05) = true ∧ (pfOffers [.fe 0x1]).pf.outq ≠ []) ∧
    (pdInput (.byte 0xAA) = true ∧ (pdOffers [0x160500000000] noEvents).pd.outq ≠ []) ∧
    (({ pfOffers [.fe 0x1] with producer := [0x005], turns := [.producer] } : State).turns = .producer :: [] ∧
      ({ pfOffers [.fe 0x1] with producer := [0x005], turns := [.producer] } : State).pf.outq ≠ []) ∧
    (({ pdOffers [0x160500000000] noEvents with source := [0x0AA], turns := [.byteSource] } : State).turns =
        .byteSource :: [] ∧
      ({ pdOffers [0x160500000000] noEvents with source := [0x0AA], turns := [.byteSource] } : State).pd.outq ≠ []) := by
  decide

theorem witness_SeekTakesOnlyTheStartMarker :
    State.reset.pd.outq = [] ∧ State.reset.pd.mode = .seek ∧ (0xAB : Byte) ≠ 0xAA := by decide

theorem witness_HeaderBytesAreTaken :
    ((inHdr 0 0x00 0 0xAA).pd.outq = [] ∧ (inHdr 0 0x00 0 0xAA).pd.mode = .hdr ∧ (inHdr 0 0x00 0 0xAA).pd.hcnt = 0) ∧
    ((inHdr 1 0x02 0 0xA8).pd.outq = [] ∧ (inHdr 1 0x02 0 0xA8).pd.mode = .hdr ∧ (inHdr 1 0x02 0 0xA8).pd.hcnt = 1) ∧
    ((inHdr 2 0x02 3 0xAB).pd.outq = [] ∧ (inHdr 2 0x02 3 0xAB).pd.mode = .hdr ∧ (inHdr 2 0x02 3 0xAB).pd.hcnt = 2) := by
  decide

theorem witness_BodyStoresThePayloadByte :
    ((inBody 0x02 1 0 0xA9 []).pd.outq = [] ∧ (inBody 0x02 1 0 0xA9 []).pd.mode = .body ∧
      (inBody 0x02 1 0 0xA9 []).pd.bcnt.val < (inBody 0x02 1 0 0xA9 []).pd.dlen.toNat) ∧
    ((inBody 0x07 0xFFFF 65534 0xAD []).pd.outq = [] ∧ (inBody 0x07 0xFFFF 65534 0xAD []).pd.mode = .body ∧
      (inBody 0x07 0xFFFF 65534 0xAD []).pd.bcnt.val < (inBody 0x07 0xFFFF 65534 0xAD []).pd.dlen.toNat) := by decide

/-- For a payload of any length, the empty and the longest among them. -/
theorem witness_MatchedChecksumDecodesThePacket (p : List Byte) (hp : p.length ≤ 65535) :
    (inBody 0x02 (lengthField p) ⟨p.length, by omega⟩ 0x5B p).pd.outq = [] ∧
    (inBody 0x02 (lengthField p) ⟨p.length, by omega⟩ 0x5B p).pd.mode = .body ∧
    (inBody 0x02 (lengthField p) ⟨p.length, by omega⟩ 0x5B p).pd.bcnt.val =
      (inBody 0x02 (lengthField p) ⟨p.length, by omega⟩ 0x5B p).pd.dlen.toNat ∧
    p.length = (inBody 0x02 (lengthField p) ⟨p.length, by omega⟩ 0x5B p).pd.dlen.toNat ∧
    ∀ i (h : i < p.length), memRead (inBody 0x02 (lengthField p) ⟨p.length, by omega⟩ 0x5B p).pd.buf i = .ok p[i] :=
  ⟨rfl, rfl, (lengthField_toNat p hp).symm, (lengthField_toNat p hp).symm, bufFrom_memRead p hp⟩

theorem witness_MismatchedChecksumIsReported :
    ((inBody 0x05 0 0 0xAF []).pd.outq = [] ∧ (inBody 0x05 0 0 0xAF []).pd.mode = .body ∧
      (inBody 0x05 0 0 0xAF []).pd.bcnt.val = (inBody 0x05 0 0 0xAF []).pd.dlen.toNat ∧
      (0xAE : Byte) ≠ (inBody 0x05 0 0 0xAF []).pd.csum) ∧
    (inBody 0x07 0xFFFF 65535 0xAD []).pd.bcnt.val = (inBody 0x07 0xFFFF 65535 0xAD []).pd.dlen.toNat := by decide

theorem witness_TimeoutEndsThePacketAttempt :
    (State.reset.pd.outq = [] ∧ State.reset.pd.mode = .seek) ∧
    ((inHdr 0 0x00 0 0xAA).pd.outq = [] ∧ (inHdr 0 0x00 0 0xAA).pd.mode = .hdr) ∧
    (bodyRun.pd.outq = [] ∧ bodyRun.pd.mode = .body) := by decide

theorem witness_PdInputFrame :
    (pdInput (.byte 0x0A) = true ∧ ∃ t, exec (.byte 0x0A) bodyRun = .next t) ∧
    (pdInput (.timeout 0x00) = true ∧ ∃ t, exec (.timeout 0x00) bodyRun = .next t) ∧
    (0 : Nat) ≠ bodyRun.pd.bcnt.val ∧ (2 : Nat) ≠ bodyRun.pd.bcnt.val :=
  ⟨⟨rfl, _, rfl⟩, ⟨rfl, _, rfl⟩, by decide, by decide⟩

theorem witness_StartMarkerIsTakenOnlyInSeek :
    ((inHdr 0 0x00 0 0xAA).pd.outq = [] ∧ (inHdr 0 0x00 0 0xAA).pd.mode ≠ .seek ∧
      ∃ t, exec (.byte 0xAA) (inHdr 0 0x00 0 0xAA) = .next t) ∧
    (bodyRun.pd.outq = [] ∧ bodyRun.pd.mode ≠ .seek ∧ ∃ t, exec (.byte 0xAA) bodyRun = .next t) :=
  ⟨⟨rfl, by decide, _, rfl⟩, ⟨rfl, by decide, _, rfl⟩⟩

theorem witness_NoPayloadBeforeTheChecksumMatches :
    (inBody 0x05 1 1 0xFB [0x55]).pd.outq = [] ∧
    ∃ t, exec (.byte 0xFB) (inBody 0x05 1 1 0xFB [0x55]) = .next t ∧ (0x800500000055 : DoWord) ∈ t.pd.outq ∧
      DoKind.ofCode (doKindField 0x800500000055) = some .payload :=
  ⟨rfl, _, rfl, by decide, by decide⟩

theorem witness_WordsCausedByAnInputBeat :
    (bodyRun.pd.outq = [] ∧ ∃ t, exec (.byte 0x0A) bodyRun = .next t) ∧
    ((inBody 0x05 1 1 0xFB [0x55]).pd.outq = [] ∧ ∃ t, exec (.byte 0xFB) (inBody 0x05 1 1 0xFB [0x55]) = .next t) ∧
    (∃ t, exec (.timeout 0x00) bodyRun = .next t) ∧ ∃ t, exec (.timeout 0x00) State.reset = .next t :=
  ⟨⟨rfl, _, rfl⟩, ⟨rfl, _, rfl⟩, ⟨_, rfl⟩, _, rfl⟩

theorem witness_PdReturnsToSeek :
    bodyRun.Inv ∧ bodyRun.pd.outq = [] ∧ bodyRun.pd.mode ≠ .seek ∧
    (List.replicate 65539 (0xAA : Byte)).length = 65539 :=
  ⟨bodyRun_inv, rfl, by decide, List.length_replicate⟩

theorem witness_FoByteIsDelivered : (pfOffers [.fo 0x1AF]).pf.outq = .fo (foWord true 0xAF) :: [] := by decide

theorem witness_FeCodesAreDelivered :
    (pfOffers [.fe 0x1]).pf.outq = .fe 0x1 :: [] ∧ (pfOffers [.fe 0x2]).pf.outq = .fe 0x2 :: [] ∧
    (pfOffers [.fe 0x3]).pf.outq = .fe 0x3 :: [] ∧ (pfOffers [.fe 0x4]).pf.outq = .fe 0x4 :: [] ∧
    (pfOffers [.fe 0x5]).pf.outq = .fe 0x5 :: [] := by decide

theorem witness_FailureWordsAreDelivered :
    (pdOffers [0x200100010000] noEvents).pd.outq = doWord .hdrFail 0x0 0x01 1 0 :: [] ∧
    (pdOffers [0x300200030001] noEvents).pd.outq = doWord .bodyFail 0x0 0x02 3 1 :: [] ∧
    (pdOffers [0x40050000AFAE] noEvents).pd.outq = doWord .csumErr 0x0 0x05 0 0xAFAE :: [] := by decide

/-- The clauses in order: a DECODED word; a PAYLOAD word with no event open, with one that it makes whole, and with one
that it does not. -/
theorem witness_DecodedAndPayloadWordsAreDelivered :
    (pdOffers [0x160500000000] noEvents).pd.outq = doWord .decoded 0x6 0x05 0 0 :: [] ∧
    ((pdOffers [0x80020001000A] noEvents).pd.outq = doWord .payload 0x0 0x02 1 0x0A :: [] ∧
      (pdOffers [0x80020001000A] noEvents).consumer.current = none) ∧
    ((pdOffers [0x800500000055] ⟨some ⟨0x160500010000, []⟩, []⟩).pd.outq = doWord .payload 0x0 0x05 0 0x55 :: [] ∧
      ([] : List Byte).length + 1 = (doA 0x160500010000).toNat) ∧
    (midRun.pd.outq = doWord .payload 0x0 0x02 1 0x0A :: [0x8002000200FB] ∧
      midRun.consumer.current = some ⟨0x120200030000, [0x01]⟩ ∧
      ([0x01] : List Byte).length + 1 ≠ (doA 0x120200030000).toNat) := by decide

theorem witness_UnofferedBeatDoesNotTransfer :
    (encode (.foByte false 0xAA) = .fo 0x0AA ∧ (pfOffers [.fe 0x1, .fo 0x0AA]).pf.outq.head? ≠ some (.fo 0x0AA)) ∧
    (encode .feSopWhileOpen = .fe 0x4 ∧ State.reset.pf.outq.head? ≠ some (.fe 0x4)) ∧
    (encode (.doDecoded 0x6 0x05 0 0) = .dout 0x160500000000 ∧ midRun.pd.outq.head? ≠ some 0x160500000000) := by decide

theorem witness_PortsAreFifo :
    (pfInput (.doPayload 0x0 0x02 1 0x0A) = false ∧ pdInput (.doPayload 0x0 0x02 1 0x0A) = false ∧
      ∃ t, exec (.doPayload 0x0 0x02 1 0x0A) midRun = .next t) ∧
    (pfInput (.eop 0x00) = true ∧ ∃ t, exec (.eop 0x00) midRun = .next t) ∧
    (pdInput (.byte 0x0A) = true ∧ ∃ t, exec (.byte 0x0A) bodyRun = .next t) :=
  ⟨⟨rfl, rfl, _, rfl⟩, ⟨rfl, _, rfl⟩, rfl, _, rfl⟩

/-- The agents in the order of the clauses. -/
theorem witness_StepRunsTheDecodedBeat :
    (({ State.reset with turns := [.producer], producer := [0x005] } : State).pf.outq = [] ∧
      decode (.fi 0x005) = .ok (.sop 0x05)) ∧
    (({ State.reset with turns := [.byteSource], source := [0x0AA] } : State).pd.outq = [] ∧
      decode (.di 0x0AA) = .ok (.byte 0xAA)) ∧
    (({ pfOffers [.fo 0x1AF] with turns := [.byteSink] } : State).pf.outq = .fo 0x1AF :: [] ∧
      decode (.fo 0x1AF) = .ok (.foByte true 0xAF)) ∧
    (({ pfOffers [.fe 0x4] with turns := [.errorConsumer] } : State).pf.outq = .fe 0x4 :: [] ∧
      decode (.fe 0x4) = .ok .feSopWhileOpen) ∧
    (midRun.turns = .eventConsumer :: [] ∧ midRun.pd.outq = 0x80020001000A :: [0x8002000200FB] ∧
      decode (.dout 0x80020001000A) = .ok (.doPayload 0x0 0x02 1 0x0A)) := by decide

theorem witness_StepWithoutATransferKeepsTheState :
    State.reset.turns = [] ∧
    (({ State.reset with turns := [.producer] } : State).producer = []) ∧
    (({ State.reset with turns := [.byteSource] } : State).source = []) ∧
    (({ pfOffers [.fe 0x1] with turns := [.byteSink] } : State).foValid = false) ∧
    (({ pfOffers [.fo 0x0AA] with turns := [.errorConsumer] } : State).feValid = false) ∧
    (({ State.reset with turns := [.eventConsumer] } : State).doValid = false) := by decide

theorem witness_StepKeepsTheInvariants : midRun.Inv ∧ ∃ t, step midRun = .next t := ⟨midRun_inv, _, rfl⟩

theorem witness_NoStepFaultsOrRefuses : midRun.Inv ∧ bodyRun.Inv := ⟨midRun_inv, bodyRun_inv⟩

theorem witness_ConsumerReceivesWholeEvents :
    midRun.Inv ∧ midRun.eventsAligned ∧ (∀ e ∈ midRun.consumer.events, e.whole) ∧ ∃ t, step midRun = .next t :=
  ⟨midRun_inv, midRun_aligned, fun _ h => absurd h List.not_mem_nil, _, rfl⟩

theorem witness_QueuesAreBounded :
    (pfOffers (List.replicate 65540 (.fo 0x000))).pf.outq.length ≤ 65540 ∧
    (pdOffers (List.replicate 65536 0x800700000000) noEvents).pd.outq.length ≤ 65536 ∧
    (∃ t, step (pfOffers (List.replicate 65540 (.fo 0x000))) = .next t) ∧
    ∃ t, step (pdOffers (List.replicate 65536 0x800700000000) noEvents) = .next t :=
  ⟨Nat.le_of_eq List.length_replicate, Nat.le_of_eq List.length_replicate, ⟨_, rfl⟩, _, rfl⟩

/-- Two states that agree on one block and differ on the other. -/
theorem witness_BlocksAreIndependent :
    (atPf (.eop 0x00) = true ∧ midRun.pf = (opened 0x04 2 [0x4F, 0x4B]).pf ∧
      midRun.pd ≠ (opened 0x04 2 [0x4F, 0x4B]).pd ∧ midRun.foTaken = (opened 0x04 2 [0x4F, 0x4B]).foTaken ∧
      midRun.feTaken = (opened 0x04 2 [0x4F, 0x4B]).feTaken ∧ (after (exec (.eop 0x00) midRun)).isSome = true) ∧
    (atPf (.timeout 0x00) = false ∧ ({ bodyRun with pf := midRun.pf } : State).pd = bodyRun.pd ∧
      ({ bodyRun with pf := midRun.pf } : State).pf ≠ bodyRun.pf ∧
      (after (exec (.timeout 0x00) bodyRun)).isSome = true) := by decide

theorem witness_DrainingEmptiesTheQueues : midRun.Inv ∧ midRun.pd.outq.length = 2 := ⟨midRun_inv, rfl⟩

theorem witness_FramerComputesTheEncoder :
    State.reset.pf.mode = .idle ∧ State.reset.pf.outq = [] ∧
    (List.replicate 65535 (0x20 : Byte)).length ≤ 65535 ∧ 65535 < (List.replicate 65536 (0x20 : Byte)).length :=
  ⟨rfl, rfl, Nat.le_of_eq List.length_replicate, by rw [List.length_replicate]; omega⟩

theorem witness_RoundTrip :
    ([] : List Byte).length ≤ 65535 ∧ (List.replicate 65535 (0xAA : Byte)).length ≤ 65535 ∧
    State.reset.pd.mode = .seek ∧ State.reset.pd.outq = [] :=
  ⟨by decide, Nat.le_of_eq List.length_replicate, rfl, rfl⟩

-- S5: the noise `01 02` and `33`.
theorem witness_Resynchronisation :
    (∀ i ∈ [Instr.byte 0x01, .timeout 0x00, .byte 0x02], noise i) ∧ (∀ i ∈ [Instr.byte 0x33], noise i) ∧
    ([] : List Byte).length ≤ 65535 ∧ ([0x02, 0, 0x04, 0, 0, 0, 0, 0] : List Byte).length ≤ 65535 ∧
    State.reset.pd.mode = .seek ∧ State.reset.pd.outq = [] ∧ State.reset.consumer.current = none := by
  refine ⟨fun i hi => ?_, fun i hi => ?_, by decide, by decide, rfl, rfl, rfl⟩
  · simp only [List.mem_cons, List.not_mem_nil, or_false] at hi
    rcases hi with rfl | rfl | rfl
    · exact .inr ⟨_, by decide, rfl⟩
    · exact .inl ⟨_, rfl⟩
    · exact .inr ⟨_, by decide, rfl⟩
  · simp only [List.mem_cons, List.not_mem_nil, or_false] at hi
    exact .inr ⟨0x33, by decide, hi⟩

/-- The shortest and the longest truncation of each clause, in a machine in SEEK that meets the invariants. -/
theorem witness_TruncationRecovery :
    (1 ≤ 1 ∧ 1 < ([] : List Byte).length + 5 ∧ 1 ≤ 3) ∧ (3 < ([] : List Byte).length + 5 ∧ 3 ≤ 3) ∧
    (4 < ([] : List Byte).length + 5 ∧ 4 ≤ 4) ∧ 7 < ([0x01, 0x0A, 0xFB] : List Byte).length + 5 ∧
    ({ midRun.pd with outq := [] } : Pd).Inv ∧ ({ midRun.pd with outq := [] } : Pd).mode = .seek :=
  ⟨by decide, by decide, by decide, by decide,
    ⟨midRun_inv.pd.seek, midRun_inv.pd.hdr, midRun_inv.pd.hdrClear, midRun_inv.pd.body, midRun_inv.pd.written,
      midRun_inv.pd.bufWf, fun _ h => absurd h List.not_mem_nil⟩, rfl⟩

/-- The type byte, the first payload byte and the checksum byte of S4, with the lowest and the highest bit. -/
theorem witness_OneBitChangeIsDetected :
    ([0x01, 0x0A, 0xFB] : List Byte).length ≤ 65535 ∧ 0 < 8 ∧ 7 < 8 ∧
    ((1 = 1 ∨ (4 ≤ 1 ∧ 1 < ([0x01, 0x0A, 0xFB] : List Byte).length + 5)) ∧
      ([0xAA, 0x03, 0x03, 0x00, 0x01, 0x0A, 0xFB, 0x5B] : List Byte) =
        (packetBytes 0x02 [0x01, 0x0A, 0xFB]).modify 1 (· ^^^ (1#8 <<< 0))) ∧
    ((4 = 1 ∨ (4 ≤ 4 ∧ 4 < ([0x01, 0x0A, 0xFB] : List Byte).length + 5)) ∧
      ([0xAA, 0x02, 0x03, 0x00, 0x81, 0x0A, 0xFB, 0x5B] : List Byte) =
        (packetBytes 0x02 [0x01, 0x0A, 0xFB]).modify 4 (· ^^^ (1#8 <<< 7))) ∧
    ((7 = 1 ∨ (4 ≤ 7 ∧ 7 < ([0x01, 0x0A, 0xFB] : List Byte).length + 5)) ∧
      ([0xAA, 0x02, 0x03, 0x00, 0x01, 0x0A, 0xFB, 0xDB] : List Byte) =
        (packetBytes 0x02 [0x01, 0x0A, 0xFB]).modify 7 (· ^^^ (1#8 <<< 7))) ∧
    State.reset.pd.mode = .seek ∧ State.reset.pd.outq = [] := by decide

-- V-PD-26.
theorem witness_SameBitChangedTwiceIsNotDetected :
    ([0x01, 0x0A, 0xFB] : List Byte).length ≤ 65535 ∧ 0 < 8 ∧ 0 < 1 ∧ 1 < ([0x01, 0x0A, 0xFB] : List Byte).length ∧
    State.reset.pd.mode = .seek ∧ State.reset.pd.outq = [] := by decide

theorem witness_ClassifyFollowsTheTable :
    ([0x02, 0, 0x04, 0, 0, 0, 0, 0] : List Byte).length = 8 ∧ ([0, 0, 0, 0, 0, 0, 0] : List Byte).length ≠ 8 ∧
    3 ≤ ([0x01, 0x0A, 0xFB] : List Byte).length ∧ ([0x01, 0x02] : List Byte).length < 3 ∧
    utf8Valid [0x4F, 0x4B] = true ∧ utf8Valid [0xC3, 0x28] = false ∧ 6 ≤ (0x06 : Byte).toNat ∧
    6 ≤ (0xFF : Byte).toNat := by decide

theorem witness_TextIsDefinedForValidUtf8 :
    text [0xED, 0x9F, 0xBF] = some [0xD7FF] ∧ text [0xEE, 0x80, 0x80] = some [0xE000] ∧
    text [0xF4, 0x8F, 0xBF, 0xBF] = some [0x10FFFF] := by decide

/-- R227: U+20AC, then the first and the last bytes of a row; a surrogate and an overlong form are no concatenation. -/
theorem witness_Utf8ValidIsConcatenation :
    Utf8Concat [0xE2, 0x82, 0xAC, 0xF4, 0x8F, 0xBF, 0xBF, 0x00] ∧ ¬ Utf8Concat [0xED, 0xA0, 0x80] ∧
    ¬ Utf8Concat [0xC0, 0x80] := by
  refine ⟨.seq3b _ _ _ _ (by decide) (by decide) (by decide)
    (.seq4c _ _ _ _ _ rfl (by decide) (by decide) (by decide) (.seq1 _ _ (by decide) .nil)), fun h => ?_, fun h => ?_⟩
  · cases h <;> simp_all
  · cases h <;> simp_all

/-- An event of each class, in the order of their codes. -/
theorem witness_EveryDecodedEventHasAMeaning :
    (PacketClass.ledUpdate ∈ [.ledUpdate, .statusRaw, .ack, .unrecognized, .malformed]) ∧
    ∀ e ∈ [(⟨0x110100080000, [0x02, 0, 0x04, 0, 0, 0, 0, 0]⟩ : Event), ⟨0x120200030000, [0x01, 0x0A, 0xFB]⟩,
        ⟨0x130300010000, [0x07]⟩, ⟨0x140400020000, [0x4F, 0x4B]⟩, ⟨0x150400020000, [0xC3, 0x28]⟩, ⟨0x160500000000, []⟩,
        ⟨0x170600000000, []⟩, ⟨0x180100010000, [0x00]⟩],
      e.payload.length = (doA e.word).toNat ∧ doClassField e.word = (classify (doTypeField e.word) e.payload).code ∧
      DoKind.ofCode (doKindField e.word) = some .decoded := by decide

/-- A run of PF in which the error consumer has its turn too early and then in time, and one of PD. -/
theorem witness_RunResultDoesNotDependOnThePace :
    (noReset [.errorConsumer, .producer, .errorConsumer] ∧ ∃ t,
      steps 3 { State.reset with producer := [0x200], turns := [.errorConsumer, .producer, .errorConsumer] } = .next t ∧
      t.pfRunOver ∧ t.feTaken = [0x3]) ∧
    (noReset [.byteSource, .byteSource, .eventConsumer] ∧ ∃ t,
      steps 3 { State.reset with source := [0x0AA, 0x100], turns := [.byteSource, .byteSource, .eventConsumer] } =
        .next t ∧ t.pdRunOver ∧ t.doTaken = [0x200000000000]) :=
  ⟨⟨fun target => by cases target <;> decide, _, rfl, by decide, by decide⟩,
    fun target => by cases target <;> decide, _, rfl, by decide, by decide⟩

/-- A round of turns for each block, each agent of the block in it. -/
def pfRound : List Turn := [.byteSink, .errorConsumer, .eventConsumer, .producer]
def pdRound : List Turn := [.eventConsumer, .producer, .byteSource]

/-- As many rounds as the two words in `outq` ask for, and as many as one beat of input and an empty `outq` ask for. -/
theorem witness_FairRunsEnd :
    (∀ r ∈ List.replicate 2 pdRound, .byteSource ∈ r ∧ .eventConsumer ∈ r) ∧
    (∀ r ∈ List.replicate 65537 pdRound, .byteSource ∈ r ∧ .eventConsumer ∈ r) ∧
    (∀ r ∈ List.replicate 65541 pfRound, .producer ∈ r ∧ .byteSink ∈ r ∧ .errorConsumer ∈ r) ∧
    ({ midRun with turns := (List.replicate 2 pdRound).flatten } : State).Inv ∧
    midRun.pd.outq.length + 65537 * midRun.source.length ≤ (List.replicate 2 pdRound).length ∧
    ({ bodyRun with source := [0x00A], turns := (List.replicate 65537 pdRound).flatten } : State).Inv ∧
    bodyRun.pd.outq.length + 65537 * [(0x00A : DiWord)].length ≤ (List.replicate 65537 pdRound).length ∧
    ({ midRun with producer := [0x200], turns := (List.replicate 65541 pfRound).flatten } : State).Inv ∧
    midRun.pf.outq.length + 65541 * [(0x200 : FiWord)].length ≤ (List.replicate 65541 pfRound).length :=
  ⟨by decide, fun r hr => by rw [List.eq_of_mem_replicate hr]; decide,
    fun r hr => by rw [List.eq_of_mem_replicate hr]; decide, ⟨midRun_inv.pf, midRun_inv.pd⟩, by decide,
    ⟨bodyRun_inv.pf, bodyRun_inv.pd⟩, by rw [List.length_replicate]; decide, ⟨midRun_inv.pf, midRun_inv.pd⟩,
    by rw [List.length_replicate]; decide⟩

end Sys2Proof.Tests
end

section
/-! The proofs about the reset state and the invariants: each rule of PF and PD keeps the invariant of its block, so every
operation and every step keeps the invariant of the machine (spec/10_state.md R39, R48, R50, spec/20_memory.md R74). -/

namespace Sys2Proof.Machine

/-! ## The halves of a 16-bit field -/

@[simp] theorem lo_checksumPair (computed received : Byte) : lo (checksumPair computed received) = received := by
  rw [checksumPair_eq_append]
  exact BitVec.extractLsb'_append_eq_right

@[simp] theorem hi_checksumPair (computed received : Byte) : hi (checksumPair computed received) = computed := by
  rw [checksumPair_eq_append]
  exact BitVec.extractLsb'_append_eq_left

theorem lo_joinHi (len : Half) (b : Byte) : lo (joinHi len b) = lo len := by
  unfold lo joinHi zext16
  apply BitVec.eq_of_getLsbD_eq
  intro i hi
  simp [hi]

/-- The length register holds only the low byte until the high byte joins it (R83). -/
theorem hi_joinHi (len : Half) (b : Byte) (h : len.toNat < 256) : hi (joinHi len b) = b := by
  unfold hi joinHi zext16
  apply BitVec.eq_of_getLsbD_eq
  intro i hi
  have hin : 8 + i < 16 ∧ i < 16 := by omega
  have hlen : len[8 + i] = false := by
    rw [BitVec.getElem_eq_testBit_toNat]
    exact Nat.testBit_lt_two_pow (Nat.lt_of_lt_of_le h (Nat.pow_le_pow_right Nat.two_pos (Nat.le_add_right 8 i)))
  simp [hi, hin, hlen]

/-! ## Words that the hardware emits -/

@[simp] theorem emittable_fo (w : FoWord) : emittable (.fo w) = true := rfl

@[simp] theorem emittable_feCode (c : FeCode) : emittable (.fe c.code) = true := by cases c <;> rfl

/-- A `do` word is emittable when its fields are those of a well-formed instruction. -/
theorem emittable_doWord (k : DoKind) (cls : Nibble) (ty : Byte) (a b : Half) :
    emittable (.dout (doWord k cls ty a b)) = (doInstr k cls ty a b).wellFormed := by
  simp [emittable, decode, decodeDo_doWord]

theorem emittable_hdrFail (t : Byte) (n : Fin 3) (h : n.val < 1 → t = 0x00) :
    emittable (.dout (doWord .hdrFail 0 t (BitVec.ofNat 16 n.val) 0x0000)) = true := by
  rw [emittable_doWord]
  match n with
  | 0 => simp [doInstr, Instr.wellFormed, h (by decide)]
  | 1 => rfl
  | 2 => rfl

theorem emittable_bodyFail (t : Byte) (len : Half) (n : Fin 65536) (h : n.val ≤ len.toNat) :
    emittable (.dout (doWord .bodyFail 0 t len (BitVec.ofNat 16 n.val))) = true := by
  rw [emittable_doWord]
  simp only [doInstr, Instr.wellFormed, toNat_ofNat_half n.isLt]
  simpa using h

theorem emittable_csumErr (t : Byte) (len : Half) (computed received : Byte) (h : received ≠ computed) :
    emittable (.dout (doWord .csumErr 0 t len (checksumPair computed received))) = true := by
  rw [emittable_doWord]
  show ((0 : Nibble) == 0 && !(hi (checksumPair computed received) == lo (checksumPair computed received))) = true
  simp [h.symm]

/-- The class of a packet is one that its DECODED word can carry. -/
theorem emittable_decoded (t : Byte) (len : Half) (p : List Byte) (h : p.length = len.toNat) :
    emittable (.dout (doWord .decoded (classify t p).code t len 0x0000)) = true := by
  rw [emittable_doWord]
  simp [doInstr, Instr.wellFormed, classFieldFits, ← h, classify_fits]

/-- The indices of a payload that ends at 65535 or before fit the field `A`. -/
theorem emittable_payloadWords (t : Byte) (p : List Byte) :
    ∀ n, n + p.length ≤ 65535 → ∀ w ∈ payloadWords t n p, emittable (.dout w) = true := by
  induction p with
  | nil => intro n _ w hw; cases hw
  | cons b p ih =>
    intro n hn w hw
    rw [List.length_cons] at hn
    rcases List.mem_cons.mp hw with rfl | hw
    · have hb := b.isLt
      rw [emittable_doWord]
      simp only [doInstr, Instr.wellFormed, zext16_toNat, toNat_ofNat_half (by omega : n < 65536), Config.maxPayload]
      simp only [Bool.and_eq_true, decide_eq_true_eq]
      exact ⟨⟨rfl, by omega⟩, hb⟩
    · exact ih (n + 1) (by omega) w hw

theorem emittable_decodedWords (t : Byte) (len : Half) (p : List Byte) (h : p.length = len.toNat) :
    ∀ w ∈ decodedWords t len p, emittable (.dout w) = true := by
  intro w hw
  have hlen := len.isLt
  rcases List.mem_cons.mp hw with rfl | hw
  · exact emittable_decoded t len p h
  · exact emittable_payloadWords t p 0 (by omega) w hw

/-! ## PF keeps its invariant -/

theorem Pf.reset_inv : Pf.reset.Inv where
  idle := fun _ => ⟨rfl, rfl⟩
  overflow := fun h => nomatch h
  written := fun h => nomatch h
  bufWf := Memory.reset_wf.1
  emitted := fun _ h => nomatch h

theorem Pf.Inv.emit {pf : Pf} (h : pf.Inv) {bs : List PfBeat} (hbs : ∀ b ∈ bs, emittable b.beat = true) :
    (pf.emit bs).Inv where
  idle := h.idle
  overflow := h.overflow
  written := h.written
  bufWf := h.bufWf
  emitted := fun b hb => (List.mem_append.mp hb).elim (h.emitted b) (hbs b)

theorem Pf.Inv.raise {pf : Pf} (h : pf.Inv) (c : FeCode) : (pf.raise c).Inv :=
  h.emit fun _ hb => List.mem_singleton.mp hb ▸ emittable_feCode c

/-- The beats of a packet are `fo` beats. -/
theorem Pf.Inv.emitFrame {pf : Pf} (h : pf.Inv) (t : Byte) (p : List Byte) : (pf.emit (frameBeats t p)).Inv :=
  h.emit fun b hb => by
    obtain ⟨bl, -, rfl⟩ := List.mem_map.mp hb
    exact emittable_fo _

theorem Pf.Inv.openPacket {pf : Pf} (h : pf.Inv) (d : Byte) : (pf.openPacket d).Inv where
  idle := fun hm => nomatch hm
  overflow := fun hm => nomatch hm
  written := fun _ => ⟨[], rfl⟩
  bufWf := h.bufWf
  emitted := h.emitted

theorem Pf.Inv.closePacket {pf : Pf} (h : pf.Inv) : pf.closePacket.Inv where
  idle := fun _ => ⟨rfl, rfl⟩
  overflow := fun hm => nomatch hm
  written := fun hm => nomatch hm
  bufWf := h.bufWf
  emitted := h.emitted

/-- Storing the next payload byte extends the written range (R74, R124). -/
theorem Pf.Inv.store {pf : Pf} (h : pf.Inv) (d : Byte) (hm : pf.mode = .opened) (hlt : pf.fcnt.val < 65535) :
    Pf.Inv { pf with buf := pf.buf.write pf.fcnt.val d, fcnt := ⟨pf.fcnt.val + 1, by omega⟩ } where
  idle := fun hi => by simp [hm] at hi
  overflow := fun ho => by simp [hm] at ho
  written := fun _ =>
    let ⟨p, hp⟩ := h.written hm
    ⟨p ++ [d], readRange_append pf.buf pf.fcnt.val p d hp hlt⟩
  bufWf := Memory.write_wf pf.buf pf.fcnt.val d h.bufWf hlt
  emitted := h.emitted

theorem Pf.Inv.overflows {pf : Pf} (h : pf.Inv) (hc : pf.fcnt.val = 65535) : Pf.Inv { pf with mode := .overflow } where
  idle := fun hm => nomatch hm
  overflow := fun _ => hc
  written := fun hm => nomatch hm
  bufWf := h.bufWf
  emitted := h.emitted

theorem Pf.Inv.sop {pf pf' : Pf} {d : Byte} (h : pf.Inv) (hr : Pf.sop d pf = .ok pf') : pf'.Inv := by
  rcases Pf.sop_ok hr with ⟨-, rfl⟩ | ⟨-, rfl⟩
  · exact h.openPacket d
  · exact (h.raise _).openPacket d

theorem Pf.Inv.data {pf pf' : Pf} {d : Byte} (h : pf.Inv) (hr : Pf.data d pf = .ok pf') : pf'.Inv := by
  rcases Pf.data_ok hr with ⟨-, rfl⟩ | ⟨hm, hlt, rfl⟩ | ⟨-, hc, rfl⟩ | ⟨-, rfl⟩
  · exact h.raise _
  · exact h.store d hm hlt
  · exact h.overflows hc
  · exact h

theorem Pf.Inv.eop {pf pf' : Pf} (h : pf.Inv) (hr : pf.eop = .ok pf') : pf'.Inv := by
  rcases Pf.eop_ok hr with ⟨-, rfl⟩ | ⟨-, p, -, rfl⟩ | ⟨-, rfl⟩
  · exact h.raise _
  · exact (h.emitFrame pf.ftype p).closePacket
  · exact (h.raise _).closePacket

theorem Pf.Inv.rsvd {pf pf' : Pf} (h : pf.Inv) (hr : pf.rsvd = .ok pf') : pf'.Inv := by
  cases hr
  exact h.raise _

/-- A beat that leaves the queue leaves legal beats behind. -/
theorem Pf.Inv.deliver {pf : Pf} (h : pf.Inv) {b : PfBeat} {rest : List PfBeat} (hq : pf.outq = b :: rest) :
    Pf.Inv { pf with outq := rest } where
  idle := h.idle
  overflow := h.overflow
  written := h.written
  bufWf := h.bufWf
  emitted := fun c hc => h.emitted c (hq ▸ List.mem_cons_of_mem b hc)

/-! ## PD keeps its invariant -/

theorem Pd.reset_inv : Pd.reset.Inv where
  seek := fun _ => ⟨rfl, rfl, rfl, rfl, rfl⟩
  hdr := fun h => nomatch h
  hdrClear := fun h => nomatch h
  body := fun h => nomatch h
  written := fun h => nomatch h
  bufWf := Memory.reset_wf.2
  emitted := fun _ h => nomatch h

/-- Every return to SEEK clears the registers; only the emitted words ask for a proof (R168 to R171). -/
theorem Pd.Inv.emit_toSeek {pd : Pd} (h : pd.Inv) {ws : List DoWord}
    (hws : ∀ w ∈ ws, emittable (.dout w) = true) : (pd.emit ws).toSeek.Inv where
  seek := fun _ => ⟨rfl, rfl, rfl, rfl, rfl⟩
  hdr := fun hm => nomatch hm
  hdrClear := fun hm => nomatch hm
  body := fun hm => nomatch hm
  written := fun hm => nomatch hm
  bufWf := h.bufWf
  emitted := fun w hw => (List.mem_append.mp hw).elim (h.emitted w) (hws w)

theorem Pd.Inv.fail {pd : Pd} (h : pd.Inv) {w : DoWord} (hw : emittable (.dout w) = true) : (pd.fail w).Inv :=
  h.emit_toSeek fun _ hv => List.mem_singleton.mp hv ▸ hw

/-- The start marker is the first packet byte taken (R162). -/
theorem Pd.Inv.startPacket {pd : Pd} (h : pd.Inv) (hm : pd.mode = .seek) : pd.startPacket.Inv := by
  obtain ⟨-, htype, hlen, hbcnt, -⟩ := h.seek hm
  exact {
    seek := fun hm => nomatch hm
    hdr := fun _ => ⟨hbcnt, by simp [Pd.headerTaken, header, xorBytes]⟩
    hdrClear := fun _ => ⟨fun _ => htype, fun _ => hlen, by simp [hlen]⟩
    body := fun hm => nomatch hm
    written := fun hm => nomatch hm
    bufWf := h.bufWf
    emitted := h.emitted }

/-- The type byte joins the header bytes taken (R164). -/
theorem Pd.Inv.takeType {pd : Pd} (h : pd.Inv) (b : Byte) (hm : pd.mode = .hdr) (hc : pd.hcnt = 0) :
    (pd.takeType b).Inv := by
  obtain ⟨hbcnt, hcsum⟩ := h.hdr hm
  obtain ⟨-, hlen, hshort⟩ := h.hdrClear hm
  exact {
    seek := fun hs => by simp [hm] at hs
    hdr := fun _ => ⟨hbcnt, by simp [hcsum, hc, Pd.headerTaken, header, xorBytes]⟩
    hdrClear := fun _ => ⟨fun hlt => by simp at hlt, fun _ => hlen (by simp [hc]), hshort⟩
    body := fun hb => by simp [hm] at hb
    written := fun hb => by simp [hm] at hb
    bufWf := h.bufWf
    emitted := h.emitted }

/-- The low length byte joins the header bytes taken (R165). -/
theorem Pd.Inv.takeLenLo {pd : Pd} (h : pd.Inv) (b : Byte) (hm : pd.mode = .hdr) (hc : pd.hcnt = 1) :
    (pd.takeLenLo b).Inv := by
  obtain ⟨hbcnt, hcsum⟩ := h.hdr hm
  exact {
    seek := fun hs => by simp [hm] at hs
    hdr := fun _ => ⟨hbcnt, by simp [hcsum, hc, Pd.headerTaken, header, xorBytes, BitVec.xor_assoc]⟩
    hdrClear := fun _ => ⟨fun hlt => by simp at hlt, fun hlt => by simp at hlt, by simp [zext16_toNat, b.isLt]⟩
    body := fun hb => by simp [hm] at hb
    written := fun hb => by simp [hm] at hb
    bufWf := h.bufWf
    emitted := h.emitted }

/-- The high length byte completes the header, and no payload byte has been taken (R166). -/
theorem Pd.Inv.takeLenHi {pd : Pd} (h : pd.Inv) (b : Byte) (hm : pd.mode = .hdr) (hc : pd.hcnt = 2) :
    (pd.takeLenHi b).Inv := by
  obtain ⟨-, hcsum⟩ := h.hdr hm
  obtain ⟨-, -, hshort⟩ := h.hdrClear hm
  exact {
    seek := fun hs => nomatch hs
    hdr := fun hd => nomatch hd
    hdrClear := fun hd => nomatch hd
    body := fun _ => ⟨rfl, Nat.zero_le _⟩
    written := fun _ => ⟨[], rfl, by
      simp [hcsum, hc, Pd.headerTaken, header, xorBytes, lo_joinHi, hi_joinHi _ _ hshort, BitVec.xor_assoc]⟩
    bufWf := h.bufWf
    emitted := h.emitted }

/-- Storing the next payload byte extends the written range and the bytes under the checksum (R74, R167). -/
theorem Pd.Inv.store {pd : Pd} (h : pd.Inv) (b : Byte) (hm : pd.mode = .body) (hlt : pd.bcnt.val < pd.dlen.toNat) :
    Pd.Inv { pd with buf := pd.buf.write pd.bcnt.val b, csum := pd.csum ^^^ b,
                     bcnt := ⟨pd.bcnt.val + 1, Nat.lt_of_le_of_lt hlt pd.dlen.isLt⟩ } := by
  obtain ⟨hhcnt, -⟩ := h.body hm
  obtain ⟨p, hp, hcsum⟩ := h.written hm
  have hin : pd.bcnt.val < Config.bufBytes := by
    have := pd.dlen.isLt
    show _ < 65535
    omega
  exact {
    seek := fun hs => by simp [hm] at hs
    hdr := fun hd => by simp [hm] at hd
    hdrClear := fun hd => by simp [hm] at hd
    body := fun _ => ⟨hhcnt, hlt⟩
    written := fun _ => ⟨p ++ [b], readRange_append pd.buf pd.bcnt.val p b hp hin, by
      simp [hcsum, xorBytes_append, xorBytes, BitVec.xor_assoc]⟩
    bufWf := Memory.write_wf pd.buf pd.bcnt.val b h.bufWf hin
    emitted := h.emitted }

theorem Pd.Inv.byteSeek {pd : Pd} (h : pd.Inv) (b : Byte) (hm : pd.mode = .seek) : (pd.byteSeek b).Inv := by
  unfold Pd.byteSeek
  split
  · exact h.startPacket hm
  · exact h

theorem Pd.Inv.byteHdr {pd : Pd} (h : pd.Inv) (b : Byte) (hm : pd.mode = .hdr) : (pd.byteHdr b).Inv := by
  rcases pd.byteHdr_cases b with ⟨hc, he⟩ | ⟨hc, he⟩ | ⟨hc, he⟩ <;> rw [he]
  · exact h.takeType b hm hc
  · exact h.takeLenLo b hm hc
  · exact h.takeLenHi b hm hc

theorem Pd.Inv.validate {pd pd' : Pd} {b : Byte} (h : pd.Inv) (hr : pd.validate b = .ok pd') : pd'.Inv := by
  rcases Pd.validate_ok hr with ⟨-, p, hp, rfl⟩ | ⟨hne, rfl⟩
  · exact h.emit_toSeek (emittable_decodedWords _ _ p (readRange_length _ _ _ p hp))
  · exact h.fail (emittable_csumErr _ _ _ _ hne)

theorem Pd.Inv.byte {pd pd' : Pd} {b : Byte} (h : pd.Inv) (hr : Pd.byte b pd = .ok pd') : pd'.Inv := by
  rcases Pd.byte_ok hr with ⟨hm, rfl⟩ | ⟨hm, rfl⟩ | ⟨hm, hr⟩
  · exact h.byteSeek b hm
  · exact h.byteHdr b hm
  · rcases Pd.byteBody_ok hr with ⟨hlt, rfl⟩ | ⟨-, hv⟩
    · exact h.store b hm hlt
    · exact h.validate hv

theorem Pd.Inv.timeout {pd pd' : Pd} (h : pd.Inv) (hr : pd.timeout = .ok pd') : pd'.Inv := by
  rcases Pd.timeout_ok hr with ⟨-, rfl⟩ | ⟨hm, rfl⟩ | ⟨hm, rfl⟩
  · exact h
  · obtain ⟨hclear, -, -⟩ := h.hdrClear hm
    exact h.fail (emittable_hdrFail _ _ hclear)
  · obtain ⟨-, hle⟩ := h.body hm
    exact h.fail (emittable_bodyFail _ _ _ hle)

/-- A word that leaves the queue leaves legal words behind. -/
theorem Pd.Inv.deliver {pd : Pd} (h : pd.Inv) {w : DoWord} {rest : List DoWord} (hq : pd.outq = w :: rest) :
    Pd.Inv { pd with outq := rest } where
  seek := h.seek
  hdr := h.hdr
  hdrClear := h.hdrClear
  body := h.body
  written := h.written
  bufWf := h.bufWf
  emitted := fun v hv => h.emitted v (hq ▸ List.mem_cons_of_mem w hv)

/-! ## The machine keeps its invariant -/

theorem State.Inv.acceptPf {rule : Pf → Except Fault Pf} {s t : State} (h : s.Inv)
    (hrule : ∀ {pf'}, rule s.pf = .ok pf' → pf'.Inv) (ht : Machine.acceptPf rule s = .next t) : t.Inv := by
  rcases acceptPf_next ht with ⟨-, pf', hpf, rfl⟩ | ⟨-, rfl⟩
  · exact ⟨hrule hpf, h.pd⟩
  · exact h

theorem State.Inv.acceptPd {rule : Pd → Except Fault Pd} {s t : State} (h : s.Inv)
    (hrule : ∀ {pd'}, rule s.pd = .ok pd' → pd'.Inv) (ht : Machine.acceptPd rule s = .next t) : t.Inv := by
  rcases acceptPd_next ht with ⟨-, pd', hpd, rfl⟩ | ⟨-, rfl⟩
  · exact ⟨h.pf, hrule hpd⟩
  · exact h

theorem State.Inv.deliverFo {w : FoWord} {s t : State} (h : s.Inv) (ht : Machine.deliverFo w s = .next t) : t.Inv := by
  rcases deliverFo_next ht with ⟨rest, hq, rfl⟩ | ⟨-, rfl⟩
  · exact ⟨h.pf.deliver hq, h.pd⟩
  · exact h

theorem State.Inv.deliverFe {w : FeWord} {s t : State} (h : s.Inv) (ht : Machine.deliverFe w s = .next t) : t.Inv := by
  rcases deliverFe_next ht with ⟨rest, hq, rfl⟩ | ⟨-, rfl⟩
  · exact ⟨h.pf.deliver hq, h.pd⟩
  · exact h

theorem State.Inv.deliverDo {w : DoWord} {file : Consumer → Consumer} {s t : State} (h : s.Inv)
    (ht : Machine.deliverDo w file s = .next t) : t.Inv := by
  rcases deliverDo_next ht with ⟨rest, hq, rfl⟩ | ⟨-, rfl⟩
  · exact ⟨h.pf, h.pd.deliver hq⟩
  · exact h

/-- Every operation keeps the invariant, in every state in which it answers a next state. -/
theorem State.Inv.exec {i : Instr} {s t : State} (h : s.Inv) (ht : Machine.exec i s = .next t) : t.Inv := by
  rcases instr_cases i with ⟨d, rfl⟩ | ⟨d, rfl⟩ | ⟨d, rfl⟩ | ⟨d, rfl⟩ | ⟨d, rfl⟩ | ⟨d, rfl⟩ | ⟨w, hw⟩ | ⟨w, hw⟩ | ⟨w, hw⟩
  · exact h.acceptPf h.pf.sop ht
  · exact h.acceptPf h.pf.data ht
  · exact h.acceptPf h.pf.eop ht
  · exact h.acceptPf h.pf.rsvd ht
  · exact h.acceptPd h.pd.byte ht
  · exact h.acceptPd h.pd.timeout ht
  · exact h.deliverFo (exec_of_encode_fo hw s ▸ ht)
  · exact h.deliverFe (exec_of_encode_fe hw s ▸ ht)
  · obtain ⟨file, hexec⟩ := exec_of_encode_do hw
    exact h.deliverDo (hexec s ▸ ht)

theorem State.Inv.resetBlocks {s : State} (h : s.Inv) (target : RstTarget) : (Machine.resetBlocks target s).Inv := by
  cases target with
  | shared => exact ⟨Pf.reset_inv, Pd.reset_inv⟩
  | pfOnly => exact ⟨Pf.reset_inv, h.pd⟩
  | pdOnly => exact ⟨h.pf, Pd.reset_inv⟩

/-- The invariant speaks of the two blocks alone. -/
theorem State.Inv.of_blocks_eq {s s' : State} (h : s.Inv) (hpf : s'.pf = s.pf) (hpd : s'.pd = s.pd) : s'.Inv :=
  ⟨hpf ▸ h.pf, hpd ▸ h.pd⟩

theorem State.Inv.step {s t : State} (h : s.Inv) (ht : Machine.step s = .next t) : t.Inv := by
  rcases step_cases ht with ⟨-, rfl⟩ | ⟨turn, ts, -, ⟨-, rfl⟩ | ⟨target, -, rfl⟩ | ⟨b, s', i, hf, -, hx⟩⟩
  · exact h
  · exact h.of_blocks_eq rfl rfl
  · exact (h.of_blocks_eq (s' := { s with turns := ts }) rfl rfl).resetBlocks target
  · obtain ⟨hpf, hpd, -⟩ := fetch_beat hf
    exact (h.of_blocks_eq hpf hpd).exec hx

/-- Settles O38: each rule of a block keeps the block's invariant, and a step runs one rule, delivers one word, resets
blocks or moves nothing. -/
theorem stepKeepsTheInvariants : Obligations.StepKeepsTheInvariants :=
  fun _ _ h ht => h.step ht

/-- Settles O8: `Pf.reset` and `Pd.reset` hold the values of the table of R50, and their empty queues give the handshake
signals (R29). -/
theorem resetHoldsTheSpecValues : Obligations.ResetHoldsTheSpecValues := by
  have hpfq : State.reset.pf.outq = [] := rfl
  have hpdq : State.reset.pd.outq = [] := rfl
  have hfi : State.reset.fiReady = true := (fiReady_iff _).mpr hpfq
  have hdi : State.reset.diReady = true := (diReady_iff _).mpr hpdq
  have hfo : State.reset.foValid = false := by simp [State.foValid, hpfq]
  have hfe : State.reset.feValid = false := by simp [State.feValid, hpfq]
  have hdo : State.reset.doValid = false := by simp [State.doValid, hpdq]
  exact ⟨rfl, rfl, rfl, hpfq, rfl, rfl, rfl, rfl, rfl, rfl, hpdq, hfi, hdi, hfo, hfe, hdo⟩

end Sys2Proof.Machine
end

section
/-! The proofs about the encodings: a `do` word as a number (spec/30_encoding.md R97), the length field (R83) and the
checksum of a whole packet (R86). -/

namespace Sys2Proof.Machine

/-! ## The `do` word as a number -/

/-- Each concatenation shifts what stands before it, and the shifts of one field add up (R97). -/
theorem doWord_toNat (k : DoKind) (cls : Nibble) (ty : Byte) (a b : Half) :
    (doWord k cls ty a b).toNat =
      (k.code.toNat <<< 44 ||| cls.toNat <<< 40 ||| ty.toNat <<< 32 ||| a.toNat <<< 16 ||| b.toNat) := by
  unfold doWord
  simp only [BitVec.toNat_append, Nat.shiftLeft_or_distrib, ← Nat.shiftLeft_add]

/-- Settles O4: the number by `doWord_toNat`, each bit range by the law of its field. -/
theorem doWordIsItsShiftedFields : Obligations.DoWordIsItsShiftedFields :=
  fun k cls ty a b =>
    ⟨doWord_toNat k cls ty a b, doKindField_doWord k cls ty a b, doClassField_doWord k cls ty a b,
      doTypeField_doWord k cls ty a b, doA_doWord k cls ty a b, doB_doWord k cls ty a b⟩

/-! ## The length field -/

/-- Assembling a length puts the high byte before the low one, as `checksumPair` does with its two bytes (R83). -/
theorem joinHi_zext16_eq_append (l0 l1 : Byte) : joinHi (zext16 l0) l1 = l1 ++ l0 := by
  rw [← checksumPair_eq_append]
  exact BitVec.or_comm _ _

theorem joinHi_lo_hi (len : Half) : joinHi (zext16 (lo len)) (hi len) = len := by
  rw [joinHi_zext16_eq_append]
  unfold hi lo
  rw [BitVec.extractLsb'_append_extractLsb'_eq_extractLsb' (by decide)]
  exact BitVec.extractLsb'_eq_self

theorem joinHi_zext16_toNat (l0 l1 : Byte) : (joinHi (zext16 l0) l1).toNat = l0.toNat + 256 * l1.toNat := by
  rw [joinHi_zext16_eq_append, BitVec.toNat_append, ← Nat.shiftLeft_add_eq_or_of_lt l0.isLt, Nat.shiftLeft_eq]
  omega

/-- Settles O6: the assembled length is the two bytes side by side, high byte first. -/
theorem lengthFieldIsLittleEndian : Obligations.LengthFieldIsLittleEndian :=
  fun len => ⟨joinHi_lo_hi len, joinHi_zext16_toNat⟩

/-! ## The checksum of a whole packet -/

/-- A byte cancels the XOR of the bytes before it exactly when it equals that XOR (R86). -/
theorem xorBytes_snoc_eq_zero_iff (bs : List Byte) (c : Byte) : xorBytes (bs ++ [c]) = 0x00 ↔ c = xorBytes bs := by
  have hsnoc : xorBytes (bs ++ [c]) = xorBytes bs ^^^ c := by simp [xorBytes_append, xorBytes]
  rw [hsnoc, eq_comm (a := c)]
  exact BitVec.xor_eq_zero_iff

/-- The XOR of R85, written out, is the XOR of the header and the payload. -/
theorem xorBytes_header_append (t : Byte) (len : Half) (p : List Byte) :
    xorBytes (header t len ++ p) = 0xAA ^^^ t ^^^ lo len ^^^ hi len ^^^ p.foldl (· ^^^ ·) 0x00 := by
  rw [xorBytes_append, foldl_xor_eq]
  simp [header, Config.start, xorBytes, BitVec.xor_assoc]

/-- Settles O7: the checksum byte is the last of the packet, so it cancels the bytes before it exactly when it is their
XOR. -/
theorem wellFormedPacketXorsToZero : Obligations.WellFormedPacketXorsToZero := by
  intro t len p c _
  have hsum := xorBytes_header_append t len p
  have hzero := xorBytes_snoc_eq_zero_iff (header t len ++ p) c
  rw [hsum] at hzero
  exact hzero.symm

end Sys2Proof.Machine
end

section
/-! The proofs about the framer: each input operation of PF by mode (spec/40_framer.md R121 to R130), and the run of a
whole packet from SOP to EOP, which is the source's Encoder (R133). -/

namespace Sys2Proof.Machine

/-! ## What PF emits when its queue is empty -/

theorem Pf.emit_of_outq_nil {pf : Pf} (hq : pf.outq = []) (beats : List PfBeat) :
    pf.emit beats = { pf with outq := beats } := by
  simp [Pf.emit, hq]

theorem Pf.raise_of_outq_nil {pf : Pf} (hq : pf.outq = []) (c : FeCode) :
    pf.raise c = { pf with outq := [.fe c.code] } :=
  Pf.emit_of_outq_nil hq _

/-! ## The rules of PF by mode -/

section Rules

variable {pf : Pf} {d : Byte}

theorem Pf.sop_of_idle (hm : pf.mode = .idle) : Pf.sop d pf = .ok (pf.openPacket d) := by
  simp [Pf.sop, hm]

theorem Pf.sop_of_open_or_overflow (hm : pf.mode = .opened ∨ pf.mode = .overflow) :
    Pf.sop d pf = .ok ((pf.raise .sopWhileOpen).openPacket d) := by
  rcases hm with hm | hm <;> simp [Pf.sop, hm]

theorem Pf.data_of_idle (hm : pf.mode = .idle) : Pf.data d pf = .ok (pf.raise .dataWhileIdle) := by
  simp [Pf.data, hm]

theorem Pf.data_of_opened (hm : pf.mode = .opened) : Pf.data d pf = pf.append d := by
  simp [Pf.data, hm]

theorem Pf.data_of_overflow (hm : pf.mode = .overflow) : Pf.data d pf = .ok pf := by
  simp [Pf.data, hm]

theorem Pf.eop_of_idle (hm : pf.mode = .idle) : pf.eop = .ok (pf.raise .eopWhileIdle) := by
  simp [Pf.eop, hm]

/-- EOP in OPEN emits the packet of the bytes in the written range (R128). -/
theorem Pf.eop_of_opened {p : List Byte} (hm : pf.mode = .opened) (hp : readRange pf.buf 0 pf.fcnt.val = .ok p) :
    pf.eop = .ok (pf.emit (frameBeats pf.ftype p)).closePacket := by
  simp [Pf.eop, hm, Pf.emitPacket, hp]

theorem Pf.eop_of_overflow (hm : pf.mode = .overflow) : pf.eop = .ok (pf.raise .payloadTooLarge).closePacket := by
  simp [Pf.eop, hm]

end Rules

/-! ## One operation -/

/-- Settles O10: the rule of SOP by mode; with an empty queue the report is the only beat in it. -/
theorem sopOpensAPacket : Obligations.SopOpensAPacket := by
  intro s d hq
  refine ⟨fun hm => ?_, fun hm => ?_⟩
  · rw [exec_sop, acceptPf_ok hq (Pf.sop_of_idle hm)]
    rfl
  · rw [exec_sop, acceptPf_ok hq (Pf.sop_of_open_or_overflow hm), Pf.raise_of_outq_nil hq]
    rfl

/-- Settles O11: below the limit DATA is a store at `fcnt`, and a buffer reads after a store as the laws of the buffer
say. -/
theorem dataStoresThePayloadByte : Obligations.DataStoresThePayloadByte := by
  intro s b hq hm hlt
  have hstore := (Pf.data_of_opened hm).trans (s.pf.append_store b hlt)
  exact ⟨_, acceptPf_ok hq hstore, rfl, memRead_write_same s.pf.buf s.pf.fcnt.val b hlt,
    fun a ha => memRead_write_other s.pf.buf s.pf.fcnt.val a b ha, hm, rfl, hq, rfl⟩

/-- Settles O12: the rule of DATA in IDLE, at the limit and in OVERFLOW. -/
theorem dataIsDroppedWhereItDoesNotFit : Obligations.DataIsDroppedWhereItDoesNotFit := by
  intro s b hq
  refine ⟨fun hm => ?_, fun hm hc => ?_, fun hm => ?_⟩
  · rw [exec_data, acceptPf_ok hq (Pf.data_of_idle hm), Pf.raise_of_outq_nil hq]
    rfl
  · exact acceptPf_ok hq ((Pf.data_of_opened hm).trans (s.pf.append_overflow b hc))
  · exact acceptPf_ok hq (Pf.data_of_overflow hm)

/-- The beats of a packet written out: `last` is set on the checksum byte alone (R131). -/
theorem frameBeats_eq (t : Byte) (p : List Byte) :
    frameBeats t p = (header t (lengthField p) ++ p).map (fun b => .fo (foWord false b)) ++
      [.fo (foWord true (packetChecksum t p))] := by
  rw [frameBeats, frame, List.map_append, List.map_map]
  rfl

/-- Settles O13: the bytes given one by one are what EOP reads, and the checksum is the XOR of R85 written out. -/
theorem eopEmitsThePacket : Obligations.EopEmitsThePacket := by
  intro s d p hq hm hlen hread
  have hp : readRange s.pf.buf 0 s.pf.fcnt.val = .ok p :=
    hlen ▸ readRange_of_getElem s.pf.buf p 0 (fun k hk => (Nat.zero_add k).symm ▸ hread k hk)
  have hsum := xorBytes_header_append s.pf.ftype (lengthField p) p
  rw [exec_eop, acceptPf_ok hq (Pf.eop_of_opened hm hp), Pf.emit_of_outq_nil hq, frameBeats_eq, packetChecksum, hsum]
  rfl

/-- Settles O14: the rule of EOP in IDLE and in OVERFLOW. -/
theorem eopReportsWithoutAPacket : Obligations.EopReportsWithoutAPacket := by
  intro s d hq
  refine ⟨fun hm => ?_, fun hm => ?_⟩
  · rw [exec_eop, acceptPf_ok hq (Pf.eop_of_idle hm), Pf.raise_of_outq_nil hq]
    rfl
  · rw [exec_eop, acceptPf_ok hq (Pf.eop_of_overflow hm), Pf.raise_of_outq_nil hq]
    rfl

/-- Settles O15: the rule of RSVD does not look at the mode. -/
theorem rsvdReportsReservedOp : Obligations.RsvdReportsReservedOp := by
  intro s d hq
  rw [exec_rsvd, acceptPf_ok hq (rule := Pf.rsvd) rfl, Pf.raise_of_outq_nil hq]
  rfl

/-! ## Draining PF's queue -/

/-- The state after PF's consumers have taken all that stands in `outq` (R62). -/
def State.drainedPf (s : State) : State :=
  { s with pf := { s.pf with outq := [] }, foTaken := s.foTaken ++ foWords s.pf.outq,
           feTaken := s.feTaken ++ feWords s.pf.outq }

@[simp] theorem State.drainedPf_foTaken (s : State) : s.drainedPf.foTaken = s.foTaken ++ foWords s.pf.outq := rfl
@[simp] theorem State.drainedPf_feTaken (s : State) : s.drainedPf.feTaken = s.feTaken ++ feWords s.pf.outq := rfl

theorem State.drainedPf_of_outq_nil {s : State} (hq : s.pf.outq = []) : s.drainedPf = s := by
  have hpf : ({ s.pf with outq := [] } : Pf) = s.pf := by rw [← hq]
  simp [State.drainedPf, hq, hpf, foWords, feWords]

theorem feCode_code_of_ofCode {w : FeWord} {c : FeCode} (h : FeCode.ofCode w = some c) : c.code = w := by
  revert w
  cases c <;> decide

/-- The instruction that an output beat of PF decodes to is the one whose word it is. -/
theorem encode_of_decode_pfBeat {b : PfBeat} {i : Instr} (h : decode b.beat = .ok i) : encode i = b.beat := by
  cases b with
  | fo w =>
    cases h
    exact congrArg Beat.fo (foWord_fields w)
  | fe w =>
    simp only [PfBeat.beat, decode, decodeFe] at h
    split at h <;> cases h
    all_goals exact congrArg Beat.fe (feCode_code_of_ofCode ‹_›)

/-- The beat at the head goes to its consumer; what all the deliveries together lead to stays the same. -/
theorem exec_pfBeat_head {s : State} {b : PfBeat} {rest : List PfBeat} {i : Instr} (hq : s.pf.outq = b :: rest)
    (hd : decode b.beat = .ok i) : ∃ t, exec i s = .next t ∧ t.pf.outq = rest ∧ t.drainedPf = s.drainedPf := by
  have he := encode_of_decode_pfBeat hd
  cases b with
  | fo w => exact ⟨_, (exec_of_encode_fo he s).trans (deliverFo_head hq), rfl,
      by simp [State.drainedPf, hq, foWords, feWords]⟩
  | fe w => exact ⟨_, (exec_of_encode_fe he s).trans (deliverFe_head hq), rfl,
      by simp [State.drainedPf, hq, foWords, feWords]⟩

/-- PF's consumers take all of a queue of words that the hardware emits, each its own in order (R62). -/
theorem drainPf_all {q : List PfBeat} (hem : ∀ b ∈ q, emittable b.beat = true) :
    ∀ {s : State}, s.pf.outq = q → drainPf q.length s = .next s.drainedPf := by
  induction q with
  | nil => exact fun hq => by rw [State.drainedPf_of_outq_nil hq]; rfl
  | cons b rest ih =>
    intro s hq
    have hb := hem b List.mem_cons_self
    cases hd : decode b.beat with
    | error e => simp [emittable, hd] at hb
    | ok i =>
      obtain ⟨t, hx, ht, hdr⟩ := exec_pfBeat_head hq hd
      simp only [drainPf, List.length_cons, hq, hd, hx]
      rw [ih (fun c hc => hem c (List.mem_cons_of_mem b hc)) ht, hdr]

/-! ## The run of one packet -/

/-- What PF holds after SOP with type `t` and one DATA for each byte of `q`: an open packet whose written range is `q`
while `q` fits, and OVERFLOW from the 65536th byte on (R121, R124 to R126). -/
structure Pf.Holds (pf : Pf) (t : Byte) (q : List Byte) : Prop where
  outq : pf.outq = []
  opened : q.length ≤ 65535 → pf.mode = .opened ∧ pf.ftype = t ∧ readRange pf.buf 0 pf.fcnt.val = .ok q
  overflow : 65535 < q.length → pf.mode = .overflow

theorem Pf.openPacket_holds {pf : Pf} (hq : pf.outq = []) (t : Byte) : (pf.openPacket t).Holds t [] where
  outq := hq
  opened := fun _ => ⟨rfl, rfl, rfl⟩
  overflow := fun h => absurd h (by simp)

/-- One DATA more. -/
theorem Pf.Holds.data {pf : Pf} {t : Byte} {q : List Byte} (h : pf.Holds t q) (b : Byte) :
    ∃ pf', Pf.data b pf = .ok pf' ∧ pf'.Holds t (q ++ [b]) := by
  have hsnoc : (q ++ [b]).length = q.length + 1 := by simp
  by_cases hfit : q.length ≤ 65535
  · obtain ⟨hm, ht, hr⟩ := h.opened hfit
    have hlen : q.length = pf.fcnt.val := readRange_length _ _ _ _ hr
    rcases pf.fcnt_cases with hlt | hfull
    · exact ⟨_, (Pf.data_of_opened hm).trans (pf.append_store b hlt), {
        outq := h.outq
        opened := fun _ => ⟨hm, ht, readRange_append pf.buf pf.fcnt.val q b hr hlt⟩
        overflow := fun hover => by omega }⟩
    · exact ⟨_, (Pf.data_of_opened hm).trans (pf.append_overflow b hfull), {
        outq := h.outq
        opened := fun hle => by omega
        overflow := fun _ => rfl }⟩
  · have hm := h.overflow (by omega)
    exact ⟨pf, Pf.data_of_overflow hm, {
      outq := h.outq
      opened := fun hle => by omega
      overflow := fun _ => hm }⟩

/-- The DATA beats of a payload. -/
theorem runPf_data {t : Byte} (p : List Byte) (is : List Instr) :
    ∀ {s : State} {q : List Byte}, s.pf.Holds t q →
      ∃ pf, pf.Holds t (q ++ p) ∧ runPf (p.map Instr.data ++ is) s = runPf is { s with pf := pf } := by
  induction p with
  | nil => exact fun {s q} h => ⟨s.pf, by simpa using h, rfl⟩
  | cons b p ih =>
    intro s q h
    obtain ⟨pf1, hrule, h1⟩ := h.data b
    obtain ⟨pf, hpf, hrun⟩ := ih (s := { s with pf := pf1 }) h1
    refine ⟨pf, by simpa using hpf, ?_⟩
    rw [List.map_cons, List.cons_append, runPf_cons h.outq ((exec_data s b).trans (acceptPf_ok h.outq hrule)), hrun]

/-- EOP and the delivery of all that it emits. -/
theorem runPf_eop {s : State} {pf : Pf} (d : Byte) (hq : s.pf.outq = []) (hrule : s.pf.eop = .ok pf)
    (hem : ∀ b ∈ pf.outq, emittable b.beat = true) :
    runPf [.eop d] s = .next ({ s with pf := pf } : State).drainedPf := by
  rw [runPf_cons hq ((exec_eop s d).trans (acceptPf_ok hq hrule))]
  exact drainPf_all hem rfl

theorem frameBeats_emittable (t : Byte) (p : List Byte) : ∀ b ∈ frameBeats t p, emittable b.beat = true := by
  intro b hb
  obtain ⟨bl, -, rfl⟩ := List.mem_map.mp hb
  exact emittable_fo _

/-- The words of a queue that holds `fo` beats alone. -/
theorem foWords_map_fo {α : Type} (f : α → FoWord) (l : List α) : foWords (l.map fun x => .fo (f x)) = l.map f := by
  induction l with
  | nil => rfl
  | cons x l ih => simp [foWords, ih]

theorem feWords_map_fo {α : Type} (f : α → FoWord) (l : List α) : feWords (l.map fun x => .fo (f x)) = [] := by
  induction l with
  | nil => rfl
  | cons x l ih => simp [feWords, ih]

/-- Settles O44: SOP and the DATA beats bring PF to hold the payload, or to OVERFLOW; EOP then emits the packet, or
PAYLOAD_TOO_LARGE alone, and the consumers take it. -/
theorem framerComputesTheEncoder : Obligations.FramerComputesTheEncoder := by
  intro s t p hidle hq
  have hsop : exec (.sop t) s = .next { s with pf := s.pf.openPacket t } := acceptPf_ok hq (Pf.sop_of_idle hidle)
  obtain ⟨pf, hpf, hdata⟩ :=
    runPf_data p [.eop 0x00] (s := { s with pf := s.pf.openPacket t }) (Pf.openPacket_holds hq t)
  rw [List.nil_append] at hpf
  have hrun := (runPf_cons hq hsop _).trans hdata
  by_cases hfit : p.length ≤ 65535
  · obtain ⟨hm, rfl, hr⟩ := hpf.opened hfit
    have heop := Pf.eop_of_opened hm hr
    rw [Pf.emit_of_outq_nil hpf.outq] at heop
    have hdone := runPf_eop (s := { s with pf := pf }) 0x00 hpf.outq heop (frameBeats_emittable _ _)
    refine ⟨_, hrun.trans hdone, rfl, rfl, fun _ => ⟨?_, ?_⟩, fun hlong => absurd hfit (Nat.not_le.mpr hlong)⟩
    · simp [frameBeats, foWords_map_fo]
    · simp [frameBeats, feWords_map_fo]
  · have heop := Pf.eop_of_overflow (hpf.overflow (Nat.not_le.mp hfit))
    rw [Pf.raise_of_outq_nil hpf.outq] at heop
    have hdone := runPf_eop (s := { s with pf := pf }) 0x00 hpf.outq heop
      (fun b hb => List.mem_singleton.mp hb ▸ emittable_feCode .payloadTooLarge)
    exact ⟨_, hrun.trans hdone, rfl, rfl, fun h => absurd h hfit, fun _ => ⟨List.append_nil _, rfl⟩⟩

end Sys2Proof.Machine
end

section
/-! The proofs about the deframer: each input operation of PD by mode (spec/41_deframer.md R161 to R171), the delivery
of PD's queue, and the runs of a whole packet (R178) and of a truncated one (R180). -/

namespace Sys2Proof.Machine

/-! ## What PD emits when its queue is empty -/

theorem Pd.emit_of_outq_nil {pd : Pd} (hq : pd.outq = []) (ws : List DoWord) : pd.emit ws = { pd with outq := ws } := by
  simp [Pd.emit, hq]

theorem Pd.fail_of_outq_nil {pd : Pd} (hq : pd.outq = []) (w : DoWord) :
    pd.fail w = { pd with outq := [w] }.toSeek :=
  congrArg Pd.toSeek (Pd.emit_of_outq_nil hq [w])

/-! ## The rules of PD by mode -/

section Rules

variable {pd : Pd} {b : Byte}

theorem Pd.byte_of_seek_start (hm : pd.mode = .seek) : Pd.byte Config.start pd = .ok pd.startPacket := by
  simp [Pd.byte, hm, Pd.byteSeek]

theorem Pd.byte_of_seek_other (hm : pd.mode = .seek) (hb : b ≠ Config.start) : Pd.byte b pd = .ok pd := by
  simp [Pd.byte, hm, Pd.byteSeek, hb]

theorem Pd.byte_of_hdr_zero (hm : pd.mode = .hdr) (hc : pd.hcnt = 0) : Pd.byte b pd = .ok (pd.takeType b) := by
  simp [Pd.byte, hm, Pd.byteHdr, hc]

theorem Pd.byte_of_hdr_one (hm : pd.mode = .hdr) (hc : pd.hcnt = 1) : Pd.byte b pd = .ok (pd.takeLenLo b) := by
  simp [Pd.byte, hm, Pd.byteHdr, hc]

theorem Pd.byte_of_hdr_two (hm : pd.mode = .hdr) (hc : pd.hcnt = 2) : Pd.byte b pd = .ok (pd.takeLenHi b) := by
  simp [Pd.byte, hm, Pd.byteHdr, hc]

/-- A BYTE in BODY before the last payload byte is a store at `bcnt` (R167). -/
theorem Pd.byte_of_body_store (hm : pd.mode = .body) (hlt : pd.bcnt.val < pd.dlen.toNat) :
    Pd.byte b pd = .ok { pd with buf := pd.buf.write pd.bcnt.val b, csum := pd.csum ^^^ b,
                                 bcnt := ⟨pd.bcnt.val + 1, Nat.lt_of_le_of_lt hlt pd.dlen.isLt⟩ } := by
  simp [Pd.byte, hm, Pd.byteBody, hlt, Pd.takePayload_ok]

theorem Pd.byte_of_body_last (hm : pd.mode = .body) (hc : pd.bcnt.val = pd.dlen.toNat) :
    Pd.byte b pd = pd.validate b := by
  simp [Pd.byte, hm, Pd.byteBody_last hc]

theorem Pd.validate_csum {p : List Byte} (hp : readRange pd.buf 0 pd.dlen.toNat = .ok p) :
    pd.validate pd.csum = .ok (pd.emit (decodedWords pd.dtype pd.dlen p)).toSeek := by
  simp [Pd.validate, hp]

theorem Pd.validate_of_ne (hb : b ≠ pd.csum) :
    pd.validate b = .ok (pd.fail (doWord .csumErr 0 pd.dtype pd.dlen (checksumPair pd.csum b))) := by
  simp [Pd.validate, hb]

theorem Pd.timeout_of_seek (hm : pd.mode = .seek) : pd.timeout = .ok pd := by
  simp [Pd.timeout, hm]

theorem Pd.timeout_of_hdr (hm : pd.mode = .hdr) :
    pd.timeout = .ok (pd.fail (doWord .hdrFail 0 pd.dtype (BitVec.ofNat 16 pd.hcnt.val) 0x0000)) := by
  simp [Pd.timeout, hm]

theorem Pd.timeout_of_body (hm : pd.mode = .body) :
    pd.timeout = .ok (pd.fail (doWord .bodyFail 0 pd.dtype pd.dlen (BitVec.ofNat 16 pd.bcnt.val))) := by
  simp [Pd.timeout, hm]

end Rules

/-! ## One operation -/

/-- Settles O18: the two rules of a BYTE in SEEK. -/
theorem seekTakesOnlyTheStartMarker : Obligations.SeekTakesOnlyTheStartMarker := by
  intro s b hq hm
  refine ⟨fun hb => acceptPd_ok hq (Pd.byte_of_seek_other hm hb), ?_⟩
  rintro rfl
  exact acceptPd_ok hq (Pd.byte_of_seek_start hm)

/-- Settles O19: the rule of each header byte. -/
theorem headerBytesAreTaken : Obligations.HeaderBytesAreTaken :=
  fun _ _ hq hm =>
    ⟨fun hc => acceptPd_ok hq (Pd.byte_of_hdr_zero hm hc), fun hc => acceptPd_ok hq (Pd.byte_of_hdr_one hm hc),
      fun hc => acceptPd_ok hq (Pd.byte_of_hdr_two hm hc)⟩

/-- Settles O20: below the length a BYTE is a store at `bcnt`, and a buffer reads after a store as the laws of the
buffer say. -/
theorem bodyStoresThePayloadByte : Obligations.BodyStoresThePayloadByte := by
  intro s b hq hm hlt
  have hin : s.pd.bcnt.val < Config.bufBytes := Nat.lt_of_lt_of_le hlt (Nat.le_of_lt_succ s.pd.dlen.isLt)
  exact ⟨_, acceptPd_ok hq (Pd.byte_of_body_store hm hlt), memRead_write_same s.pd.buf s.pd.bcnt.val b hin,
    fun a ha => memRead_write_other s.pd.buf s.pd.bcnt.val a b ha, rfl, rfl, hm, rfl, rfl, rfl, hq, rfl⟩

/-- Settles O21: the bytes given one by one are what VALIDATE reads; the PAYLOAD words count their indices from 0. -/
theorem matchedChecksumDecodesThePacket : Obligations.MatchedChecksumDecodesThePacket := by
  intro s p hq hm hc hlen hread
  have hp : readRange s.pd.buf 0 s.pd.dlen.toNat = .ok p :=
    hlen ▸ readRange_of_getElem s.pd.buf p 0 (fun k hk => (Nat.zero_add k).symm ▸ hread k hk)
  have hrule := (Pd.byte_of_body_last hm hc).trans (Pd.validate_csum hp)
  rw [exec_byte, acceptPd_ok hq hrule, Pd.emit_of_outq_nil hq, decodedWords, payloadWords_eq_mapIdx]
  simp only [Nat.zero_add]
  rfl

/-- Settles O22: the rule of a checksum byte that differs; `B` is the computed byte before the received one. -/
theorem mismatchedChecksumIsReported : Obligations.MismatchedChecksumIsReported := by
  intro s b hq hm hc hb
  have hrule := (Pd.byte_of_body_last hm hc).trans (Pd.validate_of_ne hb)
  rw [exec_byte, acceptPd_ok hq hrule, Pd.fail_of_outq_nil hq, checksumPair_eq_append]
  rfl

/-- Settles O23: the rule of TIMEOUT by mode. -/
theorem timeoutEndsThePacketAttempt : Obligations.TimeoutEndsThePacketAttempt := by
  intro s d hq
  refine ⟨fun hm => acceptPd_ok hq (Pd.timeout_of_seek hm), fun hm => ?_, fun hm => ?_⟩
  · rw [exec_timeout, acceptPd_ok hq (Pd.timeout_of_hdr hm), Pd.fail_of_outq_nil hq]
    rfl
  · rw [exec_timeout, acceptPd_ok hq (Pd.timeout_of_body hm), Pd.fail_of_outq_nil hq]
    rfl

/-! ## Draining PD's queue -/

/-- How the event consumer files a word it takes, by the word's kind (R285, log entry 9). -/
def Consumer.file (w : DoWord) : Consumer → Consumer :=
  match DoKind.ofCode (doKindField w) with
  | some .decoded => fun c => c.openEvent w
  | some .hdrFail => fun c => c.finish ⟨w, []⟩
  | some .bodyFail => fun c => c.finish ⟨w, []⟩
  | some .csumErr => fun c => c.finish ⟨w, []⟩
  | some .payload => fun c => c.addPayload (lo (doB w))
  | none => fun c => c

/-- A `do` instruction delivers the word of its fields, filed by the word's kind. -/
theorem exec_doInstr (k : DoKind) (cls : Nibble) (ty : Byte) (a b : Half) (s : State) :
    exec (doInstr k cls ty a b) s = deliverDo (doWord k cls ty a b) (Consumer.file (doWord k cls ty a b)) s := by
  cases k with
  | decoded => simp [doInstr, exec_doDecoded, Consumer.file]
  | hdrFail => simp [doInstr, exec_doHdrFail, Consumer.file]
  | bodyFail => simp [doInstr, exec_doBodyFail, Consumer.file]
  | csumErr => simp [doInstr, exec_doCsumErr, Consumer.file]
  | payload => simp [doInstr, exec_doPayload, Consumer.file]

theorem doKind_code_of_ofCode {n : Nibble} {k : DoKind} (h : DoKind.ofCode n = some k) : k.code = n := by
  revert n
  cases k <;> decide

/-- A word that decodes is a word of its fields, and the instruction is the one of those fields. -/
theorem doWord_of_decodeDo {w : DoWord} {i : Instr} (h : decodeDo w = .ok i) :
    ∃ k cls ty a b, w = doWord k cls ty a b ∧ i = doInstr k cls ty a b := by
  cases hk : DoKind.ofCode (doKindField w) with
  | none => simp [decodeDo, hk] at h
  | some k =>
    have hw := doWord_fields w k (doKind_code_of_ofCode hk).symm
    rw [← hw, decodeDo_doWord] at h
    cases h
    exact ⟨k, _, _, _, _, hw.symm, rfl⟩

/-- The state after the event consumer has taken all that stands in `outq` (R62). -/
def State.drainedPd (s : State) : State :=
  { s with pd := { s.pd with outq := [] }, doTaken := s.doTaken ++ s.pd.outq,
           consumer := s.pd.outq.foldl (fun c w => Consumer.file w c) s.consumer }

@[simp] theorem State.drainedPd_doTaken (s : State) : s.drainedPd.doTaken = s.doTaken ++ s.pd.outq := rfl

theorem State.drainedPd_of_outq_nil {s : State} (hq : s.pd.outq = []) : s.drainedPd = s := by
  have hpd : ({ s.pd with outq := [] } : Pd) = s.pd := by rw [← hq]
  simp [State.drainedPd, hq, hpd]

/-- The word at the head goes to the event consumer; what all the deliveries together lead to stays the same. -/
theorem exec_doWord_head {s : State} {w : DoWord} {rest : List DoWord} {i : Instr} (hq : s.pd.outq = w :: rest)
    (hd : decodeDo w = .ok i) : ∃ t, exec i s = .next t ∧ t.pd.outq = rest ∧ t.drainedPd = s.drainedPd := by
  obtain ⟨k, cls, ty, a, b, rfl, rfl⟩ := doWord_of_decodeDo hd
  exact ⟨_, (exec_doInstr k cls ty a b s).trans (deliverDo_head hq), rfl, by simp [State.drainedPd, hq]⟩

/-- The event consumer takes all of a queue of words that the hardware emits, in order (R62). -/
theorem drainPd_all {q : List DoWord} (hem : ∀ w ∈ q, emittable (.dout w) = true) :
    ∀ {s : State}, s.pd.outq = q → drainPd q.length s = .next s.drainedPd := by
  induction q with
  | nil => exact fun hq => by rw [State.drainedPd_of_outq_nil hq]; rfl
  | cons w rest ih =>
    intro s hq
    have hw := hem w List.mem_cons_self
    cases hd : decodeDo w with
    | error e => simp [emittable, decode, hd] at hw
    | ok i =>
      obtain ⟨t, hx, ht, hdr⟩ := exec_doWord_head hq hd
      simp only [drainPd, List.length_cons, hq, decode, hd, hx]
      rw [ih (fun v hv => hem v (List.mem_cons_of_mem w hv)) ht, hdr]

/-- A run goes on from the state in which the event consumer has taken all that stood in `outq`. -/
theorem runPd_drained {s : State} (hem : ∀ w ∈ s.pd.outq, emittable (.dout w) = true) (is : List Instr) :
    runPd is s = runPd is s.drainedPd :=
  runPd_of_drain (drainPd_all hem rfl) rfl is

/-! ## The run of one packet -/

theorem runPd_byte {s : State} {pd : Pd} {b : Byte} (hq : s.pd.outq = []) (hrule : Pd.byte b s.pd = .ok pd)
    (is : List Instr) : runPd (.byte b :: is) s = runPd is { s with pd := pd } :=
  runPd_cons hq ((exec_byte s b).trans (acceptPd_ok hq hrule)) is

theorem runPd_timeout {s : State} {pd : Pd} {d : Byte} (hq : s.pd.outq = []) (hrule : s.pd.timeout = .ok pd)
    (is : List Instr) : runPd (.timeout d :: is) s = runPd is { s with pd := pd } :=
  runPd_cons hq ((exec_timeout s d).trans (acceptPd_ok hq hrule)) is

/-- PD takes bytes one after another, its queue empty before each. -/
inductive Pd.Takes : Pd → List Byte → Pd → Prop where
  | nil (pd : Pd) : Takes pd [] pd
  | cons {pd pd1 pd2 : Pd} {b : Byte} {bs : List Byte} (hq : pd.outq = []) (hrule : Pd.byte b pd = .ok pd1)
      (h : Takes pd1 bs pd2) : Takes pd (b :: bs) pd2

theorem Pd.Takes.append {pd pd1 pd2 : Pd} {bs cs : List Byte} (h : pd.Takes bs pd1) (h' : pd1.Takes cs pd2) :
    pd.Takes (bs ++ cs) pd2 := by
  induction h with
  | nil _ => exact h'
  | cons hq hrule _ ih => exact .cons hq hrule (ih h')

/-- A run goes on from the state in which PD has taken its first bytes. -/
theorem runPd_takes {bs : List Byte} (is : List Instr) {pd : Pd} :
    ∀ {s : State}, s.pd.Takes bs pd → runPd (bs.map Instr.byte ++ is) s = runPd is { s with pd := pd } := by
  induction bs with
  | nil => rintro s ⟨⟩; rfl
  | cons b bs ih =>
    rintro s (_ | ⟨hq, hrule, h⟩)
    exact (runPd_byte hq hrule _).trans (ih h)

/-- What PD holds after the header of a packet with type `t` and length `len` and the payload bytes `q` (R166, R167). -/
structure Pd.Holds (pd : Pd) (t : Byte) (len : Half) (q : List Byte) : Prop where
  outq : pd.outq = []
  mode : pd.mode = .body
  type : pd.dtype = t
  length : pd.dlen = len
  csum : pd.csum = xorBytes (header t len ++ q)
  written : readRange pd.buf 0 pd.bcnt.val = .ok q

theorem Pd.Holds.bcnt {pd : Pd} {t : Byte} {len : Half} {q : List Byte} (h : pd.Holds t len q) :
    pd.bcnt.val = q.length :=
  (readRange_length _ _ _ _ h.written).symm

/-- The four header bytes bring a seeking PD into BODY, with no payload byte taken yet (R162, R164 to R166). -/
theorem Pd.takes_header {pd : Pd} (hm : pd.mode = .seek) (hq : pd.outq = []) (t : Byte) (len : Half) :
    ∃ pd', pd.Takes (header t len) pd' ∧ pd'.Holds t len [] := by
  have hhi := Pd.byte_of_hdr_two (pd := (pd.startPacket.takeType t).takeLenLo (lo len)) (b := hi len) rfl rfl
  refine ⟨_, .cons hq (Pd.byte_of_seek_start hm) <| .cons hq (Pd.byte_of_hdr_zero rfl rfl) <|
    .cons hq (Pd.byte_of_hdr_one rfl rfl) <| .cons hq hhi <| .nil _, ?_⟩
  exact {
    outq := hq
    mode := rfl
    type := rfl
    length := joinHi_lo_hi len
    csum := by simp [header, xorBytes, BitVec.xor_assoc]
    written := rfl }

/-- One payload byte more (R167). -/
theorem Pd.Holds.byte {pd : Pd} {t : Byte} {len : Half} {q : List Byte} (h : pd.Holds t len q) (b : Byte)
    (hlt : q.length < len.toNat) : ∃ pd', Pd.byte b pd = .ok pd' ∧ pd'.Holds t len (q ++ [b]) := by
  have hlt' : pd.bcnt.val < pd.dlen.toNat := by rwa [h.bcnt, h.length]
  have hin : pd.bcnt.val < Config.bufBytes := Nat.lt_of_lt_of_le hlt' (Nat.le_of_lt_succ pd.dlen.isLt)
  exact ⟨_, Pd.byte_of_body_store h.mode hlt', {
    outq := h.outq
    mode := h.mode
    type := h.type
    length := h.length
    csum := by simp [h.csum, xorBytes_append, xorBytes, BitVec.xor_assoc]
    written := readRange_append pd.buf pd.bcnt.val q b h.written hin }⟩

/-- Payload bytes that fit the length. -/
theorem Pd.Holds.takes_payload {t : Byte} {len : Half} (p : List Byte) :
    ∀ {pd : Pd} {q : List Byte}, pd.Holds t len q → q.length + p.length ≤ len.toNat →
      ∃ pd', pd.Takes p pd' ∧ pd'.Holds t len (q ++ p) := by
  induction p with
  | nil => exact fun {pd q} h _ => ⟨pd, .nil pd, by simpa using h⟩
  | cons b p ih =>
    intro pd q h hfit
    rw [List.length_cons] at hfit
    obtain ⟨pd1, hrule, h1⟩ := h.byte b (by omega)
    obtain ⟨pd', htakes, h'⟩ := ih h1 (by rw [List.length_append, List.length_singleton]; omega)
    exact ⟨pd', .cons h.outq hrule htakes, by simpa using h'⟩

/-- A header and payload bytes that fit the length it gives. -/
theorem Pd.takes_header_payload {pd : Pd} (hm : pd.mode = .seek) (hq : pd.outq = []) (t : Byte) {len : Half}
    {q : List Byte} (hfit : q.length ≤ len.toNat) : ∃ pd', pd.Takes (header t len ++ q) pd' ∧ pd'.Holds t len q := by
  obtain ⟨pd1, hhead, h1⟩ := Pd.takes_header hm hq t len
  obtain ⟨pd', hpay, h'⟩ := h1.takes_payload q (by simpa using hfit)
  exact ⟨pd', hhead.append hpay, h'⟩

/-- With the whole payload held, the checksum byte of the packet matches (R168). -/
theorem Pd.Holds.checksum {pd : Pd} {t : Byte} {p : List Byte} (h : pd.Holds t (lengthField p) p)
    (hp : p.length ≤ 65535) :
    Pd.byte (packetChecksum t p) pd = .ok (pd.emit (decodedWords t (lengthField p) p)).toSeek := by
  have hc : pd.bcnt.val = pd.dlen.toNat := by rw [h.bcnt, h.length, lengthField_toNat p hp]
  have hsum : packetChecksum t p = pd.csum := h.csum.symm
  rw [Pd.byte_of_body_last h.mode hc, hsum, Pd.validate_csum (hc ▸ h.written), h.type, h.length]

/-- A seeking PD takes the bytes of a packet, returns to SEEK and emits DECODED and the payload (R178). -/
theorem Pd.takes_packet {pd : Pd} (hm : pd.mode = .seek) (hq : pd.outq = []) (t : Byte) {p : List Byte}
    (hp : p.length ≤ 65535) :
    ∃ pd', pd.Takes (packetBytes t p) pd' ∧ pd'.mode = .seek ∧ pd'.outq = decodedWords t (lengthField p) p := by
  obtain ⟨pd', htakes, h'⟩ := Pd.takes_header_payload hm hq t (lengthField_toNat p hp).ge
  exact ⟨_, htakes.append (.cons h'.outq (h'.checksum hp) (.nil _)), rfl, by simp [h'.outq]⟩

/-- The event consumer takes the words of a packet that PD was given in SEEK. -/
theorem runPd_packet {s : State} (hm : s.pd.mode = .seek) (hq : s.pd.outq = []) (t : Byte) {p : List Byte}
    (hp : p.length ≤ 65535) (is : List Instr) :
    ∃ pd : Pd, pd.mode = .seek ∧ pd.outq = decodedWords t (lengthField p) p ∧
      runPd ((packetBytes t p).map Instr.byte ++ is) s = runPd is ({ s with pd := pd } : State).drainedPd := by
  obtain ⟨pd, htakes, hseek, hwords⟩ := Pd.takes_packet hm hq t hp
  have hem := emittable_decodedWords t (lengthField p) p (lengthField_toNat p hp).symm
  exact ⟨pd, hseek, hwords, (runPd_takes is htakes).trans (runPd_drained (by rwa [hwords]) is)⟩

theorem map_fst_frame (t : Byte) (p : List Byte) : (frame t p).map Prod.fst = packetBytes t p := by
  rw [frame, packetBytes, List.map_append, List.map_map]
  exact congrArg (· ++ [packetChecksum t p]) (List.map_id _)

/-- Settles O45: the bytes of `frame(t, p)` are those of the packet, whose words the event consumer takes. -/
theorem roundTrip : Obligations.RoundTrip := by
  intro s t p hp hm hq
  have hbytes : (frame t p).map (fun x => Instr.byte x.1) = (packetBytes t p).map Instr.byte ++ [] := by
    rw [List.append_nil, ← map_fst_frame, List.map_map]
    rfl
  obtain ⟨pd, hseek, hwords, hrun⟩ := runPd_packet hm hq t hp []
  rw [hbytes, hrun]
  refine ⟨_, runPd_nil rfl, hseek, rfl, ?_⟩
  simp only [State.drainedPd_doTaken, hwords, decodedWords, payloadWords_eq_mapIdx, Nat.zero_add]
  rfl

/-! ## The run of a truncated packet -/

/-- The start marker and at most two header bytes leave PD in HDR with those bytes counted; a type byte that has not
arrived reads as 0x00 (R162, R164, R165). -/
theorem Pd.Inv.takes_short_header {pd : Pd} (h : pd.Inv) (hm : pd.mode = .seek) (hq : pd.outq = []) (t : Byte)
    (len : Half) (got : Fin 3) :
    ∃ pd', pd.Takes ((header t len).take (got.val + 1)) pd' ∧ pd'.mode = .hdr ∧ pd'.outq = [] ∧ pd'.hcnt = got ∧
      pd'.dtype = if got.val = 0 then 0x00 else t := by
  obtain ⟨-, htype, -⟩ := h.seek hm
  have hstart := Pd.byte_of_seek_start hm
  have hty := Pd.byte_of_hdr_zero (pd := pd.startPacket) (b := t) rfl rfl
  have hlo := Pd.byte_of_hdr_one (pd := pd.startPacket.takeType t) (b := lo len) rfl rfl
  match got with
  | 0 => exact ⟨_, .cons hq hstart (.nil _), rfl, hq, rfl, htype⟩
  | 1 => exact ⟨_, .cons hq hstart (.cons hq hty (.nil _)), rfl, hq, rfl, rfl⟩
  | 2 => exact ⟨_, .cons hq hstart (.cons hq hty (.cons hq hlo (.nil _))), rfl, hq, rfl, rfl⟩

/-- A seeking PD drops every TIMEOUT (R163). -/
theorem runPd_timeouts_of_seek {s : State} (hm : s.pd.mode = .seek) (hq : s.pd.outq = []) (d : Byte) (n : Nat) :
    runPd (List.replicate n (.timeout d)) s = .next s := by
  induction n with
  | zero => exact runPd_nil hq
  | succ n ih => rw [List.replicate_succ, runPd_timeout hq (Pd.timeout_of_seek hm), ih]

/-- Once PD has taken bytes that leave a packet attempt open, a TIMEOUT fails the attempt and the event consumer takes
that one word; the TIMEOUT beats after it give nothing. -/
theorem runPd_takes_timeouts {s : State} {pd : Pd} {bs : List Byte} {w : DoWord} (htakes : s.pd.Takes bs pd)
    (hq : pd.outq = []) (hrule : pd.timeout = .ok (pd.fail w)) (hw : emittable (.dout w) = true) (d : Byte) (n : Nat) :
    ∃ u, runPd (bs.map Instr.byte ++ .timeout d :: List.replicate n (.timeout d)) s = .next u ∧
      u.pd.mode = .seek ∧ u.pd.outq = [] ∧ u.doTaken = s.doTaken ++ [w] := by
  have hrun : runPd (bs.map Instr.byte ++ .timeout d :: List.replicate n (.timeout d)) s =
      .next ({ s with pd := pd.fail w } : State).drainedPd := by
    rw [runPd_takes _ htakes, runPd_timeout hq hrule, runPd_drained (by simpa [hq] using hw)]
    exact runPd_timeouts_of_seek rfl rfl d n
  exact ⟨_, hrun, rfl, rfl, by simp [hq]⟩

/-- The packet cut inside its first four bytes is its header cut there. -/
theorem take_packetBytes_of_le_four (t : Byte) (p : List Byte) {k : Nat} (hk : k ≤ 4) :
    (packetBytes t p).take k = (header t (lengthField p)).take k := by
  rw [packetBytes, List.append_assoc]
  exact List.take_append_of_le_length hk

/-- The packet cut before its checksum byte is its header and its payload cut there. -/
theorem take_packetBytes_four_add (t : Byte) (p : List Byte) {n : Nat} (hn : n ≤ p.length) :
    (packetBytes t p).take (4 + n) = header t (lengthField p) ++ p.take n := by
  rw [packetBytes, List.append_assoc, ← List.take_append_of_le_length (l₂ := [packetChecksum t p]) hn]
  exact List.take_length_add_append (l₁ := header t (lengthField p)) n

/-- A packet cut in its first three bytes gives one HDR_FAIL (R170, R180). -/
theorem runPd_truncated_header {s : State} (hinv : s.pd.Inv) (hm : s.pd.mode = .seek) (hq : s.pd.outq = []) (t d : Byte)
    (p : List Byte) (got : Fin 3) (n : Nat) :
    ∃ u, runPd (((packetBytes t p).take (got.val + 1)).map Instr.byte ++
        .timeout d :: List.replicate n (.timeout d)) s = .next u ∧
      u.pd.mode = .seek ∧ u.pd.outq = [] ∧ u.doTaken = s.doTaken ++
        [doWord .hdrFail 0 (if got.val = 0 then 0x00 else t) (BitVec.ofNat 16 got.val) 0x0000] := by
  obtain ⟨pd, htakes, hhdr, hout, hgot, htype⟩ := hinv.takes_short_header hm hq t (lengthField p) got
  have hrule := Pd.timeout_of_hdr hhdr
  rw [hgot, htype] at hrule
  rw [take_packetBytes_of_le_four t p (by omega)]
  exact runPd_takes_timeouts htakes hout hrule (emittable_hdrFail _ got fun hlt => if_pos (Nat.lt_one_iff.mp hlt)) d n

/-- A packet cut after its header gives one BODY_FAIL (R171, R180). -/
theorem runPd_truncated_body {s : State} (hm : s.pd.mode = .seek) (hq : s.pd.outq = []) (t d : Byte) {p : List Byte}
    (hp : p.length ≤ 65535) {j : Nat} (hj : j ≤ p.length) (n : Nat) :
    ∃ u, runPd (((packetBytes t p).take (4 + j)).map Instr.byte ++
        .timeout d :: List.replicate n (.timeout d)) s = .next u ∧
      u.pd.mode = .seek ∧ u.pd.outq = [] ∧ u.doTaken = s.doTaken ++
        [doWord .bodyFail 0 t (lengthField p) (BitVec.ofNat 16 j)] := by
  have hlen := lengthField_toNat p hp
  have htake : (p.take j).length = j := List.length_take_of_le hj
  obtain ⟨pd, htakes, h⟩ := Pd.takes_header_payload hm hq t (q := p.take j) (len := lengthField p) (by omega)
  have hcount : pd.bcnt.val = j := h.bcnt.trans htake
  have hem := emittable_bodyFail t (lengthField p) pd.bcnt (by omega)
  have hrule := Pd.timeout_of_body h.mode
  rw [h.type, h.length, hcount] at hrule
  rw [hcount] at hem
  rw [take_packetBytes_four_add t p hj]
  exact runPd_takes_timeouts htakes h.outq hrule hem d n

/-- Settles O47: the first three bytes leave PD in HDR and each later one in BODY, so the first TIMEOUT fails the
attempt with the counts of R180, and those after it meet a seeking PD. -/
theorem truncationRecovery : Obligations.TruncationRecovery := by
  intro s t d p k n hp hk1 hk hinv hm hq
  rw [List.append_assoc]
  by_cases hshort : k ≤ 3
  · obtain ⟨got, rfl⟩ : ∃ got : Fin 3, k = got.val + 1 := ⟨⟨k - 1, by omega⟩, (Nat.sub_add_cancel hk1).symm⟩
    obtain ⟨u, hrun, hseek, hempty, htaken⟩ := runPd_truncated_header hinv hm hq t d p got n
    exact ⟨u, hrun, hseek, hempty, fun _ => by simpa using htaken, fun h4 => absurd h4 (by omega)⟩
  · obtain ⟨j, rfl⟩ : ∃ j, k = 4 + j := ⟨k - 4, by omega⟩
    obtain ⟨u, hrun, hseek, hempty, htaken⟩ := runPd_truncated_body hm hq t d hp (j := j) (by omega) n
    refine ⟨u, hrun, hseek, hempty, fun h => absurd h hshort, fun _ => ?_⟩
    rw [Nat.add_sub_cancel_left]
    exact htaken

end Sys2Proof.Machine
end

section
/-! The proofs about PD's payload dispatch: the class of a packet (spec/42_dispatch.md R210), valid UTF-8 as a
concatenation of sequences (R227), and the fields of the KEYBOARD and MOUSE payloads (R220 to R225). -/

namespace Sys2Proof.Machine

/-! ## The sequences of the table of R227 -/

/-- Bytes that lie in the given ranges, one byte for each range. -/
def InRanges (ranges : List (Nat × Nat)) (s : List Byte) : Prop :=
  List.Forall₂ (fun r b => r.1 ≤ b.toNat ∧ b.toNat ≤ r.2) ranges s

/-- The byte `a` and the bytes `s` after it are one sequence of the row. -/
structure Utf8Row.Fits (row : Utf8Row) (a : Byte) (s : List Byte) : Prop where
  first : row.first.1 ≤ a.toNat ∧ a.toNat ≤ row.first.2
  rest : InRanges row.rest s

theorem inRange_iff {r : Nat × Nat} {b : Byte} : inRange r b = true ↔ r.1 ≤ b.toNat ∧ b.toNat ≤ r.2 := by
  simp [inRange]

/-- Bytes in the ranges that the scan still asks for leave validity to the bytes after them. -/
theorem utf8Scan_append {pending : List (Nat × Nat)} {s : List Byte} (h : InRanges pending s) (q : List Byte) :
    utf8Scan pending (s ++ q) = utf8Valid q := by
  induction h with
  | nil => rfl
  | cons hb _ ih => simpa [utf8Scan, inRange_iff.mpr hb] using ih

/-- A sequence of the row of number `i` before valid bytes makes valid bytes. -/
theorem utf8Valid_sequence (i : Fin 9) {a : Byte} {s q : List Byte} (h : (utf8Rows.get i).Fits a s)
    (hq : utf8Valid q = true) : utf8Valid (a :: (s ++ q)) = true := by
  rw [utf8Valid, utf8Scan, utf8Row_of_mem _ (List.get_mem utf8Rows i) a (inRange_iff.mpr h.first)]
  exact (utf8Scan_append h.rest q).trans hq

/-- A sequence of a row before a concatenation makes a concatenation: each row has its constructor. -/
theorem Utf8Concat.sequence {row : Utf8Row} (hrow : row ∈ utf8Rows) {a : Byte} {s q : List Byte} (h : row.Fits a s)
    (hq : Utf8Concat q) : Utf8Concat (a :: (s ++ q)) := by
  have eq_of_bounds {n : Byte} (hn : n.toNat ≤ a.toNat ∧ a.toNat ≤ n.toNat) : a = n :=
    BitVec.eq_of_toNat_eq (Nat.le_antisymm hn.2 hn.1)
  obtain ⟨ha, hs⟩ := h
  simp only [utf8Rows, List.mem_cons, List.not_mem_nil, or_false] at hrow
  obtain rfl | rfl | rfl | rfl | rfl | rfl | rfl | rfl | rfl := hrow <;>
    simp only [InRanges, List.forall₂_nil_left_iff, List.forall₂_cons_left_iff] at hs
  · obtain rfl := hs
    exact .seq1 _ _ ha.2 hq
  · obtain ⟨b, _, hb, rfl, rfl⟩ := hs
    exact .seq2 _ _ _ ha hb hq
  · obtain ⟨b, _, hb, ⟨c, _, hc, rfl, rfl⟩, rfl⟩ := hs
    exact .seq3a _ _ _ _ (eq_of_bounds ha) hb hc hq
  · obtain ⟨b, _, hb, ⟨c, _, hc, rfl, rfl⟩, rfl⟩ := hs
    exact .seq3b _ _ _ _ ha hb hc hq
  · obtain ⟨b, _, hb, ⟨c, _, hc, rfl, rfl⟩, rfl⟩ := hs
    exact .seq3c _ _ _ _ (eq_of_bounds ha) hb hc hq
  · obtain ⟨b, _, hb, ⟨c, _, hc, rfl, rfl⟩, rfl⟩ := hs
    exact .seq3d _ _ _ _ ha hb hc hq
  · obtain ⟨b, _, hb, ⟨c, _, hc, ⟨d, _, hd, rfl, rfl⟩, rfl⟩, rfl⟩ := hs
    exact .seq4a _ _ _ _ _ (eq_of_bounds ha) hb hc hd hq
  · obtain ⟨b, _, hb, ⟨c, _, hc, ⟨d, _, hd, rfl, rfl⟩, rfl⟩, rfl⟩ := hs
    exact .seq4b _ _ _ _ _ ha hb hc hd hq
  · obtain ⟨b, _, hb, ⟨c, _, hc, ⟨d, _, hd, rfl, rfl⟩, rfl⟩, rfl⟩ := hs
    exact .seq4c _ _ _ _ _ (eq_of_bounds ha) hb hc hd hq

/-! ## Valid UTF-8 -/

/-- Each constructor of a concatenation is a sequence of the row of its number. -/
theorem Utf8Concat.utf8Valid_eq {p : List Byte} (h : Utf8Concat p) : utf8Valid p = true := by
  induction h with
  | nil => rfl
  | seq1 a p ha _ ih => exact utf8Valid_sequence 0 ⟨⟨Nat.zero_le _, ha⟩, .nil⟩ ih
  | seq2 a b p ha hb _ ih => exact utf8Valid_sequence 1 ⟨ha, .cons hb .nil⟩ ih
  | seq3a a b c p ha hb hc _ ih => exact utf8Valid_sequence 2 ⟨by simp [ha, utf8Rows], .cons hb (.cons hc .nil)⟩ ih
  | seq3b a b c p ha hb hc _ ih => exact utf8Valid_sequence 3 ⟨ha, .cons hb (.cons hc .nil)⟩ ih
  | seq3c a b c p ha hb hc _ ih => exact utf8Valid_sequence 4 ⟨by simp [ha, utf8Rows], .cons hb (.cons hc .nil)⟩ ih
  | seq3d a b c p ha hb hc _ ih => exact utf8Valid_sequence 5 ⟨ha, .cons hb (.cons hc .nil)⟩ ih
  | seq4a a b c d p ha hb hc hd _ ih =>
    exact utf8Valid_sequence 6 ⟨by simp [ha, utf8Rows], .cons hb (.cons hc (.cons hd .nil))⟩ ih
  | seq4b a b c d p ha hb hc hd _ ih => exact utf8Valid_sequence 7 ⟨ha, .cons hb (.cons hc (.cons hd .nil))⟩ ih
  | seq4c a b c d p ha hb hc hd _ ih =>
    exact utf8Valid_sequence 8 ⟨by simp [ha, utf8Rows], .cons hb (.cons hc (.cons hd .nil))⟩ ih

/-- What the scan accepts is bytes in the ranges it still asks for, then a concatenation. -/
theorem exists_append_of_utf8Scan {pending : List (Nat × Nat)} {p : List Byte} (h : utf8Scan pending p = true) :
    ∃ s q, p = s ++ q ∧ InRanges pending s ∧ Utf8Concat q := by
  induction p generalizing pending with
  | nil =>
    obtain rfl : pending = [] := by simpa [utf8Scan] using h
    exact ⟨[], [], rfl, .nil, .nil⟩
  | cons b bs ih =>
    cases pending with
    | nil =>
      rw [utf8Scan] at h
      split at h
      next row hrow =>
        obtain ⟨hmem, hb⟩ := utf8Row_mem hrow
        obtain ⟨s, q, rfl, hs, hq⟩ := ih h
        exact ⟨[], _, rfl, .nil, .sequence hmem ⟨inRange_iff.mp hb, hs⟩ hq⟩
      next => cases h
    | cons r rs =>
      obtain ⟨hb, hbs⟩ := Bool.and_eq_true_iff.mp h
      obtain ⟨s, q, rfl, hs, hq⟩ := ih hbs
      exact ⟨b :: s, q, rfl, .cons (inRange_iff.mp hb) hs, hq⟩

/-- Settles O51: the scan begins with no range pending, so what it accepts is a concatenation, by induction on the
bytes; and each constructor of a concatenation is a sequence of a row, which the scan passes over. -/
theorem utf8ValidIsConcatenation : Obligations.Utf8ValidIsConcatenation := by
  intro p
  refine ⟨fun h => ?_, Utf8Concat.utf8Valid_eq⟩
  obtain ⟨s, q, rfl, hs, hq⟩ := exists_append_of_utf8Scan h
  obtain rfl := List.forall₂_nil_left_iff.mp hs
  exact hq

/-! ## The class of a packet -/

theorem classify_keyboard (p : List Byte) :
    classify Config.tyKeyboard p = if p.length = Config.keyboardLen then .keyboard else .malformed := rfl

theorem classify_mouse (p : List Byte) :
    classify Config.tyMouse p = if Config.mouseMinLen ≤ p.length then .mouse else .malformed := rfl

theorem classify_ledUpdate (p : List Byte) : classify Config.tyLedUpdate p = .ledUpdate := rfl

theorem classify_status (p : List Byte) :
    classify Config.tyStatus p = if utf8Valid p then .statusText else .statusRaw := rfl

theorem classify_ack (p : List Byte) : classify Config.tyAck p = .ack := rfl

theorem classify_of_unknown {t : Byte} (ht : t = 0x00 ∨ 6 ≤ t.toNat) (p : List Byte) :
    classify t p = .unrecognized := by
  have hval : t.toNat = 0 ∨ 6 ≤ t.toNat := ht.imp_left (congrArg BitVec.toNat)
  have hne {n : Byte} (hpos : 0 < n.toNat) (hlt : n.toNat < 6) : t ≠ n := by
    rintro rfl
    omega
  rw [classify, if_neg, if_neg, if_neg, if_neg, if_neg] <;> exact hne (by decide) (by decide)

/-- Settles O50: the row of each known type, and the last row for the types that no row names. -/
theorem classifyFollowsTheTable : Obligations.ClassifyFollowsTheTable := by
  intro t p
  refine ⟨?_, ?_, ?_, ?_, ?_, ?_, ?_, ?_, fun ht => congrArg PacketClass.code (classify_of_unknown ht p)⟩
  · rintro rfl hlen
    exact congrArg PacketClass.code ((classify_keyboard p).trans (if_pos hlen))
  · rintro rfl hlen
    exact congrArg PacketClass.code ((classify_keyboard p).trans (if_neg hlen))
  · rintro rfl hlen
    exact congrArg PacketClass.code ((classify_mouse p).trans (if_pos hlen))
  · rintro rfl hlen
    exact congrArg PacketClass.code ((classify_mouse p).trans (if_neg (Nat.not_le.mpr hlen)))
  · rintro rfl
    exact congrArg PacketClass.code (classify_ledUpdate p)
  · rintro rfl hvalid
    exact congrArg PacketClass.code ((classify_status p).trans (if_pos hvalid))
  · rintro rfl hvalid
    exact congrArg PacketClass.code ((classify_status p).trans (if_neg (Bool.eq_false_iff.mp hvalid)))
  · rintro rfl
    exact congrArg PacketClass.code (classify_ack p)

/-! ## The fields of KEYBOARD and MOUSE payloads -/

/-- A modifier is named exactly when its bit is set (R220). -/
theorem mem_modifiersOf {x : Modifier} {i : Nat} (hi : i < 8) (hbit : x.bit = 1#8 <<< i) (b : Byte) :
    x ∈ modifiersOf b ↔ b.getLsbD i = true := by
  have hmem : x ∈ allModifiers := by cases x <;> decide
  rw [modifiersOf, List.mem_filter, hbit, and_bit_eq_getLsbD b i hi, and_iff_right hmem]

/-- A button is named exactly when its bit is set (R223). -/
theorem mem_buttonsOf {x : Button} {i : Nat} (hi : i < 8) (hbit : x.bit = 1#8 <<< i) (b : Byte) :
    x ∈ buttonsOf b ↔ b.getLsbD i = true := by
  have hmem : x ∈ allButtons := by cases x <;> decide
  rw [buttonsOf, List.mem_filter, hbit, and_bit_eq_getLsbD b i hi, and_iff_right hmem]

theorem nodup_modifiersOf (b : Byte) : (modifiersOf b).Nodup :=
  List.Nodup.filter _ (by decide)

theorem nodup_buttonsOf (b : Byte) : (buttonsOf b).Nodup :=
  List.Nodup.filter _ (by decide)

theorem interpret_mouse (b x y : Byte) (more : List Byte) :
    interpret .mouse (b :: x :: y :: more) = some (.mouse (buttonsOf b) x.toInt y.toInt) := by
  rw [← sext8_eq_toInt, ← sext8_eq_toInt]
  rfl

/-- Settles O53: the modifiers by their bits, and the keys as the slots' nonzero bytes with repeats dropped. -/
theorem keyboardFieldsAreInterpreted : Obligations.KeyboardFieldsAreInterpreted := by
  intro m r k2 k3 k4 k5 k6 k7
  refine ⟨modifiersOf m, _, rfl, nodup_modifiersOf m, nodup_dropRepeats _,
    mem_modifiersOf (by decide) rfl m, mem_modifiersOf (by decide) rfl m, mem_modifiersOf (by decide) rfl m,
    mem_modifiersOf (by decide) rfl m, mem_modifiersOf (by decide) rfl m, mem_modifiersOf (by decide) rfl m,
    mem_modifiersOf (by decide) rfl m, mem_modifiersOf (by decide) rfl m, fun k => ?_⟩
  simp only [mem_dropRepeats, List.mem_filter, Bool.not_eq_true', beq_eq_false_iff_ne]
  exact and_comm

/-- Settles O54: the buttons by their bits; the movement bytes are read in two's complement. -/
theorem mouseFieldsAreInterpreted : Obligations.MouseFieldsAreInterpreted := by
  intro b x y more
  exact ⟨buttonsOf b, interpret_mouse b x y more, nodup_buttonsOf b, mem_buttonsOf (by decide) rfl b, mem_buttonsOf (by decide) rfl b,
    mem_buttonsOf (by decide) rfl b⟩

end Sys2Proof.Machine
end

section
/-! The proofs about the decoder and the encoder: each undoes the other, and the codes marked "never emitted" are the
only ones without an instruction (spec/30_encoding.md R91 to R100). -/

namespace Sys2Proof.Machine

/-! ## The two-way tables -/

section Decode

variable (d : Byte)

theorem decodeFi_sop : decodeFi (fiWord 0b00 d) = .sop d := by simp [decodeFi]
theorem decodeFi_data : decodeFi (fiWord 0b01 d) = .data d := by simp [decodeFi]
theorem decodeFi_eop : decodeFi (fiWord 0b10 d) = .eop d := by simp [decodeFi]
theorem decodeFi_rsvd : decodeFi (fiWord 0b11 d) = .rsvd d := by simp [decodeFi]
theorem decodeDi_byte : decodeDi (diWord 0 d) = .byte d := by simp [decodeDi]
theorem decodeDi_timeout : decodeDi (diWord 1 d) = .timeout d := by simp [decodeDi]

end Decode

theorem decodeFo_foWord (last : Bool) (b : Byte) : decodeFo (foWord last b) = .foByte last b := by
  simp [decodeFo]

/-- Every `fi` word is the word of one of the four operations (R92). -/
theorem fiWord_cases (w : FiWord) :
    ∃ d, w = fiWord 0b00 d ∨ w = fiWord 0b01 d ∨ w = fiWord 0b10 d ∨ w = fiWord 0b11 d := by
  have hop : ∀ op : BitVec 2, op = 0b00 ∨ op = 0b01 ∨ op = 0b10 ∨ op = 0b11 := by decide
  refine ⟨fiData w, ?_⟩
  rw [← fiWord_fields w, fiData_fiWord]
  exact (hop (fiOp w)).imp (congrArg (fiWord · _))
    (Or.imp (congrArg (fiWord · _)) (Or.imp (congrArg (fiWord · _)) (congrArg (fiWord · _))))

/-- Every `di` word is the word of a BYTE or a TIMEOUT (R96). -/
theorem diWord_cases (w : DiWord) : ∃ d, w = diWord 0 d ∨ w = diWord 1 d := by
  have hkind : ∀ k : BitVec 1, k = 0 ∨ k = 1 := by decide
  refine ⟨diData w, ?_⟩
  rw [← diWord_fields w, diData_diWord]
  exact (hkind (diKind w)).imp (congrArg (diWord · _)) (congrArg (diWord · _))

theorem encode_decodeFi (w : FiWord) : encode (decodeFi w) = .fi w := by
  obtain ⟨d, rfl | rfl | rfl | rfl⟩ := fiWord_cases w
  · rw [decodeFi_sop, encode]
  · rw [decodeFi_data, encode]
  · rw [decodeFi_eop, encode]
  · rw [decodeFi_rsvd, encode]

theorem encode_decodeDi (w : DiWord) : encode (decodeDi w) = .di w := by
  obtain ⟨d, rfl | rfl⟩ := diWord_cases w
  · rw [decodeDi_byte, encode]
  · rw [decodeDi_timeout, encode]

theorem encode_doInstr (k : DoKind) (cls : Nibble) (ty : Byte) (a b : Half) :
    encode (doInstr k cls ty a b) = .dout (doWord k cls ty a b) := by
  cases k <;> rfl

theorem encode_of_decodeDo {w : DoWord} {i : Instr} (h : decodeDo w = .ok i) : encode i = .dout w := by
  obtain ⟨k, cls, ty, a, b, rfl, rfl⟩ := doWord_of_decodeDo h
  exact encode_doInstr k cls ty a b

/-- A beat that decodes is the beat of the instruction it decodes to. -/
theorem encode_of_decode {bt : Beat} {i : Instr} (h : decode bt = .ok i) : encode i = bt := by
  cases bt with
  | fi w => cases h; exact encode_decodeFi w
  | fo w => exact encode_of_decode_pfBeat (b := .fo w) h
  | fe w => exact encode_of_decode_pfBeat (b := .fe w) h
  | di w => cases h; exact encode_decodeDi w
  | dout w => exact encode_of_decodeDo h

theorem decode_encode (i : Instr) : decode (encode i) = .ok i := by
  cases i with
  | sop d => exact congrArg Except.ok (decodeFi_sop d)
  | data d => exact congrArg Except.ok (decodeFi_data d)
  | eop d => exact congrArg Except.ok (decodeFi_eop d)
  | rsvd d => exact congrArg Except.ok (decodeFi_rsvd d)
  | byte d => exact congrArg Except.ok (decodeDi_byte d)
  | timeout d => exact congrArg Except.ok (decodeDi_timeout d)
  | foByte last b => exact congrArg Except.ok (decodeFo_foWord last b)
  | fePayloadTooLarge => rfl
  | feDataWhileIdle => rfl
  | feEopWhileIdle => rfl
  | feSopWhileOpen => rfl
  | feReservedOp => rfl
  | doDecoded cls ty a b => exact decodeDo_doWord .decoded cls ty a b
  | doHdrFail cls ty a b => exact decodeDo_doWord .hdrFail cls ty a b
  | doBodyFail cls ty a b => exact decodeDo_doWord .bodyFail cls ty a b
  | doCsumErr cls ty a b => exact decodeDo_doWord .csumErr cls ty a b
  | doPayload cls ty a b => exact decodeDo_doWord .payload cls ty a b

/-- Settles O1: the decoder of each port reads back the fields that the encoder put into the word. -/
theorem decodeOfEncodeIsTheInstruction : Obligations.DecodeOfEncodeIsTheInstruction :=
  decode_encode

/-- Settles O2: a word that decodes is rebuilt from its fields; each value of an `op`, a `kind` or a `last` bit names an
operation of its port. -/
theorem eachWordSpellsOneInstruction : Obligations.EachWordSpellsOneInstruction := by
  refine ⟨fun _ _ => encode_of_decode, fun w => ?_, fun w => ?_, fun w => ⟨_, _, rfl⟩⟩
  · obtain ⟨d, rfl | rfl | rfl | rfl⟩ := fiWord_cases w
    · exact ⟨d, .inl (decode_encode (.sop d))⟩
    · exact ⟨d, .inr (.inl (decode_encode (.data d)))⟩
    · exact ⟨d, .inr (.inr (.inl (decode_encode (.eop d))))⟩
    · exact ⟨d, .inr (.inr (.inr (decode_encode (.rsvd d))))⟩
  · obtain ⟨d, rfl | rfl⟩ := diWord_cases w
    · exact ⟨d, .inl (decode_encode (.byte d))⟩
    · exact ⟨d, .inr (decode_encode (.timeout d))⟩

/-- Settles O3: each of the fourteen words is the beat of its instruction. -/
theorem specWordsDecode : Obligations.SpecWordsDecode :=
  ⟨decode_encode (.sop 0x05), decode_encode (.data 0xFB), decode_encode (.eop 0x00), decode_encode (.rsvd 0x7F),
    decode_encode (.byte 0xAA), decode_encode (.timeout 0x00), decode_encode (.foByte true 0xAF),
    decode_encode .fePayloadTooLarge, decode_encode .feReservedOp, decode_encode (.doDecoded 0x6 0x05 0x0000 0x0000),
    decode_encode (.doHdrFail 0x0 0x01 0x0001 0x0000), decode_encode (.doBodyFail 0x0 0x02 0x0003 0x0001),
    decode_encode (.doCsumErr 0x0 0x05 0x0000 0xAFAE), decode_encode (.doPayload 0x0 0x02 0x0001 0x000A)⟩

/-! ## The words never emitted -/

/-- An `fe` word has an instruction exactly when its code has a name. -/
theorem decodeFe_ok_iff (w : FeWord) : (∃ i, decodeFe w = .ok i) ↔ (FeCode.ofCode w).isSome := by
  unfold decodeFe
  split <;> simp [*]

/-- A `do` word has an instruction exactly when its kind has a name. -/
theorem decodeDo_ok_iff (w : DoWord) : (∃ i, decodeDo w = .ok i) ↔ (DoKind.ofCode (doKindField w)).isSome := by
  unfold decodeDo
  split <;> simp [*]

theorem isSome_feCode_ofCode (w : FeWord) : (FeCode.ofCode w).isSome ↔ 1 ≤ w.toNat ∧ w.toNat ≤ 5 := by
  revert w
  decide

theorem isSome_doKind_ofCode (n : Nibble) :
    (DoKind.ofCode n).isSome ↔ (1 ≤ n.toNat ∧ n.toNat ≤ 4) ∨ n.toNat = 8 := by
  revert n
  decide

/-- Settles O5: a word of `fe` or `do` has an instruction exactly when its code has a name, and the sixteen codes are
looked up. -/
theorem neverEmittedWordsAreRejected : Obligations.NeverEmittedWordsAreRejected :=
  ⟨fun w => (decodeFe_ok_iff w).trans (isSome_feCode_ofCode w),
    fun w => (decodeDo_ok_iff w).trans (isSome_doKind_ofCode (doKindField w))⟩

end Sys2Proof.Machine
end

section
/-! The proofs about the sides of an operation: an operation works on one block and what its consumers hold, and
leaves the other side alone (spec/00_scope.md R3); an input beat waits for delivery (spec/10_state.md R29); output beats
leave in order (spec/20_memory.md R62). -/

namespace Sys2Proof.Machine

/-! ## The operations of each side -/

theorem pfInput_cases {i : Instr} (h : pfInput i = true) :
    (∃ d, i = .sop d) ∨ (∃ d, i = .data d) ∨ (∃ d, i = .eop d) ∨ ∃ d, i = .rsvd d := by
  cases i <;> simp [pfInput, encode] at h ⊢

theorem pdInput_cases {i : Instr} (h : pdInput i = true) : (∃ d, i = .byte d) ∨ ∃ d, i = .timeout d := by
  cases i <;> simp [pdInput, encode] at h ⊢

/-- An input operation of PD takes a beat by its rule. -/
theorem exec_pdInput {i : Instr} (h : pdInput i = true) :
    ∃ rule : Pd → Except Fault Pd, ∀ s, exec i s = acceptPd rule s := by
  obtain ⟨d, rfl⟩ | ⟨d, rfl⟩ := pdInput_cases h
  · exact ⟨_, fun s => exec_byte s d⟩
  · exact ⟨_, fun s => exec_timeout s d⟩

/-- What is no input is the transfer of an output word. -/
theorem encode_output {i : Instr} (hpf : pfInput i = false) (hpd : pdInput i = false) :
    (∃ w, encode i = .fo w) ∨ (∃ w, encode i = .fe w) ∨ ∃ w, encode i = .dout w := by
  unfold pfInput at hpf
  unfold pdInput at hpd
  cases he : encode i <;> simp [he] at hpf hpd ⊢

/-- An operation on a port of PF is an input beat or a delivery of PF (R21). -/
theorem exec_atPf_cases {i : Instr} (h : atPf i = true) :
    (∃ rule, ∀ s, exec i s = acceptPf rule s) ∨ (∃ w, ∀ s, exec i s = deliverFo w s) ∨
      ∃ w, ∀ s, exec i s = deliverFe w s := by
  unfold atPf at h
  cases he : encode i with
  | fi w => exact .inl (exec_pfInput (pfInput_cases (by rw [pfInput, he])))
  | fo w => exact .inr (.inl ⟨w, exec_of_encode_fo he⟩)
  | fe w => exact .inr (.inr ⟨w, exec_of_encode_fe he⟩)
  | di w => simp [he] at h
  | dout w => simp [he] at h

/-- An operation on a port of PD is an input beat or a delivery of PD (R22). -/
theorem exec_not_atPf_cases {i : Instr} (h : atPf i = false) :
    (∃ rule, ∀ s, exec i s = acceptPd rule s) ∨ ∃ w file, ∀ s, exec i s = deliverDo w file s := by
  unfold atPf at h
  cases he : encode i with
  | fi w => simp [he] at h
  | fo w => simp [he] at h
  | fe w => simp [he] at h
  | di w => exact .inl (exec_pdInput (by rw [pdInput, he]))
  | dout w => exact .inr ⟨w, exec_of_encode_do he⟩

/-! ## A word that is not offered -/

theorem deliverFo_wait {w : FoWord} {s : State} (h : s.pf.outq.head? ≠ some (.fo w)) : deliverFo w s = .next s :=
  if_neg h

theorem deliverFe_wait {w : FeWord} {s : State} (h : s.pf.outq.head? ≠ some (.fe w)) : deliverFe w s = .next s :=
  if_neg h

theorem deliverDo_wait {w : DoWord} {file : Consumer → Consumer} {s : State} (h : s.pd.outq.head? ≠ some w) :
    deliverDo w file s = .next s :=
  if_neg h

/-! ## Independence -/

/-- The state with PF and what PF's consumers have taken replaced. -/
def State.withPf (s : State) (r : PfResult) : State := { s with pf := r.final, foTaken := r.fo, feTaken := r.fe }

/-- The state with PD, what its consumer has taken and the events it holds replaced. -/
def State.withPd (s : State) (r : PdResult) (c : Consumer) : State :=
  { s with pd := r.final, doTaken := r.dout, consumer := c }

/-- An operation of PF reads nothing but PF and what PF's consumers have taken, and changes nothing else. -/
theorem exec_withPf {i : Instr} (hi : atPf i = true) {s1 s2 t1 : State} (hx : exec i s1 = .next t1)
    (h : s1.pfResult = s2.pfResult) : exec i s2 = .next (s2.withPf t1.pfResult) := by
  simp only [State.pfResult, PfResult.mk.injEq] at h
  obtain ⟨hfo, hfe, hpf⟩ := h
  have hkeep : s2.withPf s1.pfResult = s2 := by simp [State.withPf, State.pfResult, hfo, hfe, hpf]
  obtain ⟨rule, hexec⟩ | ⟨w, hexec⟩ | ⟨w, hexec⟩ := exec_atPf_cases hi <;> rw [hexec] at hx ⊢
  · obtain ⟨hq, pf, hrule, rfl⟩ | ⟨hq, rfl⟩ := acceptPf_next hx
    · rw [acceptPf_ok (hpf ▸ hq) (hpf ▸ hrule)]
      simp [State.withPf, State.pfResult, hfo, hfe]
    · rw [acceptPf_wait (hpf ▸ hq), hkeep]
  · obtain ⟨rest, hq, rfl⟩ | ⟨hq, rfl⟩ := deliverFo_next hx
    · rw [deliverFo_head (hpf ▸ hq)]
      simp [State.withPf, State.pfResult, hfo, hfe, hpf]
    · rw [deliverFo_wait (hpf ▸ hq), hkeep]
  · obtain ⟨rest, hq, rfl⟩ | ⟨hq, rfl⟩ := deliverFe_next hx
    · rw [deliverFe_head (hpf ▸ hq)]
      simp [State.withPf, State.pfResult, hfo, hfe, hpf]
    · rw [deliverFe_wait (hpf ▸ hq), hkeep]

/-- An operation of PD reads nothing but PD and what its consumer holds, and changes nothing else. -/
theorem exec_withPd {i : Instr} (hi : atPf i = false) {s1 s2 t1 : State} (hx : exec i s1 = .next t1)
    (h : s1.pdResult = s2.pdResult) (hc : s1.consumer = s2.consumer) :
    exec i s2 = .next (s2.withPd t1.pdResult t1.consumer) := by
  simp only [State.pdResult, PdResult.mk.injEq] at h
  obtain ⟨hdo, hpd⟩ := h
  have hkeep : s2.withPd s1.pdResult s1.consumer = s2 := by simp [State.withPd, State.pdResult, hdo, hpd, hc]
  obtain ⟨rule, hexec⟩ | ⟨w, file, hexec⟩ := exec_not_atPf_cases hi <;> rw [hexec] at hx ⊢
  · obtain ⟨hq, pd, hrule, rfl⟩ | ⟨hq, rfl⟩ := acceptPd_next hx
    · rw [acceptPd_ok (hpd ▸ hq) (hpd ▸ hrule)]
      simp [State.withPd, State.pdResult, hdo, hc]
    · rw [acceptPd_wait (hpd ▸ hq), hkeep]
  · obtain ⟨rest, hq, rfl⟩ | ⟨hq, rfl⟩ := deliverDo_next hx
    · rw [deliverDo_head (hpd ▸ hq)]
      simp [State.withPd, State.pdResult, hdo, hpd, hc]
    · rw [deliverDo_wait (hpd ▸ hq), hkeep]

/-- An operation of PF changes PF's side alone. -/
theorem exec_atPf_frame {i : Instr} (hi : atPf i = true) {s t : State} (hx : exec i s = .next t) :
    t = s.withPf t.pfResult :=
  Host.Outcome.next.inj (hx.symm.trans (exec_withPf hi hx rfl))

/-- An operation of PD changes PD's side alone. -/
theorem exec_not_atPf_frame {i : Instr} (hi : atPf i = false) {s t : State} (hx : exec i s = .next t) :
    t = s.withPd t.pdResult t.consumer :=
  Host.Outcome.next.inj (hx.symm.trans (exec_withPd hi hx rfl rfl))

/-- Settles O42: each side's operations have the same outcome in two states that agree on that side. -/
theorem blocksAreIndependent : Obligations.BlocksAreIndependent := by
  refine ⟨fun i s1 s2 t1 hi hpf hfo hfe hx => ?_, fun i s1 s2 t1 hi hpd hdo hc hx => ?_⟩
  · exact exec_withPf hi hx (by simp [State.pfResult, hpf, hfo, hfe])
  · exact exec_withPd hi hx (by simp [State.pdResult, hpd, hdo]) hc

/-! ## The frame of an input operation -/

theorem acceptPf_frame {rule : Pf → Except Fault Pf} {s t : State} (h : acceptPf rule s = .next t) :
    { t with pf := s.pf } = s := by
  obtain ⟨-, pf, -, rfl⟩ | ⟨-, rfl⟩ := acceptPf_next h <;> rfl

theorem acceptPd_frame {rule : Pd → Except Fault Pd} {s t : State} (h : acceptPd rule s = .next t) :
    { t with pd := s.pd } = s := by
  obtain ⟨-, pd, -, rfl⟩ | ⟨-, rfl⟩ := acceptPd_next h <;> rfl

/-- A rule that keeps the buffer keeps it in a state that takes a beat by it. -/
theorem acceptPf_buf {rule : Pf → Except Fault Pf} (hkeep : ∀ {pf pf'}, rule pf = .ok pf' → pf'.buf = pf.buf)
    {s t : State} (h : acceptPf rule s = .next t) : t.pf.buf = s.pf.buf := by
  obtain ⟨-, pf, hrule, rfl⟩ | ⟨-, rfl⟩ := acceptPf_next h
  · exact hkeep hrule
  · rfl

theorem Pf.sop_buf {d : Byte} {pf pf' : Pf} (h : Pf.sop d pf = .ok pf') : pf'.buf = pf.buf := by
  obtain ⟨-, rfl⟩ | ⟨-, rfl⟩ := Pf.sop_ok h <;> rfl

theorem Pf.eop_buf {pf pf' : Pf} (h : pf.eop = .ok pf') : pf'.buf = pf.buf := by
  obtain ⟨-, rfl⟩ | ⟨-, p, -, rfl⟩ | ⟨-, rfl⟩ := Pf.eop_ok h <;> rfl

theorem Pf.rsvd_buf {pf pf' : Pf} (h : pf.rsvd = .ok pf') : pf'.buf = pf.buf := by
  cases h
  rfl

/-- DATA leaves every index but the one it stores to (R124). -/
theorem Pf.data_memRead {d : Byte} {pf pf' : Pf} (h : Pf.data d pf = .ok pf') {a : Nat}
    (ha : ¬ (pf.mode = .opened ∧ pf.fcnt.val < 65535 ∧ a = pf.fcnt.val)) : memRead pf'.buf a = memRead pf.buf a := by
  obtain ⟨-, rfl⟩ | ⟨hm, hlt, rfl⟩ | ⟨-, -, rfl⟩ | ⟨-, rfl⟩ := Pf.data_ok h
  · rfl
  · exact memRead_write_other _ _ _ _ fun heq => ha ⟨hm, hlt, heq⟩
  · rfl
  · rfl

/-- Settles O16: only DATA writes the buffer, at the index where it stores. -/
theorem pfInputFrame : Obligations.PfInputFrame := by
  intro i s t hi hx
  obtain ⟨rule, hexec⟩ := exec_pfInput (pfInput_cases hi)
  refine ⟨acceptPf_frame (hexec s ▸ hx), fun a ha => ?_⟩
  obtain ⟨d, rfl⟩ | ⟨d, rfl⟩ | ⟨d, rfl⟩ | ⟨d, rfl⟩ := pfInput_cases hi
  · rw [acceptPf_buf Pf.sop_buf hx]
  · obtain ⟨hq, pf, hrule, rfl⟩ | ⟨-, rfl⟩ := acceptPf_next hx
    · exact Pf.data_memRead hrule fun hstore => ha ⟨⟨d, rfl⟩, hq, hstore⟩
    · rfl
  · rw [acceptPf_buf Pf.eop_buf hx]
  · rw [acceptPf_buf Pf.rsvd_buf hx]

/-- BYTE leaves every index but the one it stores to (R167). -/
theorem Pd.byte_memRead {b : Byte} {pd pd' : Pd} (h : Pd.byte b pd = .ok pd') {a : Nat}
    (ha : ¬ (pd.mode = .body ∧ pd.bcnt.val < pd.dlen.toNat ∧ a = pd.bcnt.val)) :
    memRead pd'.buf a = memRead pd.buf a := by
  obtain ⟨-, rfl⟩ | ⟨-, rfl⟩ | ⟨hm, hbody⟩ := Pd.byte_ok h
  · rw [(pd.byteSeek_keeps b).1]
  · rw [(pd.byteHdr_keeps b).1]
  · obtain ⟨hlt, rfl⟩ | ⟨-, hv⟩ := Pd.byteBody_ok hbody
    · exact memRead_write_other _ _ _ _ fun heq => ha ⟨hm, hlt, heq⟩
    · obtain ⟨-, p, -, rfl⟩ | ⟨-, rfl⟩ := Pd.validate_ok hv <;> rfl

theorem Pd.timeout_buf {pd pd' : Pd} (h : pd.timeout = .ok pd') : pd'.buf = pd.buf := by
  obtain ⟨-, rfl⟩ | ⟨-, rfl⟩ | ⟨-, rfl⟩ := Pd.timeout_ok h <;> rfl

/-- Settles O24: only a payload BYTE writes the buffer, at the index where it stores. -/
theorem pdInputFrame : Obligations.PdInputFrame := by
  intro i s t hi hx
  obtain ⟨rule, hexec⟩ := exec_pdInput hi
  refine ⟨acceptPd_frame (hexec s ▸ hx), fun a ha => ?_⟩
  obtain ⟨b, rfl⟩ | ⟨d, rfl⟩ := pdInput_cases hi <;>
    obtain ⟨hq, pd, hrule, rfl⟩ | ⟨-, rfl⟩ := acceptPd_next hx
  · exact Pd.byte_memRead hrule fun hstore => ha ⟨⟨b, rfl⟩, hq, hstore⟩
  · rfl
  · exact congrArg (memRead · a) (Pd.timeout_buf hrule)
  · rfl

/-! ## Queues -/

/-- PF takes a beat only when nothing stands in its queue, so whatever stands there afterwards is new. -/
theorem acceptPf_outq {rule : Pf → Except Fault Pf} {s t : State} (h : acceptPf rule s = .next t) :
    ∃ new, t.pf.outq = s.pf.outq ++ new := by
  obtain ⟨hq, pf, -, rfl⟩ | ⟨-, rfl⟩ := acceptPf_next h
  · exact ⟨pf.outq, by rw [hq, List.nil_append]⟩
  · exact ⟨[], (List.append_nil _).symm⟩

/-- PD takes a beat only when nothing stands in its queue, so whatever stands there afterwards is new. -/
theorem acceptPd_outq {rule : Pd → Except Fault Pd} {s t : State} (h : acceptPd rule s = .next t) :
    ∃ new, t.pd.outq = s.pd.outq ++ new := by
  obtain ⟨hq, pd, -, rfl⟩ | ⟨-, rfl⟩ := acceptPd_next h
  · exact ⟨pd.outq, by rw [hq, List.nil_append]⟩
  · exact ⟨[], (List.append_nil _).symm⟩

/-- Settles O34: a delivery moves the head of a queue to the end of its consumer's record; an input beat is taken from
an empty queue only. -/
theorem portsAreFifo : Obligations.PortsAreFifo := by
  refine ⟨fun i s t hpf hpd hx => ?_, fun i s t hi hx => ?_⟩
  · obtain ⟨w, he⟩ | ⟨w, he⟩ | ⟨w, he⟩ := encode_output hpf hpd
    · obtain ⟨rest, hq, rfl⟩ | ⟨-, rfl⟩ := deliverFo_next (exec_of_encode_fo he s ▸ hx)
      · simp [hq, foWords, feWords]
      · exact ⟨rfl, rfl, rfl⟩
    · obtain ⟨rest, hq, rfl⟩ | ⟨-, rfl⟩ := deliverFe_next (exec_of_encode_fe he s ▸ hx)
      · simp [hq, foWords, feWords]
      · exact ⟨rfl, rfl, rfl⟩
    · obtain ⟨file, hexec⟩ := exec_of_encode_do he
      obtain ⟨rest, hq, rfl⟩ | ⟨-, rfl⟩ := deliverDo_next (hexec s ▸ hx)
      · simp [hq]
      · exact ⟨rfl, rfl, rfl⟩
  · obtain hi | hi := hi
    · obtain ⟨rule, hexec⟩ := exec_pfInput (pfInput_cases hi)
      rw [hexec] at hx
      have hnew := acceptPf_outq hx
      rw [← acceptPf_frame hx]
      exact ⟨rfl, rfl, rfl, hnew, [], (List.append_nil _).symm⟩
    · obtain ⟨rule, hexec⟩ := exec_pdInput hi
      rw [hexec] at hx
      have hnew := acceptPd_outq hx
      rw [← acceptPd_frame hx]
      exact ⟨rfl, rfl, rfl, ⟨[], (List.append_nil _).symm⟩, hnew⟩

/-! ## The words that a consumer takes -/

/-- Settles O29: the word at the head of the queue is delivered. -/
theorem foByteIsDelivered : Obligations.FoByteIsDelivered :=
  fun s last b _ hq => (exec_foByte s b last).trans (deliverFo_head hq)

/-- Settles O30: the code at the head of the queue is delivered. -/
theorem feCodesAreDelivered : Obligations.FeCodesAreDelivered :=
  fun s _ => ⟨fun hq => (exec_fePayloadTooLarge s).trans (deliverFe_head hq),
    fun hq => (exec_feDataWhileIdle s).trans (deliverFe_head hq),
    fun hq => (exec_feEopWhileIdle s).trans (deliverFe_head hq),
    fun hq => (exec_feSopWhileOpen s).trans (deliverFe_head hq),
    fun hq => (exec_feReservedOp s).trans (deliverFe_head hq)⟩

/-- Settles O31: the failure word at the head of the queue is delivered and filed as a whole event. -/
theorem failureWordsAreDelivered : Obligations.FailureWordsAreDelivered :=
  fun s cls ty a b _ => ⟨fun hq => (exec_doHdrFail s ty cls a b).trans (deliverDo_head hq),
    fun hq => (exec_doBodyFail s ty cls a b).trans (deliverDo_head hq),
    fun hq => (exec_doCsumErr s ty cls a b).trans (deliverDo_head hq)⟩

theorem Consumer.openEvent_doWord (c : Consumer) (k : DoKind) (cls : Nibble) (ty : Byte) (a b : Half) :
    c.openEvent (doWord k cls ty a b) =
      if a = 0 then c.finish ⟨doWord k cls ty a b, []⟩ else { c with current := some ⟨doWord k cls ty a b, []⟩ } := by
  rw [Consumer.openEvent, doA_doWord]

theorem Consumer.addPayload_of_none {c : Consumer} (h : c.current = none) (b : Byte) : c.addPayload b = c := by
  simp [Consumer.addPayload, h]

theorem Consumer.addPayload_last {c : Consumer} {e : Event} (h : c.current = some e) (b : Byte)
    (hlen : e.payload.length + 1 = (doA e.word).toNat) : c.addPayload b = c.finish ⟨e.word, e.payload ++ [b]⟩ := by
  simp [Consumer.addPayload, h, hlen]

theorem Consumer.addPayload_more {c : Consumer} {e : Event} (h : c.current = some e) (b : Byte)
    (hlen : e.payload.length + 1 ≠ (doA e.word).toNat) :
    c.addPayload b = { c with current := some ⟨e.word, e.payload ++ [b]⟩ } := by
  simp [Consumer.addPayload, h, hlen]

/-- Settles O32: DECODED opens an event by its length field; a PAYLOAD byte joins the open event, if any. -/
theorem decodedAndPayloadWordsAreDelivered : Obligations.DecodedAndPayloadWordsAreDelivered := by
  intro s cls ty a b rest
  refine ⟨fun hq => ?_, fun hq => ?_⟩
  · rw [exec_doDecoded, deliverDo_head hq, Consumer.openEvent_doWord]
    rfl
  · exact ⟨_, (exec_doPayload s ty cls a b).trans (deliverDo_head hq), rfl,
      fun hnone => Consumer.addPayload_of_none hnone _, fun e he hlen => Consumer.addPayload_last he _ hlen,
      fun e he hlen => Consumer.addPayload_more he _ hlen⟩

/-- Settles O33: a word that is not at the head is not delivered. -/
theorem unofferedBeatDoesNotTransfer : Obligations.UnofferedBeatDoesNotTransfer := by
  refine ⟨fun i s w he hhead => ?_, fun i s w he hhead => ?_, fun i s w he hhead => ?_⟩
  · exact (exec_of_encode_fo he s).trans (deliverFo_wait hhead)
  · exact (exec_of_encode_fe he s).trans (deliverFe_wait hhead)
  · obtain ⟨file, hexec⟩ := exec_of_encode_do he
    exact (hexec s).trans (deliverDo_wait hhead)

end Sys2Proof.Machine
end

section
/-! The proofs about a step: what each agent's move brings (spec/70_reset_and_hazards.md R291, spec/10_state.md R28,
R29), and from it all that a step can do. -/

namespace Sys2Proof.Machine

/-! ## What a move brings -/

section Fetch

variable {s : State}

theorem fetch_producer_of_offers_nothing (h : s.producer = []) : fetch .producer s = .idle := by
  simp [fetch, fetchProducer, h]

theorem fetch_producer_of_outq_ne_nil (h : s.pf.outq ≠ []) : fetch .producer s = .idle := by
  cases hp : s.producer <;> simp [fetch, fetchProducer, hp, State.fiReady, h]

theorem fetch_producer_of_ready {w : FiWord} {ws : List FiWord} (hp : s.producer = w :: ws) (hq : s.pf.outq = []) :
    fetch .producer s = .beat (.fi w) { s with producer := ws } := by
  simp [fetch, fetchProducer, hp, State.fiReady, hq]

theorem fetch_byteSource_of_offers_nothing (h : s.source = []) : fetch .byteSource s = .idle := by
  simp [fetch, fetchSource, h]

theorem fetch_byteSource_of_outq_ne_nil (h : s.pd.outq ≠ []) : fetch .byteSource s = .idle := by
  cases hp : s.source <;> simp [fetch, fetchSource, hp, State.diReady, h]

theorem fetch_byteSource_of_ready {w : DiWord} {ws : List DiWord} (hp : s.source = w :: ws) (hq : s.pd.outq = []) :
    fetch .byteSource s = .beat (.di w) { s with source := ws } := by
  simp [fetch, fetchSource, hp, State.diReady, hq]

theorem fetch_byteSink_of_head {w : FoWord} {rest : List PfBeat} (h : s.pf.outq = .fo w :: rest) :
    fetch .byteSink s = .beat (.fo w) s := by
  simp [fetch, fetchFo, h]

theorem fetch_byteSink_of_not_valid (h : s.foValid = false) : fetch .byteSink s = .idle := by
  unfold State.foValid at h
  simp only [fetch, fetchFo]
  split at h <;> simp_all

theorem fetch_errorConsumer_of_head {w : FeWord} {rest : List PfBeat} (h : s.pf.outq = .fe w :: rest) :
    fetch .errorConsumer s = .beat (.fe w) s := by
  simp [fetch, fetchFe, h]

theorem fetch_errorConsumer_of_not_valid (h : s.feValid = false) : fetch .errorConsumer s = .idle := by
  unfold State.feValid at h
  simp only [fetch, fetchFe]
  split at h <;> simp_all

theorem fetch_eventConsumer_of_head {w : DoWord} {rest : List DoWord} (h : s.pd.outq = w :: rest) :
    fetch .eventConsumer s = .beat (.dout w) s := by
  simp [fetch, fetchDo, h]

theorem fetch_eventConsumer_of_not_valid (h : s.doValid = false) : fetch .eventConsumer s = .idle := by
  obtain hq : s.pd.outq = [] := by simpa [State.doValid] using h
  simp [fetch, fetchDo, hq]

end Fetch

/-- Which beat a move brings: a word that a ready block is offered, or the head of a queue. -/
theorem fetch_beat_cases {turn : Turn} {s s' : State} {bt : Beat} (h : fetch turn s = .beat bt s') :
    (∃ w ws, s.producer = w :: ws ∧ s.pf.outq = [] ∧ bt = .fi w ∧ s' = { s with producer := ws }) ∨
    (∃ w ws, s.source = w :: ws ∧ s.pd.outq = [] ∧ bt = .di w ∧ s' = { s with source := ws }) ∨
    (∃ b rest, s.pf.outq = b :: rest ∧ bt = b.beat ∧ s' = s) ∨
    ∃ w rest, s.pd.outq = w :: rest ∧ bt = .dout w ∧ s' = s := by
  cases turn with
  | producer =>
    cases hp : s.producer with
    | nil => simp [fetch_producer_of_offers_nothing hp] at h
    | cons w ws =>
      by_cases hq : s.pf.outq = []
      · cases (fetch_producer_of_ready hp hq).symm.trans h
        exact .inl ⟨w, ws, rfl, hq, rfl, rfl⟩
      · simp [fetch_producer_of_outq_ne_nil hq] at h
  | byteSource =>
    cases hp : s.source with
    | nil => simp [fetch_byteSource_of_offers_nothing hp] at h
    | cons w ws =>
      by_cases hq : s.pd.outq = []
      · cases (fetch_byteSource_of_ready hp hq).symm.trans h
        exact .inr (.inl ⟨w, ws, rfl, hq, rfl, rfl⟩)
      · simp [fetch_byteSource_of_outq_ne_nil hq] at h
  | byteSink =>
    simp only [fetch, fetchFo] at h
    split at h <;> cases h
    next w rest hq => exact .inr (.inr (.inl ⟨.fo w, rest, hq, rfl, rfl⟩))
  | errorConsumer =>
    simp only [fetch, fetchFe] at h
    split at h <;> cases h
    next w rest hq => exact .inr (.inr (.inl ⟨.fe w, rest, hq, rfl, rfl⟩))
  | eventConsumer =>
    simp only [fetch, fetchDo] at h
    split at h <;> cases h
    next w rest hq => exact .inr (.inr (.inr ⟨w, rest, hq, rfl, rfl⟩))
  | integrator target => cases h

/-! ## What a step does with it -/

section Step

variable {s : State} {turn : Turn} {ts : List Turn}

theorem step_of_no_turn (h : s.turns = []) : step s = .next s := by
  simp [step, h]

theorem step_of_idle (ht : s.turns = turn :: ts) (hf : fetch turn { s with turns := ts } = .idle) :
    step s = .next { s with turns := ts } := by
  simp [step, ht, hf]

theorem step_of_rst {target : RstTarget} (ht : s.turns = .integrator target :: ts) :
    step s = .next (resetBlocks target { s with turns := ts }) := by
  simp [step, ht, fetch]

theorem step_of_beat {bt : Beat} {s' : State} {i : Instr} (ht : s.turns = turn :: ts)
    (hf : fetch turn { s with turns := ts } = .beat bt s') (hd : decode bt = .ok i) : step s = exec i s' := by
  simp [step, ht, hf, hd]

end Step

/-- Settles O35: each agent's move brings the word it offers or is offered, in the state the statement names. -/
theorem stepRunsTheDecodedBeat : Obligations.StepRunsTheDecodedBeat := by
  refine fun s ts i => ⟨fun w ws ht hp hq hd => ?_, fun w ws ht hp hq hd => ?_, fun w rest ht hq hd => ?_,
    fun w rest ht hq hd => ?_, fun w rest ht hq hd => ?_⟩
  · exact step_of_beat ht (fetch_producer_of_ready hp hq) hd
  · exact step_of_beat ht (fetch_byteSource_of_ready hp hq) hd
  · exact step_of_beat ht (fetch_byteSink_of_head hq) hd
  · exact step_of_beat ht (fetch_errorConsumer_of_head hq) hd
  · exact step_of_beat ht (fetch_eventConsumer_of_head hq) hd

/-- Settles O36: an agent with nothing to offer, or offered nothing, fetches nothing. -/
theorem stepWithoutATransferKeepsTheState : Obligations.StepWithoutATransferKeepsTheState := by
  refine ⟨fun s => step_of_no_turn, fun s ts h => ?_⟩
  obtain ⟨ht, h⟩ | ⟨ht, h⟩ | ⟨ht, h⟩ | ⟨ht, h⟩ | ⟨ht, h⟩ := h
  · exact step_of_idle ht (fetch_producer_of_offers_nothing h)
  · exact step_of_idle ht (fetch_byteSource_of_offers_nothing h)
  · exact step_of_idle ht (fetch_byteSink_of_not_valid h)
  · exact step_of_idle ht (fetch_errorConsumer_of_not_valid h)
  · exact step_of_idle ht (fetch_eventConsumer_of_not_valid h)

/-- Settles O17: a block that is not ready takes no beat, neither by the meaning of the beat nor by its producer's
move. -/
theorem inputWaitsForDelivery : Obligations.InputWaitsForDelivery := by
  refine ⟨fun i s hi hq => ?_, fun i s hi hq => ?_, fun s ts ht hq => ?_, fun s ts ht hq => ?_⟩
  · obtain ⟨rule, hexec⟩ := exec_pfInput (pfInput_cases hi)
    exact (hexec s).trans (acceptPf_wait hq)
  · obtain ⟨rule, hexec⟩ := exec_pdInput hi
    exact (hexec s).trans (acceptPd_wait hq)
  · exact step_of_idle ht (fetch_producer_of_outq_ne_nil hq)
  · exact step_of_idle ht (fetch_byteSource_of_outq_ne_nil hq)

/-- Settles O9: each of the three targets, written out. -/
theorem resetStepResetsItsBlocks : Obligations.ResetStepResetsItsBlocks := by
  intro s target ts ht
  refine ⟨_, step_of_rst ht, ?_⟩
  cases target <;> simp [resetBlocks, Pf.reset, Pd.reset]

/-- Settles O37: the reset values of each block meet its invariant, and the event consumer waits for nothing. -/
theorem resetMeetsTheInvariants : Obligations.ResetMeetsTheInvariants :=
  ⟨⟨Pf.reset_inv, Pd.reset_inv⟩, .inl rfl⟩

/-! ## All that a step can do -/

theorem atPf_decodeFi (w : FiWord) : atPf (decodeFi w) = true := by
  rw [atPf, encode_decodeFi]

theorem atPf_decodeDi (w : DiWord) : atPf (decodeDi w) = false := by
  rw [atPf, encode_decodeDi]

theorem atPf_of_decode_pfBeat {b : PfBeat} {i : Instr} (h : decode b.beat = .ok i) : atPf i = true := by
  rw [atPf, encode_of_decode_pfBeat h]
  cases b <;> rfl

theorem atPf_of_decodeDo {w : DoWord} {i : Instr} (h : decodeDo w = .ok i) : atPf i = false := by
  rw [atPf, encode_of_decodeDo h]

/-- The state with the turn at the head used up. -/
def State.nextTurn (s : State) : State := { s with turns := s.turns.tail }

/-- What a step from `s` to `t` moved: nothing, a reset, the word that a ready block is offered, or the head of a
queue. -/
inductive Moves (s t : State) : Prop where
  | nothing (h : t = s.nextTurn)
  | reset {target : RstTarget} (hturn : .integrator target ∈ s.turns) (h : t = resetBlocks target s.nextTurn)
  | fiWord {w : FiWord} {ws : List FiWord} (hoffer : s.producer = w :: ws) (hready : s.pf.outq = [])
      (hx : exec (decodeFi w) { s.nextTurn with producer := ws } = .next t)
  | diWord {w : DiWord} {ws : List DiWord} (hoffer : s.source = w :: ws) (hready : s.pd.outq = [])
      (hx : exec (decodeDi w) { s.nextTurn with source := ws } = .next t)
  | pfBeat {b : PfBeat} {rest : List PfBeat} {i : Instr} (hq : s.pf.outq = b :: rest) (hd : decode b.beat = .ok i)
      (hx : exec i s.nextTurn = .next t)
  | pdWord {w : DoWord} {rest : List DoWord} {i : Instr} (hq : s.pd.outq = w :: rest) (hd : decodeDo w = .ok i)
      (hx : exec i s.nextTurn = .next t)

/-- A step moves one of these. -/
theorem moves_of_step {s t : State} (h : step s = .next t) : Moves s t := by
  obtain ⟨ht, rfl⟩ | ⟨turn, ts, ht, hcase⟩ := step_cases h
  · exact .nothing (by rw [State.nextTurn, ht, List.tail_nil, ← ht])
  · have hnext : { s with turns := ts } = s.nextTurn := by simp [State.nextTurn, ht]
    rw [hnext] at hcase
    obtain ⟨-, rfl⟩ | ⟨target, rfl, rfl⟩ | ⟨bt, s', i, hf, hd, hx⟩ := hcase
    · exact .nothing rfl
    · exact .reset (by simp [ht]) rfl
    · obtain ⟨w, ws, hp, hq, rfl, rfl⟩ | ⟨w, ws, hp, hq, rfl, rfl⟩ | ⟨b, rest, hq, rfl, rfl⟩ |
          ⟨w, rest, hq, rfl, rfl⟩ := fetch_beat_cases hf
      · cases hd; exact .fiWord hp hq hx
      · cases hd; exact .diWord hp hq hx
      · exact .pfBeat hq hd hx
      · exact .pdWord hq hd hx

end Sys2Proof.Machine
end

section
/-! The proofs about what an input beat makes a block emit (spec/41_deframer.md R173, R176, R183), and from it how long
a queue can get (spec/70_reset_and_hazards.md R286). -/

namespace Sys2Proof.Machine

/-! ## The words that PD emits -/

theorem decodedWords_length (t : Byte) (len : Half) (p : List Byte) : (decodedWords t len p).length = 1 + p.length := by
  rw [decodedWords, List.length_cons, payloadWords_length, Nat.add_comm]

/-- What stands in an empty queue after a BYTE: nothing, unless the BYTE is the one after the last payload byte. -/
theorem Pd.byte_outq {pd pd' : Pd} {b : Byte} (hq : pd.outq = []) (h : Pd.byte b pd = .ok pd') :
    (¬ (pd.mode = .body ∧ pd.bcnt.val = pd.dlen.toNat) ∧ pd'.outq = []) ∨
    ((pd.mode = .body ∧ pd.bcnt.val = pd.dlen.toNat) ∧
      ((b = pd.csum ∧ ∃ p, p.length = pd.dlen.toNat ∧ pd'.outq = decodedWords pd.dtype pd.dlen p) ∨
       (b ≠ pd.csum ∧ pd'.outq = [doWord .csumErr 0 pd.dtype pd.dlen (checksumPair pd.csum b)]))) := by
  obtain ⟨hm, rfl⟩ | ⟨hm, rfl⟩ | ⟨hm, hbody⟩ := Pd.byte_ok h
  · exact .inl ⟨by simp [hm], (pd.byteSeek_keeps b).2.trans hq⟩
  · exact .inl ⟨by simp [hm], (pd.byteHdr_keeps b).2.trans hq⟩
  · obtain ⟨hlt, rfl⟩ | ⟨hc, hv⟩ := Pd.byteBody_ok hbody
    · exact .inl ⟨fun hlast => absurd hlast.2 (Nat.ne_of_lt hlt), hq⟩
    · obtain ⟨hb, p, hp, rfl⟩ | ⟨hb, rfl⟩ := Pd.validate_ok hv
      · exact .inr ⟨⟨hm, hc⟩, .inl ⟨hb, p, readRange_length _ _ _ _ hp, by simp [hq]⟩⟩
      · exact .inr ⟨⟨hm, hc⟩, .inr ⟨hb, by simp [hq]⟩⟩

/-- What stands in an empty queue after a TIMEOUT: nothing in SEEK, one failure word in HDR and BODY. -/
theorem Pd.timeout_outq {pd pd' : Pd} (hq : pd.outq = []) (h : pd.timeout = .ok pd') :
    (pd.mode = .seek ∧ pd'.outq = []) ∨
    (pd.mode ≠ .seek ∧ ∃ k ty a b, (k = .hdrFail ∨ k = .bodyFail) ∧ pd'.outq = [doWord k 0 ty a b]) := by
  obtain ⟨hm, rfl⟩ | ⟨hm, rfl⟩ | ⟨hm, rfl⟩ := Pd.timeout_ok h
  · exact .inl ⟨hm, hq⟩
  · exact .inr ⟨by simp [hm], .hdrFail, _, _, _, .inl rfl, congrArg (· ++ [_]) hq⟩
  · exact .inr ⟨by simp [hm], .bodyFail, _, _, _, .inr rfl, congrArg (· ++ [_]) hq⟩

/-- An operation that is no input of PD leaves PD as it is while nothing stands in its queue. -/
theorem exec_pd_of_not_pdInput {i : Instr} (hi : pdInput i = false) {s t : State} (hq : s.pd.outq = [])
    (hx : exec i s = .next t) : t.pd = s.pd := by
  cases hside : atPf i with
  | true => rw [exec_atPf_frame hside hx]; rfl
  | false =>
    obtain ⟨w, he⟩ : ∃ w, encode i = .dout w := by
      unfold pdInput at hi
      unfold atPf at hside
      cases he : encode i <;> simp [he] at hi hside ⊢
    obtain ⟨file, hexec⟩ := exec_of_encode_do he
    obtain ⟨rest, hcons, rfl⟩ | ⟨-, rfl⟩ := deliverDo_next (hexec s ▸ hx)
    · simp [hq] at hcons
    · rfl

/-- Settles O25: outside SEEK a byte counts a header byte up, completes the header, joins the body or ends the
attempt. -/
theorem startMarkerIsTakenOnlyInSeek : Obligations.StartMarkerIsTakenOnlyInSeek := by
  intro s t hq hm hx
  obtain ⟨-, pd, hrule, rfl⟩ | ⟨hne, -⟩ := acceptPd_next hx
  · obtain ⟨hseek, -⟩ | ⟨-, rfl⟩ | ⟨hbody, hrule⟩ := Pd.byte_ok hrule
    · exact absurd hseek hm
    · obtain ⟨-, he⟩ | ⟨-, he⟩ | ⟨-, he⟩ := s.pd.byteHdr_cases 0xAA <;> rw [he] <;> simp
    · obtain ⟨-, rfl⟩ | ⟨-, hv⟩ := Pd.byteBody_ok hrule
      · simp [hbody]
      · obtain ⟨-, p, -, rfl⟩ | ⟨-, rfl⟩ := Pd.validate_ok hv <;> simp
  · exact absurd hq hne

/-- Settles O26: an operation that is no BYTE leaves the queue empty or puts a failure word there, and so does every
BYTE but the one that matches the checksum. -/
theorem noPayloadBeforeTheChecksumMatches : Obligations.NoPayloadBeforeTheChecksumMatches := by
  intro i s t w hq hx hw hkind
  cases hi : pdInput i with
  | false => simp [exec_pd_of_not_pdInput hi hq hx, hq] at hw
  | true =>
    obtain ⟨b, rfl⟩ | ⟨d, rfl⟩ := pdInput_cases hi <;>
      obtain ⟨-, pd, hrule, rfl⟩ | ⟨hne, -⟩ := acceptPd_next hx
    · obtain ⟨-, hempty⟩ | ⟨hlast, ⟨rfl, -⟩ | ⟨-, herr⟩⟩ := Pd.byte_outq hq hrule
      · simp [hempty] at hw
      · exact ⟨rfl, hlast⟩
      · obtain rfl : w = _ := by simpa [herr] using hw
        simp at hkind
    · exact absurd hq hne
    · obtain ⟨-, hempty⟩ | ⟨-, k, ty, a, b, hk, hfail⟩ := Pd.timeout_outq hq hrule
      · simp [hempty] at hw
      · obtain rfl : w = _ := by simpa [hfail] using hw
        obtain rfl | rfl := hk <;> simp at hkind
    · exact absurd hq hne

/-- The words that a BYTE puts into the empty queue, counted (R183). -/
theorem exec_byte_outq_length {s t : State} {b : Byte} (hx : exec (.byte b) s = .next t) (hq : s.pd.outq = []) :
    t.pd.outq.length =
      if s.pd.mode = .body ∧ s.pd.bcnt.val = s.pd.dlen.toNat then
        (if b = s.pd.csum then 1 + s.pd.dlen.toNat else 1)
      else 0 := by
  obtain ⟨-, pd, hrule, rfl⟩ | ⟨hne, -⟩ := acceptPd_next hx
  · obtain ⟨hlast, hempty⟩ | ⟨hlast, ⟨hb, p, hp, hwords⟩ | ⟨hb, herr⟩⟩ := Pd.byte_outq hq hrule
    · rw [if_neg hlast, hempty, List.length_nil]
    · rw [if_pos hlast, if_pos hb, hwords, decodedWords_length, hp]
    · rw [if_pos hlast, if_neg hb, herr, List.length_singleton]
  · exact absurd hq hne

/-- The words that a TIMEOUT puts into the empty queue, counted (R183). -/
theorem exec_timeout_outq_length {s t : State} {d : Byte} (hx : exec (.timeout d) s = .next t) (hq : s.pd.outq = []) :
    t.pd.outq.length = if s.pd.mode = .seek then 0 else 1 := by
  obtain ⟨-, pd, hrule, rfl⟩ | ⟨hne, -⟩ := acceptPd_next hx
  · obtain ⟨hm, hempty⟩ | ⟨hm, k, ty, a, b, -, hfail⟩ := Pd.timeout_outq hq hrule
    · rw [if_pos hm, hempty, List.length_nil]
    · rw [if_neg hm, hfail, List.length_singleton]
  · exact absurd hq hne

/-- Settles O27: the words that each input beat puts into the empty queue are counted. -/
theorem wordsCausedByAnInputBeat : Obligations.WordsCausedByAnInputBeat :=
  ⟨fun _ _ _ hq hx => exec_byte_outq_length hx hq, fun _ _ _ hq hx => exec_timeout_outq_length hx hq⟩

/-! ## How long the queues get -/

theorem frameBeats_length (t : Byte) (p : List Byte) : (frameBeats t p).length = p.length + 5 := by
  simp [frameBeats_eq, header]

theorem Pf.sop_outq_length {d : Byte} {pf pf' : Pf} (hq : pf.outq = []) (h : Pf.sop d pf = .ok pf') :
    pf'.outq.length ≤ 65540 := by
  obtain ⟨-, rfl⟩ | ⟨-, rfl⟩ := Pf.sop_ok h <;> simp [hq]

theorem Pf.data_outq_length {d : Byte} {pf pf' : Pf} (hq : pf.outq = []) (h : Pf.data d pf = .ok pf') :
    pf'.outq.length ≤ 65540 := by
  obtain ⟨-, rfl⟩ | ⟨-, -, rfl⟩ | ⟨-, -, rfl⟩ | ⟨-, rfl⟩ := Pf.data_ok h <;> simp [hq]

/-- A packet has at most 65535 payload bytes and five beats more. -/
theorem Pf.eop_outq_length {pf pf' : Pf} (hq : pf.outq = []) (h : pf.eop = .ok pf') : pf'.outq.length ≤ 65540 := by
  obtain ⟨-, rfl⟩ | ⟨-, p, hp, rfl⟩ | ⟨-, rfl⟩ := Pf.eop_ok h
  · simp [hq]
  · have hlen := readRange_length _ _ _ _ hp
    have hcnt := pf.fcnt.isLt
    simp only [Pf.closePacket_outq, Pf.emit_outq, hq, List.nil_append, frameBeats_length]
    omega
  · simp [hq]

theorem Pf.rsvd_outq_length {pf pf' : Pf} (hq : pf.outq = []) (h : pf.rsvd = .ok pf') : pf'.outq.length ≤ 65540 := by
  cases h
  simp [hq]

theorem acceptPf_outq_length {rule : Pf → Except Fault Pf}
    (hrule : ∀ {pf pf'}, pf.outq = [] → rule pf = .ok pf' → pf'.outq.length ≤ 65540) {s t : State}
    (h : acceptPf rule s = .next t) (hq : s.pf.outq = []) : t.pf.outq.length ≤ 65540 := by
  obtain ⟨-, pf, hpf, rfl⟩ | ⟨hne, -⟩ := acceptPf_next h
  · exact hrule hq hpf
  · exact absurd hq hne

/-- From an empty queue each input operation of PF makes PF wait for at most one packet's beats (R286). -/
theorem exec_pfInput_outq_length {i : Instr} (hi : pfInput i = true) {s t : State} (hx : exec i s = .next t)
    (hq : s.pf.outq = []) : t.pf.outq.length ≤ 65540 := by
  obtain ⟨d, rfl⟩ | ⟨d, rfl⟩ | ⟨d, rfl⟩ | ⟨d, rfl⟩ := pfInput_cases hi
  · exact acceptPf_outq_length Pf.sop_outq_length hx hq
  · exact acceptPf_outq_length Pf.data_outq_length hx hq
  · exact acceptPf_outq_length Pf.eop_outq_length hx hq
  · exact acceptPf_outq_length Pf.rsvd_outq_length hx hq

/-- From an empty queue each input operation of PD makes PD wait for at most one event's words (R286). -/
theorem exec_pdInput_outq_length {i : Instr} (hi : pdInput i = true) {s t : State} (hx : exec i s = .next t)
    (hq : s.pd.outq = []) : t.pd.outq.length ≤ 65536 := by
  have hlen := s.pd.dlen.isLt
  obtain ⟨b, rfl⟩ | ⟨d, rfl⟩ := pdInput_cases hi
  · rw [exec_byte_outq_length hx hq]
    split
    · split <;> omega
    · omega
  · rw [exec_timeout_outq_length hx hq]
    split <;> omega

theorem pfInput_decodeFi (w : FiWord) : pfInput (decodeFi w) = true := by
  rw [pfInput, encode_decodeFi]

theorem pdInput_decodeDi (w : DiWord) : pdInput (decodeDi w) = true := by
  rw [pdInput, encode_decodeDi]

/-- A beat of PF that leaves the queue leaves the others there. -/
theorem exec_pfBeat_outq {s t : State} {b : PfBeat} {rest : List PfBeat} {i : Instr} (hx : exec i s = .next t)
    (hd : decode b.beat = .ok i) (hq : s.pf.outq = b :: rest) : t.pf.outq = rest := by
  obtain ⟨u, hu, hrest, -⟩ := exec_pfBeat_head hq hd
  cases hu.symm.trans hx
  exact hrest

/-- A word of PD that leaves the queue leaves the others there. -/
theorem exec_doWord_outq {s t : State} {w : DoWord} {rest : List DoWord} {i : Instr} (hx : exec i s = .next t)
    (hd : decodeDo w = .ok i) (hq : s.pd.outq = w :: rest) : t.pd.outq = rest := by
  obtain ⟨u, hu, hrest, -⟩ := exec_doWord_head hq hd
  cases hu.symm.trans hx
  exact hrest

/-- A reset leaves a block as it is or empties its queue. -/
theorem resetBlocks_pf (target : RstTarget) (s : State) :
    (resetBlocks target s).pf = s.pf ∨ (resetBlocks target s).pf.outq = [] := by
  cases target with
  | shared => exact .inr rfl
  | pfOnly => exact .inr rfl
  | pdOnly => exact .inl rfl

theorem resetBlocks_pd (target : RstTarget) (s : State) :
    (resetBlocks target s).pd = s.pd ∧ (resetBlocks target s).consumer = s.consumer ∨
      (resetBlocks target s).pd.outq = [] ∧ (resetBlocks target s).consumer = s.consumer.dropPartial := by
  cases target with
  | shared => exact .inr ⟨rfl, rfl⟩
  | pfOnly => exact .inl ⟨rfl, rfl⟩
  | pdOnly => exact .inr ⟨rfl, rfl⟩

theorem step_pf_outq_length {s t : State} (h : s.pf.outq.length ≤ 65540) (hs : step s = .next t) :
    t.pf.outq.length ≤ 65540 := by
  cases moves_of_step hs with
  | nothing ht => rw [ht]; exact h
  | reset _ ht =>
    rw [ht]
    obtain hpf | hempty := resetBlocks_pf _ s.nextTurn
    · rw [hpf]; exact h
    · simp [hempty]
  | fiWord _ hready hx => exact exec_pfInput_outq_length (pfInput_decodeFi _) hx hready
  | diWord _ _ hx => rw [exec_not_atPf_frame (atPf_decodeDi _) hx]; exact h
  | pfBeat hq hd hx =>
    rw [hq, List.length_cons] at h
    rw [exec_pfBeat_outq hx hd hq]
    omega
  | pdWord _ hd hx => rw [exec_not_atPf_frame (atPf_of_decodeDo hd) hx]; exact h

theorem step_pd_outq_length {s t : State} (h : s.pd.outq.length ≤ 65536) (hs : step s = .next t) :
    t.pd.outq.length ≤ 65536 := by
  cases moves_of_step hs with
  | nothing ht => rw [ht]; exact h
  | reset _ ht =>
    rw [ht]
    obtain ⟨hpd, -⟩ | ⟨hempty, -⟩ := resetBlocks_pd _ s.nextTurn
    · rw [hpd]; exact h
    · simp [hempty]
  | fiWord _ _ hx => rw [exec_atPf_frame (atPf_decodeFi _) hx]; exact h
  | diWord _ hready hx => exact exec_pdInput_outq_length (pdInput_decodeDi _) hx hready
  | pfBeat _ hd hx => rw [exec_atPf_frame (atPf_of_decode_pfBeat hd) hx]; exact h
  | pdWord hq hd hx =>
    rw [hq, List.length_cons] at h
    rw [exec_doWord_outq hx hd hq]
    omega

/-- Settles O41: an input beat is taken from an empty queue only and causes one packet's beats or one event's words at
most; every other move shortens a queue or leaves it. -/
theorem queuesAreBounded : Obligations.QueuesAreBounded :=
  fun _ _ hpf hpd hs => ⟨step_pf_outq_length hpf hs, step_pd_outq_length hpd hs⟩

end Sys2Proof.Machine
end

section
/-! The proofs about progress: in a state that meets the invariants every operation has a rule, so no step stops the
machine (spec/40_framer.md R120, spec/41_deframer.md R160), the consumers can empty a queue (spec/20_memory.md R62), and
PD comes back to SEEK (spec/41_deframer.md R177). -/

namespace Sys2Proof.Machine

/-! ## Every rule answers -/

theorem Pf.sop_some (d : Byte) (pf : Pf) : ∃ pf', Pf.sop d pf = .ok pf' := by
  cases hm : pf.mode with
  | idle => exact ⟨_, Pf.sop_of_idle hm⟩
  | opened => exact ⟨_, Pf.sop_of_open_or_overflow (.inl hm)⟩
  | overflow => exact ⟨_, Pf.sop_of_open_or_overflow (.inr hm)⟩

theorem Pf.data_some (d : Byte) (pf : Pf) : ∃ pf', Pf.data d pf = .ok pf' := by
  cases hm : pf.mode with
  | idle => exact ⟨_, Pf.data_of_idle hm⟩
  | opened =>
    rw [Pf.data_of_opened hm]
    obtain hlt | hfull := pf.fcnt_cases
    · exact ⟨_, pf.append_store d hlt⟩
    · exact ⟨_, pf.append_overflow d hfull⟩
  | overflow => exact ⟨_, Pf.data_of_overflow hm⟩

/-- EOP can read what an open packet has stored (R74). -/
theorem Pf.Inv.eop_some {pf : Pf} (h : pf.Inv) : ∃ pf', pf.eop = .ok pf' := by
  cases hm : pf.mode with
  | idle => exact ⟨_, Pf.eop_of_idle hm⟩
  | opened =>
    obtain ⟨p, hp⟩ := h.written hm
    exact ⟨_, Pf.eop_of_opened hm hp⟩
  | overflow => exact ⟨_, Pf.eop_of_overflow hm⟩

/-- VALIDATE can read the payload when all of it is stored (R74). -/
theorem Pd.validate_some {pd : Pd} {p : List Byte} (hp : readRange pd.buf 0 pd.dlen.toNat = .ok p) (b : Byte) :
    ∃ pd', pd.validate b = .ok pd' := by
  by_cases hb : b = pd.csum
  · exact ⟨_, hb ▸ Pd.validate_csum hp⟩
  · exact ⟨_, Pd.validate_of_ne hb⟩

/-- In BODY the count does not exceed the length, so one of the two rows of R160 applies. -/
theorem Pd.Inv.byte_some {pd : Pd} (h : pd.Inv) (b : Byte) : ∃ pd', Pd.byte b pd = .ok pd' := by
  cases hm : pd.mode with
  | seek => exact ⟨pd.byteSeek b, by simp [Pd.byte, hm]⟩
  | hdr => exact ⟨pd.byteHdr b, by simp [Pd.byte, hm]⟩
  | body =>
    obtain ⟨-, hle⟩ := h.body hm
    obtain ⟨p, hp, -⟩ := h.written hm
    obtain hlt | heq := Nat.lt_or_eq_of_le hle
    · exact ⟨_, Pd.byte_of_body_store hm hlt⟩
    · rw [Pd.byte_of_body_last hm heq]
      exact Pd.validate_some (heq ▸ hp) b

/-! ## Every step answers -/

theorem acceptPf_some {rule : Pf → Except Fault Pf} {s : State} (h : ∃ pf, rule s.pf = .ok pf) :
    ∃ t, acceptPf rule s = .next t := by
  by_cases hq : s.pf.outq = []
  · exact ⟨_, acceptPf_ok hq h.choose_spec⟩
  · exact ⟨s, acceptPf_wait hq⟩

theorem acceptPd_some {rule : Pd → Except Fault Pd} {s : State} (h : ∃ pd, rule s.pd = .ok pd) :
    ∃ t, acceptPd rule s = .next t := by
  by_cases hq : s.pd.outq = []
  · exact ⟨_, acceptPd_ok hq h.choose_spec⟩
  · exact ⟨s, acceptPd_wait hq⟩

theorem State.Inv.exec_some {s : State} (h : s.Inv) (i : Instr) : ∃ t, Machine.exec i s = .next t := by
  obtain ⟨d, rfl⟩ | ⟨d, rfl⟩ | ⟨d, rfl⟩ | ⟨d, rfl⟩ | ⟨d, rfl⟩ | ⟨d, rfl⟩ | ⟨w, hw⟩ | ⟨w, hw⟩ | ⟨w, hw⟩ := instr_cases i
  · exact acceptPf_some (Pf.sop_some d s.pf)
  · exact acceptPf_some (Pf.data_some d s.pf)
  · exact acceptPf_some h.pf.eop_some
  · rw [exec_rsvd]
    exact acceptPf_some ⟨_, rfl⟩
  · exact acceptPd_some (h.pd.byte_some d)
  · exact acceptPd_some s.pd.timeout_some
  · rw [exec_of_encode_fo hw]
    exact deliverFo_some w s
  · rw [exec_of_encode_fe hw]
    exact deliverFe_some w s
  · obtain ⟨file, hexec⟩ := exec_of_encode_do hw
    rw [hexec]
    exact deliverDo_some w file s

theorem decode_of_emittable {bt : Beat} (h : emittable bt = true) : ∃ i, decode bt = .ok i := by
  unfold emittable at h
  split at h
  next i hd => exact ⟨i, hd⟩
  next => cases h

/-- Every input word has an instruction, and the queues hold words that the hardware emits. -/
theorem State.Inv.fetch_decodes {s s' : State} {turn : Turn} {bt : Beat} (h : s.Inv)
    (hf : fetch turn s = .beat bt s') : ∃ i, decode bt = .ok i := by
  obtain ⟨w, ws, -, -, rfl, -⟩ | ⟨w, ws, -, -, rfl, -⟩ | ⟨b, rest, hq, rfl, -⟩ | ⟨w, rest, hq, rfl, -⟩ :=
    fetch_beat_cases hf
  · exact ⟨_, rfl⟩
  · exact ⟨_, rfl⟩
  · exact decode_of_emittable (h.pf.emitted b (by simp [hq]))
  · exact decode_of_emittable (h.pd.emitted w (by simp [hq]))

theorem State.Inv.step_some {s : State} (h : s.Inv) : ∃ t, Machine.step s = .next t := by
  cases ht : s.turns with
  | nil => exact ⟨s, step_of_no_turn ht⟩
  | cons turn ts =>
    cases hf : fetch turn { s with turns := ts } with
    | idle => exact ⟨_, step_of_idle ht hf⟩
    | rst target =>
      obtain rfl := fetch_rst hf
      exact ⟨_, step_of_rst ht⟩
    | beat bt s' =>
      have h0 : State.Inv { s with turns := ts } := h.of_blocks_eq rfl rfl
      obtain ⟨i, hd⟩ := h0.fetch_decodes hf
      obtain ⟨hpf, hpd, -⟩ := fetch_beat hf
      rw [step_of_beat ht hf hd]
      exact (h.of_blocks_eq hpf hpd).exec_some i

/-- Settles O39: a fetched beat decodes and its operation has a rule. -/
theorem noStepFaultsOrRefuses : Obligations.NoStepFaultsOrRefuses :=
  fun _ h => h.step_some

/-- Settles O43: the queues hold words that the hardware emits, and the consumers take all of them in order. -/
theorem drainingEmptiesTheQueues : Obligations.DrainingEmptiesTheQueues :=
  ⟨fun s h => ⟨s.drainedPd, drainPd_all h.pd.emitted rfl, rfl, rfl, rfl⟩,
    fun s h => ⟨s.drainedPf, drainPf_all h.pf.emitted rfl, rfl, rfl, rfl, rfl⟩⟩

/-! ## The return to SEEK -/

/-- The most bytes that PD takes before it is back in SEEK: three header bytes, the longest payload and the checksum
byte, as far as they are still to come (R177). -/
def Pd.bytesToSeek (pd : Pd) : Nat :=
  match pd.mode with
  | .seek => 0
  | .hdr => 65539 - pd.hcnt.val
  | .body => pd.dlen.toNat - pd.bcnt.val + 1

theorem Pd.bytesToSeek_of_hdr {pd : Pd} (hm : pd.mode = .hdr) : pd.bytesToSeek = 65539 - pd.hcnt.val := by
  simp [Pd.bytesToSeek, hm]

theorem Pd.bytesToSeek_of_body {pd : Pd} (hm : pd.mode = .body) :
    pd.bytesToSeek = pd.dlen.toNat - pd.bcnt.val + 1 := by
  simp [Pd.bytesToSeek, hm]

theorem Pd.bytesToSeek_le (pd : Pd) : pd.bytesToSeek ≤ 65539 := by
  have hlen := pd.dlen.isLt
  unfold Pd.bytesToSeek
  split <;> omega

/-- Outside SEEK each byte ends the attempt or brings the end nearer, with nothing emitted yet. -/
theorem Pd.byte_bytesToSeek {pd pd' : Pd} {b : Byte} (hm : pd.mode ≠ .seek) (hq : pd.outq = [])
    (h : Pd.byte b pd = .ok pd') : pd'.mode = .seek ∨ (pd'.outq = [] ∧ pd'.bytesToSeek < pd.bytesToSeek) := by
  obtain ⟨hseek, -⟩ | ⟨hhdr, rfl⟩ | ⟨hbody, hrule⟩ := Pd.byte_ok h
  · exact absurd hseek hm
  · refine .inr ⟨(pd.byteHdr_keeps b).2.trans hq, ?_⟩
    rw [Pd.bytesToSeek_of_hdr hhdr]
    obtain ⟨hc, he⟩ | ⟨hc, he⟩ | ⟨hc, he⟩ := pd.byteHdr_cases b <;> rw [he, hc]
    · rw [Pd.bytesToSeek_of_hdr (pd := pd.takeType b) hhdr, Pd.takeType_hcnt]
      decide
    · rw [Pd.bytesToSeek_of_hdr (pd := pd.takeLenLo b) hhdr, Pd.takeLenLo_hcnt]
      decide
    · have hlen := (pd.takeLenHi b).dlen.isLt
      rw [Pd.bytesToSeek_of_body rfl]
      simp only [Pd.takeLenHi_bcnt]
      omega
  · obtain ⟨hlt, rfl⟩ | ⟨-, hv⟩ := Pd.byteBody_ok hrule
    · refine .inr ⟨hq, ?_⟩
      simp only [Pd.bytesToSeek, hbody]
      omega
    · obtain ⟨-, p, -, rfl⟩ | ⟨-, rfl⟩ := Pd.validate_ok hv <;> exact .inl rfl

/-- Of enough bytes PD takes some first ones and is back in SEEK. -/
theorem Pd.Inv.takes_to_seek (bs : List Byte) :
    ∀ {pd : Pd}, pd.Inv → pd.mode ≠ .seek → pd.outq = [] → pd.bytesToSeek ≤ bs.length →
      ∃ k pd', k ≤ bs.length ∧ pd.Takes (bs.take k) pd' ∧ pd'.Inv ∧ pd'.mode = .seek := by
  induction bs with
  | nil =>
    intro pd _ hm _ hle
    cases hmode : pd.mode with
    | seek => exact absurd hmode hm
    | hdr => rw [Pd.bytesToSeek_of_hdr hmode, List.length_nil] at hle; omega
    | body => rw [Pd.bytesToSeek_of_body hmode, List.length_nil] at hle; omega
  | cons b bs ih =>
    intro pd hinv hm hq hle
    rw [List.length_cons] at hle
    obtain ⟨pd1, hrule⟩ := hinv.byte_some b
    have hinv1 := hinv.byte hrule
    by_cases hm1 : pd1.mode = .seek
    · exact ⟨1, pd1, by simp, .cons hq hrule (.nil pd1), hinv1, hm1⟩
    · obtain hseek | ⟨hq1, hlt⟩ := Pd.byte_bytesToSeek hm hq hrule
      · exact absurd hseek hm1
      · obtain ⟨k, pd', hk, htakes, hinv', hm'⟩ := ih hinv1 hm1 hq1 (by omega)
        exact ⟨k + 1, pd', Nat.succ_le_succ hk, .cons hq hrule htakes, hinv', hm'⟩

/-- Settles O28: a TIMEOUT fails the attempt; of 65539 bytes some first ones complete it, and the event consumer takes
what they emit. -/
theorem pdReturnsToSeek : Obligations.PdReturnsToSeek := by
  intro s hinv hq hm
  refine ⟨fun d => ?_, fun bs hlen => ?_⟩
  · obtain ⟨pd, hrule⟩ := s.pd.timeout_some
    refine ⟨_, acceptPd_ok hq hrule, ?_⟩
    obtain ⟨hseek, -⟩ | ⟨-, rfl⟩ | ⟨-, rfl⟩ := Pd.timeout_ok hrule
    · exact absurd hseek hm
    · rfl
    · rfl
  · obtain ⟨k, pd, hk, htakes, hinv', hseek⟩ := hinv.pd.takes_to_seek bs hm hq (hlen ▸ s.pd.bytesToSeek_le)
    have hrun := runPd_takes [] htakes
    rw [List.append_nil, runPd_drained (s := { s with pd := pd }) hinv'.emitted, runPd_nil rfl] at hrun
    exact ⟨k, _, hlen ▸ hk, hrun, hseek⟩

end Sys2Proof.Machine
end

section
/-! The proof that every event is whole (spec/30_encoding.md R101): what stands in PD's queue continues what the event
consumer has received, whichever word leaves the queue and whatever PD emits. -/

namespace Sys2Proof.Machine

/-! ## What the event consumer waits for -/

/-- The words `q` continue what the consumer has received (R101): nothing or one whole event when no event is open, else
the PAYLOAD words that the open event still lacks. -/
inductive Consumer.Awaits (c : Consumer) (q : List DoWord) : Prop where
  | nothing (hc : c.current = none) (hq : q = [])
  | event (hc : c.current = none) (hq : wholeEvent q)
  | payload {e : Event} {p : List Byte} (hc : c.current = some e)
      (hkind : DoKind.ofCode (doKindField e.word) = some .decoded) (hp : p ≠ [])
      (hlen : e.payload.length + p.length = (doA e.word).toNat)
      (hcls : doClassField e.word = (classify (doTypeField e.word) (e.payload ++ p)).code)
      (hq : q = payloadWords (doTypeField e.word) e.payload.length p)

theorem State.eventsAligned_iff (s : State) : s.eventsAligned ↔ s.consumer.Awaits s.pd.outq := by
  unfold State.eventsAligned
  constructor
  · intro h
    split at h
    next hc => exact h.elim (.nothing hc) (.event hc)
    next e hc =>
      obtain ⟨hkind, p, hp, hlen, hcls, hq⟩ := h
      exact .payload hc hkind hp hlen hcls hq
  · rintro (⟨hc, hq⟩ | ⟨hc, hq⟩ | ⟨hc, hkind, hp, hlen, hcls, hq⟩) <;> rw [hc]
    · exact .inl hq
    · exact .inr hq
    · exact ⟨hkind, _, hp, hlen, hcls, hq⟩

/-- While a queue is empty no event is open: an open event lacks a PAYLOAD word. -/
theorem Consumer.Awaits.current_eq_none {c : Consumer} (h : c.Awaits []) : c.current = none := by
  obtain ⟨hc, -⟩ | ⟨hc, -⟩ | ⟨-, -, hp, -, -, hq⟩ := h
  · exact hc
  · exact hc
  · rw [eq_comm, ← List.length_eq_zero_iff, payloadWords_length, List.length_eq_zero_iff] at hq
    exact absurd hq hp

/-! ## The events of a packet -/

theorem wholeEvent_decodedWords (t : Byte) (len : Half) (p : List Byte) (hp : p.length = len.toNat) :
    wholeEvent (decodedWords t len p) := by
  simp only [decodedWords, wholeEvent, doKindField_doWord, DoKind.ofCode_code, doA_doWord, doClassField_doWord,
    doTypeField_doWord]
  exact ⟨p, hp, rfl, rfl⟩

theorem wholeEvent_failure {k : DoKind} (hk : k = .hdrFail ∨ k = .bodyFail ∨ k = .csumErr) (cls : Nibble) (ty : Byte)
    (a b : Half) : wholeEvent [doWord k cls ty a b] := by
  obtain rfl | rfl | rfl := hk <;> simp [wholeEvent]

theorem Event.whole_failure {k : DoKind} (hk : k = .hdrFail ∨ k = .bodyFail ∨ k = .csumErr) (cls : Nibble) (ty : Byte)
    (a b : Half) : Event.whole ⟨doWord k cls ty a b, []⟩ := by
  obtain rfl | rfl | rfl := hk <;> simp [Event.whole]

theorem Event.whole_iff_of_decoded {e : Event} (hk : DoKind.ofCode (doKindField e.word) = some .decoded) :
    e.whole ↔ e.payload.length = (doA e.word).toNat ∧
      doClassField e.word = (classify (doTypeField e.word) e.payload).code := by
  simp [Event.whole, hk]

theorem wholeEvent_cons_iff (k : DoKind) (cls : Nibble) (ty : Byte) (a b : Half) (rest : List DoWord) :
    wholeEvent (doWord k cls ty a b :: rest) ↔
      (k = .decoded ∧ ∃ p, p.length = a.toNat ∧ cls = (classify ty p).code ∧ rest = payloadWords ty 0 p) ∨
      ((k = .hdrFail ∨ k = .bodyFail ∨ k = .csumErr) ∧ rest = []) := by
  cases k <;> simp [wholeEvent]

/-! ## Filing one word -/

/-- The consumer holds whole events only, and the words `q` continue what it has received. -/
structure Consumer.Follows (c : Consumer) (q : List DoWord) : Prop where
  awaits : c.Awaits q
  whole : ∀ e ∈ c.events, e.whole

theorem Consumer.Follows.finish {c : Consumer} {q : List DoWord} (h : c.Follows q) {e : Event} (he : e.whole) :
    (c.finish e).Follows [] where
  awaits := .nothing rfl rfl
  whole := fun f hf => by
    obtain hf | rfl := by simpa using hf
    · exact h.whole f hf
    · exact he

theorem Consumer.Follows.dropPartial {c : Consumer} {q : List DoWord} (h : c.Follows q) : c.dropPartial.Follows [] where
  awaits := .nothing rfl rfl
  whole := h.whole

theorem Consumer.file_decoded (cls : Nibble) (ty : Byte) (a b : Half) (c : Consumer) :
    Consumer.file (doWord .decoded cls ty a b) c = c.openEvent (doWord .decoded cls ty a b) := by
  simp [Consumer.file]

theorem Consumer.file_failure {k : DoKind} (hk : k = .hdrFail ∨ k = .bodyFail ∨ k = .csumErr) (cls : Nibble) (ty : Byte)
    (a b : Half) (c : Consumer) :
    Consumer.file (doWord k cls ty a b) c = c.finish ⟨doWord k cls ty a b, []⟩ := by
  obtain rfl | rfl | rfl := hk <;> simp [Consumer.file]

theorem Consumer.file_payload (cls : Nibble) (ty : Byte) (a : Half) (b : Byte) (c : Consumer) :
    Consumer.file (doWord .payload cls ty a (zext16 b)) c = c.addPayload b := by
  simp [Consumer.file]

/-- A DECODED word is a whole event, or opens one that lacks its PAYLOAD words. -/
theorem Consumer.Follows.openEvent {c : Consumer} {q : List DoWord} (h : c.Follows q) {ty : Byte} {a b : Half}
    {p : List Byte} (hlen : p.length = a.toNat) :
    (c.openEvent (doWord .decoded (classify ty p).code ty a b)).Follows (payloadWords ty 0 p) := by
  rw [Consumer.openEvent_doWord]
  split
  next ha =>
    obtain rfl : p = [] := List.length_eq_zero_iff.mp (by simp [hlen, ha])
    exact h.finish ((Event.whole_iff_of_decoded (by simp)).mpr (by simp [ha]))
  next ha =>
    have hp : p ≠ [] := by
      rintro rfl
      exact ha (BitVec.eq_of_toNat_eq hlen.symm)
    exact ⟨.payload rfl (by simp) hp (by simpa using hlen) (by simp) (by simp), h.whole⟩

/-- A PAYLOAD word is the last of the open event, or leaves it lacking the ones after it. -/
theorem Consumer.Follows.addPayload {c : Consumer} {q : List DoWord} (h : c.Follows q) {e : Event} {b : Byte}
    {p : List Byte} (hc : c.current = some e) (hkind : DoKind.ofCode (doKindField e.word) = some .decoded)
    (hlen : e.payload.length + (b :: p).length = (doA e.word).toNat)
    (hcls : doClassField e.word = (classify (doTypeField e.word) (e.payload ++ b :: p)).code) :
    (c.addPayload b).Follows (payloadWords (doTypeField e.word) (e.payload.length + 1) p) := by
  rw [List.length_cons] at hlen
  rw [List.append_cons] at hcls
  by_cases hp : p = []
  · subst hp
    rw [Consumer.addPayload_last hc b (by simpa using hlen)]
    exact h.finish ((Event.whole_iff_of_decoded (e := ⟨e.word, e.payload ++ [b]⟩) hkind).mpr
      ⟨by simpa using hlen, by simpa using hcls⟩)
  · have hpos := List.length_pos_iff.mpr hp
    rw [Consumer.addPayload_more hc b (by omega)]
    exact ⟨.payload rfl hkind hp (by simp only [List.length_append, List.length_singleton]; omega) hcls (by simp),
      h.whole⟩

/-- The word at the head of a queue that continues what the consumer has received leaves such a queue behind. -/
theorem Consumer.Follows.file {c : Consumer} {w : DoWord} {rest : List DoWord} {i : Instr} (h : c.Follows (w :: rest))
    (hd : decodeDo w = .ok i) : (Consumer.file w c).Follows rest := by
  obtain ⟨k, cls, ty, a, b, rfl, -⟩ := doWord_of_decodeDo hd
  obtain ⟨-, hq⟩ | ⟨hc, hq⟩ | ⟨hc, hkind, hp, hlen, hcls, hq⟩ := h.awaits
  · simp at hq
  · obtain ⟨rfl, p, hp, rfl, rfl⟩ | ⟨hk, rfl⟩ := (wholeEvent_cons_iff k cls ty a b rest).mp hq
    · rw [Consumer.file_decoded]
      exact h.openEvent hp
    · rw [Consumer.file_failure hk]
      exact h.finish (Event.whole_failure hk cls ty a b)
  · obtain ⟨b', p, rfl⟩ := List.exists_cons_of_ne_nil hp
    obtain ⟨hw, rfl⟩ := List.cons.inj hq
    rw [hw, Consumer.file_payload]
    exact h.addPayload hc hkind hlen hcls

/-! ## Every step -/

/-- The consumer goes on from an empty queue with whatever PD emits. -/
theorem Consumer.Follows.emit {c : Consumer} (h : c.Follows []) {q : List DoWord} (hq : q = [] ∨ wholeEvent q) :
    c.Follows q where
  awaits := hq.elim (.nothing h.awaits.current_eq_none) (.event h.awaits.current_eq_none)
  whole := h.whole

/-- From an empty queue a BYTE or a TIMEOUT emits nothing or one whole event. -/
theorem exec_pdInput_emits {i : Instr} (hi : pdInput i = true) {s t : State} (hx : exec i s = .next t)
    (hq : s.pd.outq = []) : t.pd.outq = [] ∨ wholeEvent t.pd.outq := by
  obtain ⟨b, rfl⟩ | ⟨d, rfl⟩ := pdInput_cases hi <;>
    obtain ⟨-, pd, hrule, rfl⟩ | ⟨hne, -⟩ := acceptPd_next hx
  · obtain ⟨-, hempty⟩ | ⟨-, ⟨-, p, hp, hwords⟩ | ⟨-, herr⟩⟩ := Pd.byte_outq hq hrule
    · exact .inl hempty
    · exact .inr (hwords ▸ wholeEvent_decodedWords _ _ p hp)
    · exact .inr (herr ▸ wholeEvent_failure (.inr (.inr rfl)) ..)
  · exact absurd hq hne
  · obtain ⟨-, hempty⟩ | ⟨-, k, ty, a, b, hk, hfail⟩ := Pd.timeout_outq hq hrule
    · exact .inl hempty
    · exact .inr (hfail ▸ wholeEvent_failure (hk.imp_right .inl) ..)
  · exact absurd hq hne

/-- An input operation of PD leaves the event consumer alone. -/
theorem exec_pdInput_consumer {i : Instr} (hi : pdInput i = true) {s t : State} (hx : exec i s = .next t) :
    t.consumer = s.consumer := by
  obtain ⟨rule, hexec⟩ := exec_pdInput hi
  have hframe := congrArg State.consumer (acceptPd_frame (hexec s ▸ hx))
  exact hframe

/-- The word that leaves the queue is filed by its kind. -/
theorem exec_doWord_consumer {s t : State} {w : DoWord} {rest : List DoWord} {i : Instr} (hx : exec i s = .next t)
    (hd : decodeDo w = .ok i) (hq : s.pd.outq = w :: rest) : t.consumer = Consumer.file w s.consumer := by
  obtain ⟨k, cls, ty, a, b, rfl, rfl⟩ := doWord_of_decodeDo hd
  rw [exec_doInstr, deliverDo_head hq] at hx
  cases hx
  rfl

theorem step_follows {s t : State} (h : s.consumer.Follows s.pd.outq) (hs : step s = .next t) :
    t.consumer.Follows t.pd.outq := by
  cases moves_of_step hs with
  | nothing ht => rw [ht]; exact h
  | reset _ ht =>
    rw [ht]
    obtain ⟨hpd, hc⟩ | ⟨hempty, hc⟩ := resetBlocks_pd _ s.nextTurn
    · rw [hpd, hc]; exact h
    · rw [hempty, hc]; exact h.dropPartial
  | fiWord _ _ hx => rw [exec_atPf_frame (atPf_decodeFi _) hx]; exact h
  | diWord _ hready hx =>
    rw [exec_pdInput_consumer (pdInput_decodeDi _) hx]
    exact Consumer.Follows.emit (hready ▸ h) (exec_pdInput_emits (pdInput_decodeDi _) hx hready)
  | pfBeat _ hd hx => rw [exec_atPf_frame (atPf_of_decode_pfBeat hd) hx]; exact h
  | pdWord hq hd hx =>
    rw [exec_doWord_consumer hx hd hq, exec_doWord_outq hx hd hq]
    exact Consumer.Follows.file (hq ▸ h) hd

/-- Settles O40: PD emits one whole event at a time into an empty queue, and the consumer files its words in order. -/
theorem consumerReceivesWholeEvents : Obligations.ConsumerReceivesWholeEvents := by
  intro s t _ haligned hwhole hs
  obtain ⟨hawaits, hwhole'⟩ := step_follows ⟨(s.eventsAligned_iff).mp haligned, hwhole⟩ hs
  exact ⟨(t.eventsAligned_iff).mpr hawaits, hwhole'⟩

end Sys2Proof.Machine
end

section
/-! The proofs about damaged streams: noise around packets (spec/41_deframer.md R179), a one-bit change (R181) and the
change that the checksum does not see. -/

namespace Sys2Proof.Machine

/-! ## Resynchronisation -/

/-- A seeking PD drops noise (R161, R163). -/
theorem runPd_noise {s : State} (hm : s.pd.mode = .seek) (hq : s.pd.outq = []) {n : List Instr}
    (hn : ∀ i ∈ n, noise i) (is : List Instr) : runPd (n ++ is) s = runPd is s := by
  induction n with
  | nil => rfl
  | cons i n ih =>
    have hrest := ih fun j hj => hn j (List.mem_cons_of_mem i hj)
    obtain ⟨d, rfl⟩ | ⟨b, hb, rfl⟩ := hn i List.mem_cons_self
    · exact (runPd_timeout hq (Pd.timeout_of_seek hm) _).trans hrest
    · exact (runPd_byte hq (Pd.byte_of_seek_other hm hb) _).trans hrest

/-- The PAYLOAD words that an open event lacks make it whole. -/
theorem Consumer.foldl_file_payloadWords (t : Byte) (p : List Byte) :
    ∀ {c : Consumer} {e : Event} (n : Nat), c.current = some e → p ≠ [] →
      e.payload.length + p.length = (doA e.word).toNat →
      (payloadWords t n p).foldl (fun c w => Consumer.file w c) c = c.finish ⟨e.word, e.payload ++ p⟩ := by
  induction p with
  | nil => exact fun _ _ hp _ => absurd rfl hp
  | cons b p ih =>
    intro c e n hc _ hlen
    rw [List.length_cons] at hlen
    rw [payloadWords, List.foldl_cons, Consumer.file_payload]
    by_cases hp : p = []
    · subst hp
      rw [Consumer.addPayload_last hc b (by simpa using hlen)]
      rfl
    · have hpos := List.length_pos_iff.mpr hp
      rw [Consumer.addPayload_more hc b (by omega),
        ih (e := ⟨e.word, e.payload ++ [b]⟩) (n + 1) rfl hp
          (by simp only [List.length_append, List.length_singleton]; omega)]
      simp [Consumer.finish]

/-- The words of a packet make one event, whatever event was open before (R285). -/
theorem Consumer.foldl_file_decodedWords (t : Byte) {p : List Byte} (hp : p.length ≤ 65535) (c : Consumer) :
    (decodedWords t (lengthField p) p).foldl (fun c w => Consumer.file w c) c = c.finish (decodedEvent t p) := by
  have hlen := lengthField_toNat p hp
  rw [decodedWords, List.foldl_cons, Consumer.file_decoded, Consumer.openEvent_doWord]
  split
  next ha =>
    obtain rfl : p = [] := List.length_eq_zero_iff.mp (by simp [← hlen, ha])
    rfl
  next ha =>
    have hne : p ≠ [] := by
      rintro rfl
      exact ha rfl
    rw [Consumer.foldl_file_payloadWords t p 0 rfl hne (by simpa using hlen.symm)]
    rfl

/-- Settles O46: a seeking PD drops the noise, and each packet brings it back to SEEK with the packet's words taken. -/
theorem resynchronisation : Obligations.Resynchronisation := by
  intro s n1 n2 t1 t2 p1 p2 hn1 hn2 hp1 hp2 hm hq
  obtain ⟨pd1, hm1, hwords1, hrun1⟩ :=
    runPd_packet hm hq t1 hp1 (n2 ++ ((packetBytes t2 p2).map Instr.byte ++ []))
  obtain ⟨pd2, hm2, hwords2, hrun2⟩ :=
    runPd_packet (s := ({ s with pd := pd1 } : State).drainedPd) hm1 rfl t2 hp2 []
  have hrun : runPd (n1 ++ (packetBytes t1 p1).map Instr.byte ++ n2 ++ (packetBytes t2 p2).map Instr.byte) s =
      .next ({ ({ s with pd := pd1 } : State).drainedPd with pd := pd2 } : State).drainedPd := by
    rw [List.append_assoc, List.append_assoc, runPd_noise hm hq hn1, ← List.append_nil ((packetBytes t2 p2).map _),
      hrun1, runPd_noise (s := ({ s with pd := pd1 } : State).drainedPd) hm1 rfl hn2, hrun2]
    exact runPd_nil rfl
  refine ⟨_, hrun, hm2, rfl, ?_, fun _ => ?_⟩
  · simp only [State.drainedPd_doTaken, hwords1, hwords2]
  · simp [State.drainedPd, hwords1, hwords2, Consumer.foldl_file_decodedWords t1 hp1,
      Consumer.foldl_file_decodedWords t2 hp2]

/-! ## A one-bit change -/

theorem modify_header_append (t : Byte) (len : Half) (q : List Byte) (m : Nat) (f : Byte → Byte) :
    (header t len ++ q).modify (4 + m) f = header t len ++ q.modify m f := by
  rw [Nat.add_comm]
  rfl

theorem modify_type (t : Byte) (len : Half) (q : List Byte) (f : Byte → Byte) :
    (header t len ++ q).modify 1 f = header (f t) len ++ q :=
  rfl

theorem packetBytes_length (t : Byte) (p : List Byte) : (packetBytes t p).length = p.length + 5 := by
  simp [packetBytes, header]

/-- A packet changed in its type byte, in its payload or in its checksum byte still has its length field, as many
payload bytes and a last byte. -/
theorem modify_packetBytes (t : Byte) (p : List Byte) {k : Nat} (hk : k = 1 ∨ 4 ≤ k) (f : Byte → Byte) :
    ∃ t' p' c, (packetBytes t p).modify k f = header t' (lengthField p) ++ p' ++ [c] ∧ p'.length = p.length := by
  have hpacket : packetBytes t p = header t (lengthField p) ++ (p ++ [packetChecksum t p]) := List.append_assoc ..
  obtain rfl | hk := hk
  · exact ⟨f t, p, packetChecksum t p, by rw [hpacket, modify_type, List.append_assoc], rfl⟩
  · obtain ⟨m, rfl⟩ := Nat.exists_eq_add_of_le hk
    have hlen : ((p ++ [packetChecksum t p]).modify m f).length = p.length + 1 := by simp
    obtain ⟨p', c, hq⟩ : ∃ p' c, (p ++ [packetChecksum t p]).modify m f = p' ++ [c] :=
      ⟨_, _, (List.dropLast_append_getLast (List.ne_nil_of_length_eq_add_one hlen)).symm⟩
    refine ⟨t, p', c, by rw [hpacket, modify_header_append, hq, List.append_assoc], ?_⟩
    simpa [hq] using hlen

theorem xorBytes_packetBytes (t : Byte) (p : List Byte) : xorBytes (packetBytes t p) = 0x00 :=
  (xorBytes_snoc_eq_zero_iff _ _).mpr rfl

theorem bit_ne_zero {j : Nat} (hj : j < 8) : 1#8 <<< j ≠ 0x00 := by
  have hall : ∀ j : Fin 8, 1#8 <<< j.val ≠ 0x00 := by decide
  exact hall ⟨j, hj⟩

/-- A changed bit shows in the XOR of all bytes. -/
theorem xorBytes_modify_packetBytes (t : Byte) (p : List Byte) {k j : Nat} (hk : k < p.length + 5) (hj : j < 8) :
    xorBytes ((packetBytes t p).modify k (· ^^^ (1#8 <<< j))) ≠ 0x00 := by
  rw [xorBytes_modify _ _ k (by rwa [packetBytes_length]), xorBytes_packetBytes]
  simpa using bit_ne_zero hj

/-- A seeking PD that is given a header, its payload and a last byte that is not their checksum emits one CSUM_ERR
(R169). -/
theorem runPd_mismatch {s : State} (hm : s.pd.mode = .seek) (hq : s.pd.outq = []) (t c : Byte) {len : Half}
    {p : List Byte} (hp : p.length = len.toNat) (hc : c ≠ xorBytes (header t len ++ p)) :
    ∃ u, runPd ((header t len ++ p ++ [c]).map Instr.byte) s = .next u ∧ u.pd.mode = .seek ∧ u.pd.outq = [] ∧
      u.doTaken = s.doTaken ++ [doWord .csumErr 0 t len (checksumPair (xorBytes (header t len ++ p)) c)] := by
  obtain ⟨pd, htakes, h⟩ := Pd.takes_header_payload hm hq t hp.le
  have hlast : pd.bcnt.val = pd.dlen.toNat := by rw [h.bcnt, h.length, hp]
  have hrule := (Pd.byte_of_body_last h.mode hlast).trans (Pd.validate_of_ne (b := c) (h.csum ▸ hc))
  rw [h.type, h.length, h.csum] at hrule
  have hem := emittable_csumErr t len (xorBytes (header t len ++ p)) c hc
  have hrun := runPd_takes [] (htakes.append (.cons h.outq hrule (.nil _)))
  rw [List.append_nil, runPd_drained (s := { s with pd := pd.fail _ }) (by simpa [h.outq] using hem),
    runPd_nil rfl] at hrun
  exact ⟨_, hrun, rfl, rfl, by simp [h.outq]⟩

/-- Settles O48: the changed packet has its length field and a last byte, and the XOR of its bytes is not 0x00, so that
last byte is not the checksum of the bytes before it. -/
theorem oneBitChangeIsDetected : Obligations.OneBitChangeIsDetected := by
  intro s t p bytes k j hp hj hk hbytes hm hq
  obtain ⟨t', p', c, hshape, hlen⟩ := modify_packetBytes t p (hk.imp_right And.left) (· ^^^ (1#8 <<< j))
  have hne : c ≠ xorBytes (header t' (lengthField p) ++ p') := by
    rw [Ne, ← xorBytes_snoc_eq_zero_iff, ← hshape]
    exact xorBytes_modify_packetBytes t p (by omega) hj
  obtain ⟨u, hrun, hseek, hempty, htaken⟩ :=
    runPd_mismatch hm hq t' c (hlen.trans (lengthField_toNat p hp).symm) hne
  rw [hshape] at hbytes
  subst hbytes
  refine ⟨u, hrun, hseek, hempty, htaken.trans ?_⟩
  rw [List.dropLast_concat, List.getLastD_concat, foldl_xor_eq, checksumPair_eq_append]
  simp [header, lengthField]

/-! ## A change that is not detected -/

theorem modify_append_of_lt {α : Type} (f : α → α) (q : List α) :
    ∀ (p : List α) {m : Nat}, m < p.length → (p ++ q).modify m f = p.modify m f ++ q
  | [], _, h => absurd h (Nat.not_lt_zero _)
  | _ :: _, 0, _ => rfl
  | a :: p, _ + 1, h => congrArg (a :: ·) (modify_append_of_lt f q p (Nat.lt_of_succ_lt_succ h))

/-- The same bit changed in two payload bytes gives the packet of the changed payload. -/
theorem modify_modify_packetBytes (t x : Byte) (p : List Byte) {k1 k2 : Nat} (h1 : k1 < p.length) (h2 : k2 < p.length) :
    ((packetBytes t p).modify (4 + k1) (· ^^^ x)).modify (4 + k2) (· ^^^ x) =
      packetBytes t ((p.modify k1 (· ^^^ x)).modify k2 (· ^^^ x)) := by
  have h2' : k2 < (p.modify k1 (· ^^^ x)).length := by rwa [List.length_modify]
  have hfield : lengthField ((p.modify k1 (· ^^^ x)).modify k2 (· ^^^ x)) = lengthField p := by simp [lengthField]
  have hsum : packetChecksum t ((p.modify k1 (· ^^^ x)).modify k2 (· ^^^ x)) = packetChecksum t p := by
    simp [packetChecksum, hfield, xorBytes_append, xorBytes_modify x _ k2 h2', xorBytes_modify x _ k1 h1]
  rw [packetBytes, packetBytes, hsum, hfield, List.append_assoc, modify_header_append, modify_append_of_lt _ _ p h1,
    modify_header_append, modify_append_of_lt _ _ _ h2', List.append_assoc]

/-- Settles O49: the changed bytes are the packet of the changed payload. -/
theorem sameBitChangedTwiceIsNotDetected : Obligations.SameBitChangedTwiceIsNotDetected := by
  intro s t p k1 k2 j hp _ hlt h2 hm hq
  rw [modify_modify_packetBytes t _ p (hlt.trans h2) h2, ← List.append_nil (List.map _ _)]
  obtain ⟨pd, hseek, hwords, hrun⟩ :=
    runPd_packet hm hq t (p := (p.modify k1 (· ^^^ (1#8 <<< j))).modify k2 (· ^^^ (1#8 <<< j))) (by simpa using hp) []
  rw [hrun]
  refine ⟨_, runPd_nil rfl, hseek, ?_⟩
  simp [hwords, lengthField]

end Sys2Proof.Machine
end

section
/-! The proofs about the meaning of a payload: the text of valid UTF-8 (spec/42_dispatch.md R226) and the
interpretation of every DECODED event (R220 to R229). -/

namespace Sys2Proof.Machine

/-! ## Text -/

/-- A scalar value is found for every sequence that the scan passes over, and for no other bytes. -/
theorem isSome_utf8Scalars (p : List Byte) :
    ∀ (pending : List (Nat × Nat)) (acc : Nat), (utf8Scalars pending acc p).isSome = utf8Scan pending p := by
  induction p with
  | nil => intro pending acc; cases pending <;> rfl
  | cons b bs ih =>
    intro pending acc
    match pending with
    | [] =>
      rw [utf8Scalars, utf8Scan]
      cases hrow : utf8Row b with
      | none => rfl
      | some row =>
        simp only
        cases hrest : row.rest with
        | nil => rw [Option.isSome_map, ih]
        | cons r rs => exact ih (r :: rs) _
    | [r] =>
      rw [utf8Scalars, utf8Scan]
      cases inRange r b with
      | false => rfl
      | true => simpa using ih [] 0
    | r :: r' :: rs =>
      rw [utf8Scalars, utf8Scan]
      cases inRange r b with
      | false => rfl
      | true => simpa using ih (r' :: rs) _

theorem text_some_iff (p : List Byte) : (∃ vs, text p = some vs) ↔ utf8Valid p = true := by
  rw [← Option.isSome_iff_exists, text, isSome_utf8Scalars, utf8Valid]

/-- The value of a sequence: the bits of its first byte and six bits of each byte after it (log entry 12). -/
def utf8Value (a : Byte) (s : List Byte) : Nat :=
  s.foldl (fun acc b => acc * 64 + b.toNat % 64) (utf8FirstBits a s.length)

section Values

variable (a b c d : Byte)

theorem utf8Value_one : utf8Value a [] = a.toNat := rfl

theorem utf8Value_two : utf8Value a [b] = a.toNat % 32 * 64 + b.toNat % 64 := rfl

theorem utf8Value_three : utf8Value a [b, c] = (a.toNat % 16 * 64 + b.toNat % 64) * 64 + c.toNat % 64 := rfl

theorem utf8Value_four :
    utf8Value a [b, c, d] = ((a.toNat % 8 * 64 + b.toNat % 64) * 64 + c.toNat % 64) * 64 + d.toNat % 64 := rfl

end Values

/-- Bytes in the ranges still asked for end one value. -/
theorem utf8Scalars_append {pending : List (Nat × Nat)} {s : List Byte} (h : InRanges pending s) (q : List Byte) :
    pending ≠ [] → ∀ acc, utf8Scalars pending acc (s ++ q) =
      (text q).map (s.foldl (fun acc b => acc * 64 + b.toNat % 64) acc :: ·) := by
  induction h with
  | nil => exact fun hne => absurd rfl hne
  | cons hb hs ih =>
    intro _ acc
    rw [List.cons_append]
    cases hs with
    | nil => simp only [utf8Scalars, inRange_iff.mpr hb, if_true]; rfl
    | cons hb' hs' =>
      rw [utf8Scalars, if_pos (inRange_iff.mpr hb)]
      exact ih (List.cons_ne_nil _ _) _

/-- The text of a sequence of a row and the bytes after it. -/
theorem text_sequence {row : Utf8Row} (hrow : row ∈ utf8Rows) {a : Byte} {s q : List Byte} (h : row.Fits a s) :
    text (a :: (s ++ q)) = (text q).map (utf8Value a s :: ·) := by
  have hlen := h.rest.length_eq
  rw [text, utf8Scalars, utf8Row_of_mem row hrow a (inRange_iff.mpr h.first)]
  simp only
  split
  next hrest =>
    obtain rfl : s = [] := List.length_eq_zero_iff.mp (by rw [← hlen, hrest, List.length_nil])
    rfl
  next r rs hrest =>
    rw [hrest, List.length_cons] at hlen
    rw [utf8Scalars_append (hrest ▸ h.rest) q (List.cons_ne_nil r rs), hlen]
    rfl

/-- Valid bytes are none at all or begin with a sequence of a row. -/
theorem utf8Valid_cases {p : List Byte} (h : utf8Valid p = true) :
    p = [] ∨ ∃ row ∈ utf8Rows, ∃ a s q, p = a :: (s ++ q) ∧ row.Fits a s ∧ utf8Valid q = true := by
  cases p with
  | nil => exact .inl rfl
  | cons a bs =>
    rw [utf8Valid, utf8Scan] at h
    split at h
    next row hrow =>
      obtain ⟨hmem, ha⟩ := utf8Row_mem hrow
      obtain ⟨s, q, rfl, hs, hq⟩ := exists_append_of_utf8Scan h
      exact .inr ⟨row, hmem, a, s, q, rfl, ⟨inRange_iff.mp ha, hs⟩, hq.utf8Valid_eq⟩
    next => cases h

/-- A Unicode scalar value: no surrogate, and at most 0x10FFFF. -/
def IsScalar (v : Nat) : Prop := v < 0xD800 ∨ (0xDFFF < v ∧ v ≤ 0x10FFFF)

/-- The ranges of R227 leave out the surrogates and everything past 0x10FFFF. -/
theorem isScalar_utf8Value {row : Utf8Row} (hrow : row ∈ utf8Rows) {a : Byte} {s : List Byte} (h : row.Fits a s) :
    IsScalar (utf8Value a s) := by
  obtain ⟨ha, hs⟩ := h
  simp only [utf8Rows, List.mem_cons, List.not_mem_nil, or_false] at hrow
  obtain rfl | rfl | rfl | rfl | rfl | rfl | rfl | rfl | rfl := hrow <;>
    simp only [InRanges, List.forall₂_nil_left_iff, List.forall₂_cons_left_iff] at hs ha
  · obtain rfl := hs
    rw [IsScalar, utf8Value_one]
    omega
  · obtain ⟨b, _, hb, rfl, rfl⟩ := hs
    rw [IsScalar, utf8Value_two]
    omega
  · obtain ⟨b, _, hb, ⟨c, _, hc, rfl, rfl⟩, rfl⟩ := hs
    rw [IsScalar, utf8Value_three]
    omega
  · obtain ⟨b, _, hb, ⟨c, _, hc, rfl, rfl⟩, rfl⟩ := hs
    rw [IsScalar, utf8Value_three]
    omega
  · obtain ⟨b, _, hb, ⟨c, _, hc, rfl, rfl⟩, rfl⟩ := hs
    rw [IsScalar, utf8Value_three]
    omega
  · obtain ⟨b, _, hb, ⟨c, _, hc, rfl, rfl⟩, rfl⟩ := hs
    rw [IsScalar, utf8Value_three]
    omega
  · obtain ⟨b, _, hb, ⟨c, _, hc, ⟨d, _, hd, rfl, rfl⟩, rfl⟩, rfl⟩ := hs
    rw [IsScalar, utf8Value_four]
    omega
  · obtain ⟨b, _, hb, ⟨c, _, hc, ⟨d, _, hd, rfl, rfl⟩, rfl⟩, rfl⟩ := hs
    rw [IsScalar, utf8Value_four]
    omega
  · obtain ⟨b, _, hb, ⟨c, _, hc, ⟨d, _, hd, rfl, rfl⟩, rfl⟩, rfl⟩ := hs
    rw [IsScalar, utf8Value_four]
    omega

/-- Every value of a text is the value of a sequence. -/
theorem isScalar_of_mem_text {p : List Byte} {vs : List Nat} (h : text p = some vs) : ∀ v ∈ vs, IsScalar v := by
  induction hn : p.length using Nat.strong_induction_on generalizing p vs with
  | _ n ih =>
    obtain rfl | ⟨row, hrow, a, s, q, rfl, hfits, -⟩ := utf8Valid_cases ((text_some_iff p).mp ⟨vs, h⟩)
    · cases h
      simp
    · rw [text_sequence hrow hfits, Option.map_eq_some_iff] at h
      obtain ⟨vs', hq, rfl⟩ := h
      have hlt : q.length < n := by
        rw [← hn, List.length_cons, List.length_append]
        omega
      exact List.forall_mem_cons.mpr ⟨isScalar_utf8Value hrow hfits, ih q.length hlt hq rfl⟩

/-- Settles O52: text and the scan accept the same bytes, and each value comes from a sequence of a row. -/
theorem textIsDefinedForValidUtf8 : Obligations.TextIsDefinedForValidUtf8 :=
  fun p => ⟨text_some_iff p, fun _ h => isScalar_of_mem_text h⟩

/-! ## The meaning of an event -/

theorem PacketClass.code_injective : Function.Injective PacketClass.code := by
  intro c d h
  have hcode := PacketClass.ofCode_code c
  rw [h, PacketClass.ofCode_code] at hcode
  exact (Option.some.inj hcode).symm

theorem length_of_classify_keyboard {t : Byte} {p : List Byte} (h : classify t p = .keyboard) : p.length = 8 := by
  have hfits := classify_fits t p
  simp only [h, PacketClass.fits, Bool.and_eq_true, beq_iff_eq] at hfits
  exact hfits.2

theorem length_of_classify_mouse {t : Byte} {p : List Byte} (h : classify t p = .mouse) : 3 ≤ p.length := by
  have hfits := classify_fits t p
  simp only [h, PacketClass.fits, Bool.and_eq_true, decide_eq_true_eq] at hfits
  exact hfits.2

theorem utf8Valid_of_classify_statusText {t : Byte} {p : List Byte} (h : classify t p = .statusText) :
    utf8Valid p = true := by
  have hfits := classify_fits t p
  simp only [h, PacketClass.fits, beq_iff_eq] at hfits
  rw [hfits, classify_status] at h
  split at h
  next hvalid => exact hvalid
  next => cases h

theorem interpret_keyboard_some {p : List Byte} (h : p.length = 8) :
    ∃ mods slots keyset, interpret .keyboard p = some (.keyboard mods slots keyset) := by
  match p, h with
  | [_, _, _, _, _, _, _, _], _ => exact ⟨_, _, _, rfl⟩

theorem interpret_mouse_some {p : List Byte} (h : 3 ≤ p.length) :
    ∃ btns x y, interpret .mouse p = some (.mouse btns x y) := by
  match p, h with
  | b :: x :: y :: more, _ => exact ⟨_, _, _, interpret_mouse b x y more⟩

/-- The classes whose payload bytes are the value surfaced (R229). -/
theorem interpret_raw {c : PacketClass} (h : c.code ∈ [(0x3 : Nibble), 0x5, 0x6, 0x7, 0x8]) (p : List Byte) :
    interpret c p = some (.raw p) := by
  cases c with
  | keyboard => exact absurd h (by decide)
  | mouse => exact absurd h (by decide)
  | statusText => exact absurd h (by decide)
  | ledUpdate => rfl
  | statusRaw => rfl
  | ack => rfl
  | unrecognized => rfl
  | malformed => rfl

theorem PacketClass.code_mem (c : PacketClass) : c.code ∈ [(0x1 : Nibble), 0x2, 0x3, 0x4, 0x5, 0x6, 0x7, 0x8] := by
  cases c <;> decide

/-- A whole DECODED event means what its payload means in the class of that payload. -/
theorem Event.meaning_of_whole {e : Event} (hk : DoKind.ofCode (doKindField e.word) = some .decoded)
    (hcls : doClassField e.word = (classify (doTypeField e.word) e.payload).code) :
    e.meaning = interpret (classify (doTypeField e.word) e.payload) e.payload := by
  simp [Event.meaning, hk, hcls]

/-- Settles O55: the class of a whole DECODED event is that of its payload, which has the bytes the class is read
from. -/
theorem everyDecodedEventHasAMeaning : Obligations.EveryDecodedEventHasAMeaning := by
  refine ⟨fun c p hc => ?_, fun e hwhole hk => ?_⟩
  · refine interpret_raw ?_ p
    simp only [List.mem_cons, List.not_mem_nil, or_false] at hc
    obtain rfl | rfl | rfl | rfl | rfl := hc <;> decide
  · obtain ⟨-, hcls⟩ := (Event.whole_iff_of_decoded hk).mp hwhole
    rw [Event.meaning_of_whole hk hcls, hcls]
    refine ⟨fun h => ?_, fun h => ?_, fun h => ?_, fun h => interpret_raw h e.payload, PacketClass.code_mem _⟩
    · have hc := PacketClass.code_injective (a₂ := .keyboard) h
      obtain ⟨mods, slots, keyset, hmeans⟩ := interpret_keyboard_some (length_of_classify_keyboard hc)
      exact ⟨mods, slots, keyset, hc ▸ hmeans, by rw [hc]⟩
    · have hc := PacketClass.code_injective (a₂ := .mouse) h
      obtain ⟨btns, x, y, hmeans⟩ := interpret_mouse_some (length_of_classify_mouse hc)
      exact ⟨btns, x, y, hc ▸ hmeans, by rw [hc]⟩
    · have hc := PacketClass.code_injective (a₂ := .statusText) h
      obtain ⟨vs, htext⟩ := (text_some_iff e.payload).mpr (utf8Valid_of_classify_statusText hc)
      exact ⟨vs, htext, by rw [hc, interpret, htext, Option.map_some]⟩

end Sys2Proof.Machine
end

section
/-! The proof that fair runs end (spec/70_reset_and_hazards.md R293, R294): each block waits for one agent, whose turn
lowers the count of what the block still has to do. -/

namespace Sys2Proof.Machine

/-! ## A count that the awaited agent lowers -/

theorem resetBlocks_turns (target : RstTarget) (s : State) : (resetBlocks target s).turns = s.turns := by
  cases target <;> rfl

theorem resetBlocks_producer (target : RstTarget) (s : State) : (resetBlocks target s).producer = s.producer := by
  cases target <;> rfl

theorem resetBlocks_source (target : RstTarget) (s : State) : (resetBlocks target s).source = s.source := by
  cases target <;> rfl

/-- A step uses up one turn. -/
theorem step_turns {s t : State} (hs : step s = .next t) : t.turns = s.turns.tail := by
  cases moves_of_step hs with
  | nothing ht => rw [ht]; rfl
  | reset _ ht => rw [ht, resetBlocks_turns]; rfl
  | fiWord _ _ hx => rw [exec_atPf_frame (atPf_decodeFi _) hx]; rfl
  | diWord _ _ hx => rw [exec_not_atPf_frame (atPf_decodeDi _) hx]; rfl
  | pfBeat _ hd hx => rw [exec_atPf_frame (atPf_of_decode_pfBeat hd) hx]; rfl
  | pdWord _ hd hx => rw [exec_not_atPf_frame (atPf_of_decodeDo hd) hx]; rfl

/-- `work` counts what a block still has to do and `waits` names an agent: each step lowers the count or leaves the
agent awaited, and the awaited agent's turn lowers a count that is not 0. -/
structure Lowers (work : State → Nat) (waits : State → Turn) : Prop where
  step_le : ∀ {s t : State}, step s = .next t → work t < work s ∨ (work t = work s ∧ waits t = waits s)
  turn_lt : ∀ {s t : State} {ts : List Turn}, s.Inv → s.turns = waits s :: ts → step s = .next t → work s ≠ 0 →
    work t < work s

section Rounds

variable {work : State → Nat} {waits : State → Turn} (h : Lowers work waits)

include h

/-- Turns never raise the count. -/
theorem Lowers.turns_le (r rest : List Turn) : ∀ {s : State}, s.Inv → s.turns = r ++ rest →
    ∃ t, steps r.length s = .next t ∧ t.Inv ∧ t.turns = rest ∧ work t ≤ work s := by
  induction r with
  | nil => exact fun {s} hinv hturns => ⟨s, rfl, hinv, hturns, Nat.le_refl _⟩
  | cons turn r ih =>
    intro s hinv hturns
    obtain ⟨u, hu⟩ := hinv.step_some
    obtain ⟨t, hsteps, ht, hrest, hle⟩ := ih (hinv.step hu) (by rw [step_turns hu, hturns]; rfl)
    have hstep : work u ≤ work s := (h.step_le hu).elim Nat.le_of_lt fun heq => heq.1.le
    exact ⟨t, (steps_succ hu r.length).trans hsteps, ht, hrest, hle.trans hstep⟩

/-- A round that gives the awaited agent a turn lowers the count. -/
theorem Lowers.round (r rest : List Turn) : ∀ {s : State}, s.Inv → s.turns = r ++ rest → waits s ∈ r →
    ∃ t, steps r.length s = .next t ∧ t.Inv ∧ t.turns = rest ∧ work t ≤ work s - 1 := by
  induction r with
  | nil => exact fun _ _ hmem => nomatch hmem
  | cons turn r ih =>
    intro s hinv hturns hmem
    obtain ⟨u, hu⟩ := hinv.step_some
    have hinvu := hinv.step hu
    have hturnsu : u.turns = r ++ rest := by rw [step_turns hu, hturns]; rfl
    by_cases hlow : work u ≤ work s - 1
    · obtain ⟨t, hsteps, ht, hrest, hle⟩ := h.turns_le r rest hinvu hturnsu
      exact ⟨t, (steps_succ hu r.length).trans hsteps, ht, hrest, hle.trans hlow⟩
    · obtain hlt | ⟨heq, hwaits⟩ := h.step_le hu
      · omega
      · obtain rfl | hmem := List.mem_cons.mp hmem
        · have hlt := h.turn_lt hinv hturns hu (by omega)
          omega
        · obtain ⟨t, hsteps, ht, hrest, hle⟩ := ih hinvu hturnsu (hwaits ▸ hmem)
          exact ⟨t, (steps_succ hu r.length).trans hsteps, ht, hrest, heq ▸ hle⟩

/-- As many rounds as the count bring it to 0. -/
theorem Lowers.rounds (rounds : List (List Turn)) : ∀ {s : State}, s.Inv → s.turns = rounds.flatten →
    (∀ r ∈ rounds, ∀ u, waits u ∈ r) → work s ≤ rounds.length →
    ∃ t, steps s.turns.length s = .next t ∧ work t = 0 := by
  induction rounds with
  | nil =>
    intro s _ hturns _ hle
    exact ⟨s, by rw [hturns]; rfl, Nat.le_zero.mp hle⟩
  | cons r rounds ih =>
    intro s hinv hturns hfair hle
    rw [List.length_cons] at hle
    rw [List.flatten_cons] at hturns
    obtain ⟨u, hu, hinvu, hrest, hlow⟩ := h.round r rounds.flatten hinv hturns (hfair r List.mem_cons_self s)
    obtain ⟨t, ht, hzero⟩ := ih hinvu hrest (fun r' hr' => hfair r' (List.mem_cons_of_mem r hr')) (by omega)
    refine ⟨t, ?_, hzero⟩
    rw [hturns, List.length_append, ← hrest, steps_add _ _ hu, ht]

end Rounds

/-! ## PF -/

/-- The beats that PF's consumers have still to take, and for each beat that the producer still offers its own transfer
and those of the beats it can cause (R286). -/
def pfWork (s : State) : Nat := s.pf.outq.length + 65541 * s.producer.length

/-- The agent that PF waits for: the consumer of its oldest beat, or with none the producer (R28, R29, R63). -/
def pfWaits (s : State) : Turn :=
  match s.pf.outq with
  | [] => .producer
  | .fo _ :: _ => .byteSink
  | .fe _ :: _ => .errorConsumer

theorem pfWork_eq_zero_iff (s : State) : pfWork s = 0 ↔ s.pfRunOver := by
  rw [pfWork, State.pfRunOver, ← List.length_eq_zero_iff, ← List.length_eq_zero_iff]
  omega

/-- PF's count and PF's agent are read off its queue and what is offered to it. -/
theorem pfWork_pfWaits_congr {s t : State} (hq : t.pf.outq = s.pf.outq) (hp : t.producer = s.producer) :
    pfWork t = pfWork s ∧ pfWaits t = pfWaits s :=
  ⟨by rw [pfWork, pfWork, hq, hp], by rw [pfWaits, pfWaits, hq]⟩

/-- A reset that empties the queue lowers the count, unless nothing stood there. -/
theorem pfWork_le_of_outq_nil {s t : State} (hempty : t.pf.outq = []) (hp : t.producer = s.producer) :
    pfWork t < pfWork s ∨ (pfWork t = pfWork s ∧ pfWaits t = pfWaits s) := by
  cases hq : s.pf.outq with
  | nil => exact .inr (pfWork_pfWaits_congr (hempty.trans hq.symm) hp)
  | cons b rest =>
    refine .inl ?_
    simp only [pfWork, hempty, hp, hq, List.length_nil, List.length_cons]
    omega

theorem pfWork_lt_of_fiWord {s t : State} {w : FiWord} {ws : List FiWord} {ts : List Turn}
    (hoffer : s.producer = w :: ws) (hready : s.pf.outq = [])
    (hx : exec (decodeFi w) { s with turns := ts, producer := ws } = .next t) :
    pfWork t < pfWork s := by
  have hlen := exec_pfInput_outq_length (pfInput_decodeFi w) hx hready
  have hp : t.producer = ws := by rw [exec_atPf_frame (atPf_decodeFi w) hx]; rfl
  simp only [pfWork, hp, hoffer, List.length_cons]
  omega

theorem pfWork_lt_of_pfBeat {s t : State} {b : PfBeat} {rest : List PfBeat} {i : Instr} {ts : List Turn}
    (hq : s.pf.outq = b :: rest) (hd : decode b.beat = .ok i) (hx : exec i { s with turns := ts } = .next t) :
    pfWork t < pfWork s := by
  have hp : t.producer = s.producer := by rw [exec_atPf_frame (atPf_of_decode_pfBeat hd) hx]; rfl
  simp only [pfWork, hp, exec_pfBeat_outq hx hd hq, hq, List.length_cons]
  omega

theorem pfWork_lowers : Lowers pfWork pfWaits where
  step_le := by
    intro s t hs
    cases moves_of_step hs with
    | nothing ht => exact .inr (pfWork_pfWaits_congr (by rw [ht]; rfl) (by rw [ht]; rfl))
    | reset _ ht =>
      have hp : t.producer = s.producer := by rw [ht, resetBlocks_producer]; rfl
      obtain hpf | hempty := resetBlocks_pf _ s.nextTurn
      · exact .inr (pfWork_pfWaits_congr (by rw [ht, hpf]; rfl) hp)
      · exact pfWork_le_of_outq_nil (ht ▸ hempty) hp
    | fiWord hoffer hready hx => exact .inl (pfWork_lt_of_fiWord hoffer hready hx)
    | diWord _ _ hx =>
      rw [exec_not_atPf_frame (atPf_decodeDi _) hx]
      exact .inr ⟨rfl, rfl⟩
    | pfBeat hq hd hx => exact .inl (pfWork_lt_of_pfBeat hq hd hx)
    | pdWord _ hd hx =>
      rw [exec_not_atPf_frame (atPf_of_decodeDo hd) hx]
      exact .inr ⟨rfl, rfl⟩
  turn_lt := by
    intro s t ts hinv hturns hs hwork
    cases hq : s.pf.outq with
    | nil =>
      have hwaits : pfWaits s = .producer := by simp [pfWaits, hq]
      cases hp : s.producer with
      | nil => exact absurd ((pfWork_eq_zero_iff s).mpr ⟨hp, hq⟩) hwork
      | cons w ws =>
        rw [step_of_beat (ts := ts) (hwaits ▸ hturns) (fetch_producer_of_ready hp hq) rfl] at hs
        exact pfWork_lt_of_fiWord hp hq hs
    | cons b rest =>
      obtain ⟨i, hd⟩ := decode_of_emittable (hinv.pf.emitted b (by simp [hq]))
      cases b with
      | fo w =>
        have hwaits : pfWaits s = .byteSink := by simp [pfWaits, hq]
        rw [step_of_beat (ts := ts) (hwaits ▸ hturns) (fetch_byteSink_of_head hq) hd] at hs
        exact pfWork_lt_of_pfBeat hq hd hs
      | fe w =>
        have hwaits : pfWaits s = .errorConsumer := by simp [pfWaits, hq]
        rw [step_of_beat (ts := ts) (hwaits ▸ hturns) (fetch_errorConsumer_of_head hq) hd] at hs
        exact pfWork_lt_of_pfBeat hq hd hs

/-! ## PD -/

/-- The words that the event consumer has still to take, and for each beat that the byte source still offers its own
transfer and those of the words it can cause (R286). -/
def pdWork (s : State) : Nat := s.pd.outq.length + 65537 * s.source.length

/-- The agent that PD waits for: the event consumer, or with nothing for it the byte source (R28, R29). -/
def pdWaits (s : State) : Turn :=
  match s.pd.outq with
  | [] => .byteSource
  | _ :: _ => .eventConsumer

theorem pdWork_eq_zero_iff (s : State) : pdWork s = 0 ↔ s.pdRunOver := by
  rw [pdWork, State.pdRunOver, ← List.length_eq_zero_iff, ← List.length_eq_zero_iff]
  omega

/-- PD's count and PD's agent are read off its queue and what is offered to it. -/
theorem pdWork_pdWaits_congr {s t : State} (hq : t.pd.outq = s.pd.outq) (hp : t.source = s.source) :
    pdWork t = pdWork s ∧ pdWaits t = pdWaits s :=
  ⟨by rw [pdWork, pdWork, hq, hp], by rw [pdWaits, pdWaits, hq]⟩

/-- A reset that empties the queue lowers the count, unless nothing stood there. -/
theorem pdWork_le_of_outq_nil {s t : State} (hempty : t.pd.outq = []) (hp : t.source = s.source) :
    pdWork t < pdWork s ∨ (pdWork t = pdWork s ∧ pdWaits t = pdWaits s) := by
  cases hq : s.pd.outq with
  | nil => exact .inr (pdWork_pdWaits_congr (hempty.trans hq.symm) hp)
  | cons b rest =>
    refine .inl ?_
    simp only [pdWork, hempty, hp, hq, List.length_nil, List.length_cons]
    omega

theorem pdWork_lt_of_diWord {s t : State} {w : DiWord} {ws : List DiWord} {ts : List Turn} (hoffer : s.source = w :: ws)
    (hready : s.pd.outq = []) (hx : exec (decodeDi w) { s with turns := ts, source := ws } = .next t) :
    pdWork t < pdWork s := by
  have hlen := exec_pdInput_outq_length (pdInput_decodeDi w) hx hready
  have hp : t.source = ws := by rw [exec_not_atPf_frame (atPf_decodeDi w) hx]; rfl
  simp only [pdWork, hp, hoffer, List.length_cons]
  omega

theorem pdWork_lt_of_pdWord {s t : State} {w : DoWord} {rest : List DoWord} {i : Instr} {ts : List Turn}
    (hq : s.pd.outq = w :: rest) (hd : decodeDo w = .ok i) (hx : exec i { s with turns := ts } = .next t) :
    pdWork t < pdWork s := by
  have hp : t.source = s.source := by rw [exec_not_atPf_frame (atPf_of_decodeDo hd) hx]; rfl
  simp only [pdWork, hp, exec_doWord_outq hx hd hq, hq, List.length_cons]
  omega

theorem pdWork_lowers : Lowers pdWork pdWaits where
  step_le := by
    intro s t hs
    cases moves_of_step hs with
    | nothing ht => exact .inr (pdWork_pdWaits_congr (by rw [ht]; rfl) (by rw [ht]; rfl))
    | reset _ ht =>
      have hp : t.source = s.source := by rw [ht, resetBlocks_source]; rfl
      obtain ⟨hpd, -⟩ | ⟨hempty, -⟩ := resetBlocks_pd _ s.nextTurn
      · exact .inr (pdWork_pdWaits_congr (by rw [ht, hpd]; rfl) hp)
      · exact pdWork_le_of_outq_nil (ht ▸ hempty) hp
    | fiWord _ _ hx =>
      rw [exec_atPf_frame (atPf_decodeFi _) hx]
      exact .inr ⟨rfl, rfl⟩
    | diWord hoffer hready hx => exact .inl (pdWork_lt_of_diWord hoffer hready hx)
    | pfBeat _ hd hx =>
      rw [exec_atPf_frame (atPf_of_decode_pfBeat hd) hx]
      exact .inr ⟨rfl, rfl⟩
    | pdWord hq hd hx => exact .inl (pdWork_lt_of_pdWord hq hd hx)
  turn_lt := by
    intro s t ts hinv hturns hs hwork
    cases hq : s.pd.outq with
    | nil =>
      have hwaits : pdWaits s = .byteSource := by simp [pdWaits, hq]
      cases hp : s.source with
      | nil => exact absurd ((pdWork_eq_zero_iff s).mpr ⟨hp, hq⟩) hwork
      | cons w ws =>
        rw [step_of_beat (ts := ts) (hwaits ▸ hturns) (fetch_byteSource_of_ready hp hq) rfl] at hs
        exact pdWork_lt_of_diWord hp hq hs
    | cons w rest =>
      have hwaits : pdWaits s = .eventConsumer := by simp [pdWaits, hq]
      obtain ⟨i, hd⟩ := decode_of_emittable (hinv.pd.emitted w (by simp [hq]))
      rw [step_of_beat (ts := ts) (hwaits ▸ hturns) (fetch_eventConsumer_of_head hq) hd] at hs
      exact pdWork_lt_of_pdWord hq hd hs

/-- Settles O57: each round gives the awaited agent a turn, so as many rounds as the count bring it to 0. -/
theorem fairRunsEnd : Obligations.FairRunsEnd := by
  refine ⟨fun s rounds hinv hturns hfair hle => ?_, fun s rounds hinv hturns hfair hle => ?_⟩
  · have hwaits : ∀ r ∈ rounds, ∀ u, pfWaits u ∈ r := by
      intro r hr u
      obtain ⟨hproducer, hsink, herror⟩ := hfair r hr
      unfold pfWaits
      split
      · exact hproducer
      · exact hsink
      · exact herror
    obtain ⟨t, ht, hzero⟩ := pfWork_lowers.rounds rounds hinv hturns hwaits hle
    exact ⟨t, ht, (pfWork_eq_zero_iff t).mp hzero⟩
  · have hwaits : ∀ r ∈ rounds, ∀ u, pdWaits u ∈ r := by
      intro r hr u
      obtain ⟨hsource, hconsumer⟩ := hfair r hr
      unfold pdWaits
      split
      · exact hsource
      · exact hconsumer
    obtain ⟨t, ht, hzero⟩ := pdWork_lowers.rounds rounds hinv hturns hwaits hle
    exact ⟨t, ht, (pdWork_eq_zero_iff t).mp hzero⟩

end Sys2Proof.Machine
end

section
/-! The proof that the result of a run does not depend on the pace (spec/70_reset_and_hazards.md R294): a step of a
block is the next move of the block's own run, and a step of anything else leaves that run as it was. -/

namespace Sys2Proof.Machine

theorem noReset_of_step {s t : State} (hn : noReset s.turns) (hs : step s = .next t) : noReset t.turns :=
  fun target hmem => hn target (List.mem_of_mem_tail (step_turns hs ▸ hmem))

/-! ## PF -/

/-- From every state whose PF side is `r`, the run of PF over the words `ws` ends, and then PF's side is `r'`. -/
def PfRunsTo (ws : List FiWord) (r r' : PfResult) : Prop :=
  ∀ v : State, v.pfResult = r → runPf (ws.map decodeFi) v = .next (v.withPf r')

/-- A run that is over has the result it has. -/
theorem pfRunsTo_of_over {t : State} (h : t.pfRunOver) : PfRunsTo t.producer t.pfResult t.pfResult := by
  obtain ⟨hp, hq⟩ := h
  intro v hv
  have hvq : v.pf.outq = [] := (congrArg (·.final.outq) hv).trans hq
  rw [hp, ← hv]
  exact runPf_nil hvq

/-- Before a step the run of PF has the result that it has after the step. -/
theorem pfRunsTo_of_step {s t : State} {r : PfResult} (hn : noReset s.turns) (hs : step s = .next t)
    (h : PfRunsTo t.producer t.pfResult r) : PfRunsTo s.producer s.pfResult r := by
  cases moves_of_step hs with
  | nothing ht => rwa [ht] at h
  | reset hturn _ => exact absurd hturn (hn _)
  | @fiWord w ws hoffer hready hx =>
    intro v hv
    have hi := atPf_decodeFi w
    have hp : t.producer = ws := by rw [exec_atPf_frame hi hx]; rfl
    have hvq : v.pf.outq = [] := (congrArg (·.final.outq) hv).trans hready
    rw [hoffer, List.map_cons, runPf_cons hvq (exec_withPf hi hx hv.symm)]
    exact hp ▸ h (v.withPf t.pfResult) rfl
  | diWord _ _ hx => rwa [exec_not_atPf_frame (atPf_decodeDi _) hx] at h
  | @pfBeat b rest i hq hd hx =>
    intro v hv
    have hi := atPf_of_decode_pfBeat hd
    have hp : t.producer = s.producer := by rw [exec_atPf_frame hi hx]; rfl
    have hvq : v.pf.outq = b :: rest := (congrArg (·.final.outq) hv).trans hq
    have hrest : t.pf.outq = rest := exec_pfBeat_outq hx hd hq
    rw [runPf_deliver hvq hd (exec_withPf hi hx hv.symm) hrest]
    exact hp ▸ h (v.withPf t.pfResult) rfl
  | pdWord _ hd hx => rwa [exec_not_atPf_frame (atPf_of_decodeDo hd) hx] at h

theorem pfRunsTo_of_steps (k : Nat) {t : State} (hover : t.pfRunOver) : ∀ {s : State}, noReset s.turns →
    steps k s = .next t → PfRunsTo s.producer s.pfResult t.pfResult := by
  induction k with
  | zero =>
    rintro s _ ⟨⟩
    exact pfRunsTo_of_over hover
  | succ k ih =>
    intro s hn hk
    obtain ⟨u, hs, hu⟩ := steps_succ_next hk
    exact pfRunsTo_of_step hn hs (ih (noReset_of_step hn hs) hu)

/-! ## PD -/

/-- From every state whose PD side is `r` and `c`, the run of PD over the words `ws` ends, and then PD's side is `r'`
and `c'`. -/
def PdRunsTo (ws : List DiWord) (r : PdResult) (c : Consumer) (r' : PdResult) (c' : Consumer) : Prop :=
  ∀ v : State, v.pdResult = r → v.consumer = c → runPd (ws.map decodeDi) v = .next (v.withPd r' c')

/-- A run that is over has the result it has. -/
theorem pdRunsTo_of_over {t : State} (h : t.pdRunOver) :
    PdRunsTo t.source t.pdResult t.consumer t.pdResult t.consumer := by
  obtain ⟨hp, hq⟩ := h
  intro v hv hc
  have hvq : v.pd.outq = [] := (congrArg (·.final.outq) hv).trans hq
  rw [hp, ← hv, ← hc]
  exact runPd_nil hvq

/-- Before a step the run of PD has the result that it has after the step. -/
theorem pdRunsTo_of_step {s t : State} {r : PdResult} {c : Consumer} (hn : noReset s.turns) (hs : step s = .next t)
    (h : PdRunsTo t.source t.pdResult t.consumer r c) : PdRunsTo s.source s.pdResult s.consumer r c := by
  cases moves_of_step hs with
  | nothing ht => rwa [ht] at h
  | reset hturn _ => exact absurd hturn (hn _)
  | fiWord _ _ hx => rwa [exec_atPf_frame (atPf_decodeFi _) hx] at h
  | @diWord w ws hoffer hready hx =>
    intro v hv hc
    have hi := atPf_decodeDi w
    have hp : t.source = ws := by rw [exec_not_atPf_frame hi hx]; rfl
    have hvq : v.pd.outq = [] := (congrArg (·.final.outq) hv).trans hready
    rw [hoffer, List.map_cons, runPd_cons hvq (exec_withPd hi hx hv.symm hc.symm)]
    exact hp ▸ h (v.withPd t.pdResult t.consumer) rfl rfl
  | pfBeat _ hd hx => rwa [exec_atPf_frame (atPf_of_decode_pfBeat hd) hx] at h
  | @pdWord w rest i hq hd hx =>
    intro v hv hc
    have hi := atPf_of_decodeDo hd
    have hp : t.source = s.source := by rw [exec_not_atPf_frame hi hx]; rfl
    have hvq : v.pd.outq = w :: rest := (congrArg (·.final.outq) hv).trans hq
    have hrest : t.pd.outq = rest := exec_doWord_outq hx hd hq
    rw [runPd_deliver hvq hd (exec_withPd hi hx hv.symm hc.symm) hrest]
    exact hp ▸ h (v.withPd t.pdResult t.consumer) rfl rfl

theorem pdRunsTo_of_steps (k : Nat) {t : State} (hover : t.pdRunOver) : ∀ {s : State}, noReset s.turns →
    steps k s = .next t → PdRunsTo s.source s.pdResult s.consumer t.pdResult t.consumer := by
  induction k with
  | zero =>
    rintro s _ ⟨⟩
    exact pdRunsTo_of_over hover
  | succ k ih =>
    intro s hn hk
    obtain ⟨u, hs, hu⟩ := steps_succ_next hk
    exact pdRunsTo_of_step hn hs (ih (noReset_of_step hn hs) hu)

/-! ## Both -/

theorem map_encode_decodeFi (ws : List FiWord) : (ws.map decodeFi).map encode = ws.map Beat.fi := by
  rw [List.map_map]
  exact List.map_congr_left fun w _ => encode_decodeFi w

theorem map_encode_decodeDi (ws : List DiWord) : (ws.map decodeDi).map encode = ws.map Beat.di := by
  rw [List.map_map]
  exact List.map_congr_left fun w _ => encode_decodeDi w

/-- Settles O56: step by step back from the end, the run over what is still offered has the result that was reached. -/
theorem runResultDoesNotDependOnThePace : Obligations.RunResultDoesNotDependOnThePace := by
  refine ⟨fun k s t hn hk hover => ?_, fun k s t hn hk hover => ?_⟩
  · exact ⟨_, _, map_encode_decodeFi s.producer, pfRunsTo_of_steps k hover hn hk s rfl, hover.2, rfl⟩
  · exact ⟨_, _, map_encode_decodeDi s.source, pdRunsTo_of_steps k hover hn hk s rfl rfl, hover.2, rfl, rfl⟩

end Sys2Proof.Machine
end
